-- ==== Sys2Proof/Word.lean ====
section
/-! DEFINITION. The word types of the machine (spec/00_scope.md R8, R11) and the type of a memory held as a
list of cells. No operation is defined here: bit helpers stand in Decode.lean, the cell operations in
Machine/Cells.lean. -/

namespace Sys2Proof

/-- An unsigned 8-bit value (R11). -/
abbrev Byte := BitVec 8

/-- An unsigned 16-bit value (R11). -/
abbrev Word := BitVec 16

/-- A memory of `w`-bit cells as plain data: pairs of an index and a value, indices strictly rising. An
index that is not listed has no value of its own here (see notes/assumptions/2.md). At `w = 8` an entry is
a `Host.Cell`. -/
abbrev Cells (w : Nat) := List (Nat × BitVec w)

end Sys2Proof
end

