-- ==== Sys2Proof/Config.lean ====
section
/-! DEFINITION. What an implementation fixes (spec/00_scope.md R10) and the free values: values that the spec
leaves open, which no definition gives a body, so that no proof can see them. The parameters that are counts
are a value of `Params`, which State holds; the parameters irq_line, Cart and the host's controller state change
at run time and stand in State as well. -/

namespace Sys2Proof

/-- The memories whose contents at power-on the spec leaves open (spec/70 R1101, spec/63 R1044), and the
cartridge ROMs, whose contents come with the cartridge image. -/
inductive MemSpace where
  | cpuRam
  | oam
  | nametable
  | prg
  | chr
  | prgRam
  deriving DecidableEq, Repr

/-- `POWER_ON_MEMORY` (R10; spec/92 D10, D62): the byte a memory cell holds before anything writes it. A FREE
VALUE, one draw per cell (notes/assumptions/2.md). -/
opaque Config.powerOnMemory : MemSpace → Nat → Byte

/-- `POWER_ON_MEMORY` of the palette RAM, whose cells are 6 bits wide (spec/61 R801). A FREE VALUE
(notes/assumptions/2.md). -/
opaque Config.powerOnPalette : Nat → BitVec 6

/-- A pixel of the frame buffer before the multiplexer writes it, "unspecified" (spec/61 R801). A FREE VALUE
(notes/assumptions/3.md). -/
opaque Config.unwrittenPixel : Nat → BitVec 32

/-- The flipped row of an 8 by 8 sprite whose row is above 7, which spec/61 R851 does not give. A FREE VALUE
(notes/assumptions/11.md). -/
opaque Config.spriteRowBeyond : Int → BitVec 14

/-- `SYSTEM_PALETTE` (R10; spec/92 D37): the 24-bit colour of a 6-bit index, red in bits 23..16, green in
15..8, blue in 7..0; the entries are not given. A FREE VALUE (notes/assumptions/4.md). -/
opaque Config.systemPalette : BitVec 6 → BitVec 24

/-- The CPU's transient latches (spec/10 R110). -/
structure Latches where
  opcode : Byte
  ea : Word
  m : Byte
  modeExtra : Bool
  opExtra : Bool
  deriving DecidableEq, Repr, Inhabited

/-- What the transient latches hold between two CPU clocks: "any value" (spec/93 on spec/10 R110, "Only `cycles`
persists between clocks"). A FREE VALUE, one draw per clock (notes/assumptions/9.md). -/
opaque Config.latchDraw : Nat → Latches

/-- The type of `APU_FRAME_DIV`: "1 or 2" (R10; spec/92 D38). -/
inductive FrameDiv where
  | one
  | two
  deriving DecidableEq, Repr

/-- How many calls of the APU's `clk()` make one count of the frame sequencer (spec/92 D38). -/
def FrameDiv.calls : FrameDiv → Nat
  | .one => 1
  | .two => 2

/-- The parameters of R10 that are counts, which the model takes as an argument (notes/assumptions/8.md). -/
structure Params where
  /-- `ILLEGAL_CYCLES`, opcode byte to cycles: the bytes whose count is not the default 2, each with its count
  (spec/92 D5). -/
  illegalCycles : List (Byte × Nat)
  /-- `RESET_CYCLES` (spec/92 D9). -/
  resetCycles : Nat
  /-- `APU_FRAME_DIV` (spec/92 D38). -/
  apuFrameDiv : FrameDiv
  deriving DecidableEq, Repr

/-- `ILLEGAL_CYCLES(op)`: "default 2" (spec/30 R390; spec/92 D5). -/
def Params.illegalCount (q : Params) (op : Byte) : Nat := (q.illegalCycles.lookup op).getD 2

/-- The defaults of R10: 2 for every illegal byte, 7, 1. -/
def Params.default : Params := ⟨[], 7, .one⟩

end Sys2Proof
end

