-- ==== Sys2Proof/Syntax.lean ====
section
/-! DEFINITION. The instructions as syntax (spec/30_encoding.md R300 to R332, R350, R351, R390). One
constructor of `Instr` per instruction of the table; the operand forms of an instruction, which are the
several rows the table gives it, are the constructors of its operand type. -/

namespace Sys2Proof

/-- The memory addressing modes (R322 to R327, R330, R331), each with its operand. -/
inductive Mem where
  /-- `$nn`, R322. -/
  | zp (a : Byte)
  /-- `$nn,X`, R324. -/
  | zpX (a : Byte)
  /-- `$nn,Y`, R325. -/
  | zpY (a : Byte)
  /-- `$nnnn`, R323. -/
  | abs (a : Word)
  /-- `$nnnn,X`, R326. -/
  | absX (a : Word)
  /-- `$nnnn,Y`, R327. -/
  | absY (a : Word)
  /-- `($nn,X)`, R330. -/
  | indX (a : Byte)
  /-- `($nn),Y`, R331. -/
  | indY (a : Byte)
  deriving DecidableEq, Repr

/-- The operand of an instruction that reads a byte: an immediate (R321) or a memory operand. -/
inductive Src where
  | imm (b : Byte)
  | mem (m : Mem)
  deriving DecidableEq, Repr

/-- The operand of a shift or a rotate: the accumulator (the implied mode, R320) or a memory operand that is
read and written back. -/
inductive Rmw where
  | acc
  | mem (m : Mem)
  deriving DecidableEq, Repr

/-- The operand of JMP: absolute (R323) or indirect (R329). -/
inductive JmpTarget where
  | abs (a : Word)
  | ind (a : Word)
  deriving DecidableEq, Repr

/-- The instructions of spec/opcode_table.json: the 56 official mnemonics (R351) and the illegal no-op
(R390), which keeps its opcode byte. -/
inductive Instr where
  -- spec/40_load_store.md
  | lda (o : Src)
  | ldx (o : Src)
  | ldy (o : Src)
  | sta (m : Mem)
  | stx (m : Mem)
  | sty (m : Mem)
  -- spec/41_transfer_stack.md
  | tax
  | tay
  | txa
  | tya
  | tsx
  | txs
  | pha
  | php
  | pla
  | plp
  -- spec/42_arithmetic.md
  | adc (o : Src)
  | sbc (o : Src)
  | cmp (o : Src)
  | cpx (o : Src)
  | cpy (o : Src)
  | inc (m : Mem)
  | inx
  | iny
  | dec (m : Mem)
  | dex
  | dey
  -- spec/43_logic_shift.md
  | and (o : Src)
  | ora (o : Src)
  | eor (o : Src)
  | bit (m : Mem)
  | asl (o : Rmw)
  | lsr (o : Rmw)
  | rol (o : Rmw)
  | ror (o : Rmw)
  -- spec/44_control.md
  | jmp (t : JmpTarget)
  | jsr (a : Word)
  | rts
  | rti
  | brk
  | bcc (off : Byte)
  | bcs (off : Byte)
  | beq (off : Byte)
  | bmi (off : Byte)
  | bne (off : Byte)
  | bpl (off : Byte)
  | bvc (off : Byte)
  | bvs (off : Byte)
  -- spec/45_flags_nop.md
  | clc
  | sec
  | cli
  | sei
  | cld
  | sed
  | clv
  | nop
  -- spec/30_encoding.md R390
  | illegal (op : Byte)
  deriving DecidableEq, Repr

end Sys2Proof
end

