-- ==== Sys2Proof/WellFormed.lean ====
section
/-! DEFINITION. Which instruction terms the machine has: an instruction with an addressing mode that the
opcode map (spec/30_encoding.md R350) gives it, and the illegal no-op with one of the 105 illegal opcode
bytes (R390). -/

namespace Sys2Proof

/-- The eight modes of ADC AND CMP EOR LDA ORA SBC (R350): every read mode but `zp,Y`. -/
def Src.aluForm : Src → Bool
  | .mem (.zpY _) => false
  | _ => true

/-- The modes of LDX (R402): `#`, `zp`, `zp,Y`, `abs`, `abs,Y`. -/
def Src.ldxForm : Src → Bool
  | .imm _ | .mem (.zp _) | .mem (.zpY _) | .mem (.abs _) | .mem (.absY _) => true
  | _ => false

/-- The modes of LDY (R403): `#`, `zp`, `zp,X`, `abs`, `abs,X`. -/
def Src.ldyForm : Src → Bool
  | .imm _ | .mem (.zp _) | .mem (.zpX _) | .mem (.abs _) | .mem (.absX _) => true
  | _ => false

/-- The modes of CPX and CPY (R504, R505): `#`, `zp`, `abs`. -/
def Src.cpxForm : Src → Bool
  | .imm _ | .mem (.zp _) | .mem (.abs _) => true
  | _ => false

/-- The modes of STA (R404): every memory mode but `zp,Y`. -/
def Mem.staForm : Mem → Bool
  | .zpY _ => false
  | _ => true

/-- The modes of STX (R405): `zp`, `zp,Y`, `abs`. -/
def Mem.stxForm : Mem → Bool
  | .zp _ | .zpY _ | .abs _ => true
  | _ => false

/-- The modes of STY (R406): `zp`, `zp,X`, `abs`. -/
def Mem.styForm : Mem → Bool
  | .zp _ | .zpX _ | .abs _ => true
  | _ => false

/-- The modes of BIT (R554): `zp`, `abs`. -/
def Mem.bitForm : Mem → Bool
  | .zp _ | .abs _ => true
  | _ => false

/-- The memory modes of INC, DEC and of the shifts and rotates (R506, R509, R555 to R558): `zp`, `zp,X`,
`abs`, `abs,X`. -/
def Mem.rmwForm : Mem → Bool
  | .zp _ | .zpX _ | .abs _ | .absX _ => true
  | _ => false

/-- The modes of ASL, LSR, ROL and ROR: the accumulator, or a read-modify-write memory mode. -/
def Rmw.shiftForm : Rmw → Bool
  | .acc => true
  | .mem m => m.rmwForm

/-- R390's list of the 105 illegal opcode bytes, row by row of the opcode map (rows 0x to 7x). -/
def illegalBytesLow : List Nat :=
  [0x02, 0x03, 0x04, 0x07, 0x0B, 0x0C, 0x0F, 0x12, 0x13, 0x14, 0x17, 0x1A, 0x1B, 0x1C, 0x1F] ++
  [0x22, 0x23, 0x27, 0x2B, 0x2F, 0x32, 0x33, 0x34, 0x37, 0x3A, 0x3B, 0x3C, 0x3F] ++
  [0x42, 0x43, 0x44, 0x47, 0x4B, 0x4F, 0x52, 0x53, 0x54, 0x57, 0x5A, 0x5B, 0x5C, 0x5F] ++
  [0x62, 0x63, 0x64, 0x67, 0x6B, 0x6F, 0x72, 0x73, 0x74, 0x77, 0x7A, 0x7B, 0x7C, 0x7F]

/-- R390's list, rows 8x to Fx. -/
def illegalBytesHigh : List Nat :=
  [0x80, 0x82, 0x83, 0x87, 0x89, 0x8B, 0x8F, 0x92, 0x93, 0x97, 0x9B, 0x9C, 0x9E, 0x9F] ++
  [0xA3, 0xA7, 0xAB, 0xAF, 0xB2, 0xB3, 0xB7, 0xBB, 0xBF] ++
  [0xC2, 0xC3, 0xC7, 0xCB, 0xCF, 0xD2, 0xD3, 0xD4, 0xD7, 0xDA, 0xDB, 0xDC, 0xDF] ++
  [0xE2, 0xE3, 0xE7, 0xEB, 0xEF, 0xF2, 0xF3, 0xF4, 0xF7, 0xFA, 0xFB, 0xFC, 0xFF]

/-- Whether an opcode byte is one of the 105 illegal ones (R390). -/
def illegalByte (op : Byte) : Bool :=
  illegalBytesLow.contains op.toNat || illegalBytesHigh.contains op.toNat

/-- The instruction is one the opcode map holds. -/
def Instr.wf : Instr → Bool
  | .lda o | .adc o | .sbc o | .cmp o | .and o | .ora o | .eor o => o.aluForm
  | .ldx o => o.ldxForm
  | .ldy o => o.ldyForm
  | .cpx o | .cpy o => o.cpxForm
  | .sta m => m.staForm
  | .stx m => m.stxForm
  | .sty m => m.styForm
  | .bit m => m.bitForm
  | .inc m | .dec m => m.rmwForm
  | .asl o | .lsr o | .rol o | .ror o => o.shiftForm
  | .illegal op => illegalByte op
  | .tax | .tay | .txa | .tya | .tsx | .txs | .pha | .php | .pla | .plp
  | .inx | .iny | .dex | .dey
  | .jmp _ | .jsr _ | .rts | .rti | .brk
  | .bcc _ | .bcs _ | .beq _ | .bmi _ | .bne _ | .bpl _ | .bvc _ | .bvs _
  | .clc | .sec | .cli | .sei | .cld | .sed | .clv | .nop => true

end Sys2Proof
end

