-- ==== Sys2Proof/Decode.lean ====
section
/-! DEFINITION. The decoder and the encoder (spec/30_encoding.md R300 to R302, R320 to R331, R350, R390), and
the byte-order and bit helpers they and the machine use (R11, R12, R207). -/

namespace Sys2Proof

/-! ## Bits and bytes -/

/-- `hi:lo`, the 16-bit value of two bytes (R11). -/
def hiLo (hi lo : Byte) : Word := hi ++ lo

/-- The low byte of a word, `v[7:0]`. -/
def loByte (w : Word) : Byte := w.setWidth 8

/-- The high byte of a word, `v[15:8]`. -/
def hiByte (w : Word) : Byte := (w >>> 8).setWidth 8

/-- `zext_16` (R12). -/
def zext16 (b : Byte) : Word := b.setWidth 16

/-- `sext_16` (R12). -/
def sext16 (b : Byte) : Word := b.signExtend 16

/-! ## The descriptor table -/

/-- The twelve addressing modes, under the names of the table's "format" column. The accumulator form is the
implied mode (R320). -/
inductive Mode where
  | implied
  | immediate
  | zeropage
  | zeropageX
  | zeropageY
  | absolute
  | absoluteX
  | absoluteY
  | relative
  | indirect
  | indexedIndirectX
  | indirectIndexedY
  deriving DecidableEq, Repr

/-- The operation of a descriptor: the 56 mnemonics of R351 and the illegal no-op. -/
inductive Mnemonic where
  | lda | ldx | ldy | sta | stx | sty
  | tax | tay | txa | tya | tsx | txs | pha | php | pla | plp
  | adc | sbc | cmp | cpx | cpy | inc | inx | iny | dec | dex | dey
  | and | ora | eor | bit | asl | lsr | rol | ror
  | jmp | jsr | rts | rti | brk
  | bcc | bcs | beq | bmi | bne | bpl | bvc | bvs
  | clc | sec | cli | sei | cld | sed | clv | nop
  | illegal
  deriving DecidableEq, Repr

/-- "(mnemonic, opcode-function, addressing-mode-function, base-cycle-count)" (spec/30 introduction, R302). -/
structure Descriptor where
  op : Mnemonic
  mode : Mode
  base : Nat
  deriving DecidableEq, Repr

/-- An illegal cell of the map: a one-byte no-op (R390). Its count is the parameter `ILLEGAL_CYCLES` of the opcode
byte, which `Instr.baseCycles` takes from `Params` (R340, D5); the map holds that parameter's default. -/
def ill : Descriptor := ⟨.illegal, .implied, 2⟩

/-- Opcodes 0x00 to 0x0F (R350, row 0x). -/
def opcodeRow0 : List Descriptor :=
  [⟨.brk, .implied, 7⟩, ⟨.ora, .indexedIndirectX, 6⟩, ill, ill,
   ill, ⟨.ora, .zeropage, 3⟩, ⟨.asl, .zeropage, 5⟩, ill,
   ⟨.php, .implied, 3⟩, ⟨.ora, .immediate, 2⟩, ⟨.asl, .implied, 2⟩, ill,
   ill, ⟨.ora, .absolute, 4⟩, ⟨.asl, .absolute, 6⟩, ill]

/-- Opcodes 0x10 to 0x1F (R350, row 1x). -/
def opcodeRow1 : List Descriptor :=
  [⟨.bpl, .relative, 2⟩, ⟨.ora, .indirectIndexedY, 5⟩, ill, ill,
   ill, ⟨.ora, .zeropageX, 4⟩, ⟨.asl, .zeropageX, 6⟩, ill,
   ⟨.clc, .implied, 2⟩, ⟨.ora, .absoluteY, 4⟩, ill, ill,
   ill, ⟨.ora, .absoluteX, 4⟩, ⟨.asl, .absoluteX, 7⟩, ill]

/-- Opcodes 0x20 to 0x2F (R350, row 2x). -/
def opcodeRow2 : List Descriptor :=
  [⟨.jsr, .absolute, 6⟩, ⟨.and, .indexedIndirectX, 6⟩, ill, ill,
   ⟨.bit, .zeropage, 3⟩, ⟨.and, .zeropage, 3⟩, ⟨.rol, .zeropage, 5⟩, ill,
   ⟨.plp, .implied, 4⟩, ⟨.and, .immediate, 2⟩, ⟨.rol, .implied, 2⟩, ill,
   ⟨.bit, .absolute, 4⟩, ⟨.and, .absolute, 4⟩, ⟨.rol, .absolute, 6⟩, ill]

/-- Opcodes 0x30 to 0x3F (R350, row 3x). -/
def opcodeRow3 : List Descriptor :=
  [⟨.bmi, .relative, 2⟩, ⟨.and, .indirectIndexedY, 5⟩, ill, ill,
   ill, ⟨.and, .zeropageX, 4⟩, ⟨.rol, .zeropageX, 6⟩, ill,
   ⟨.sec, .implied, 2⟩, ⟨.and, .absoluteY, 4⟩, ill, ill,
   ill, ⟨.and, .absoluteX, 4⟩, ⟨.rol, .absoluteX, 7⟩, ill]

/-- Opcodes 0x40 to 0x4F (R350, row 4x). -/
def opcodeRow4 : List Descriptor :=
  [⟨.rti, .implied, 6⟩, ⟨.eor, .indexedIndirectX, 6⟩, ill, ill,
   ill, ⟨.eor, .zeropage, 3⟩, ⟨.lsr, .zeropage, 5⟩, ill,
   ⟨.pha, .implied, 3⟩, ⟨.eor, .immediate, 2⟩, ⟨.lsr, .implied, 2⟩, ill,
   ⟨.jmp, .absolute, 3⟩, ⟨.eor, .absolute, 4⟩, ⟨.lsr, .absolute, 6⟩, ill]

/-- Opcodes 0x50 to 0x5F (R350, row 5x). -/
def opcodeRow5 : List Descriptor :=
  [⟨.bvc, .relative, 2⟩, ⟨.eor, .indirectIndexedY, 5⟩, ill, ill,
   ill, ⟨.eor, .zeropageX, 4⟩, ⟨.lsr, .zeropageX, 6⟩, ill,
   ⟨.cli, .implied, 2⟩, ⟨.eor, .absoluteY, 4⟩, ill, ill,
   ill, ⟨.eor, .absoluteX, 4⟩, ⟨.lsr, .absoluteX, 7⟩, ill]

/-- Opcodes 0x60 to 0x6F (R350, row 6x). -/
def opcodeRow6 : List Descriptor :=
  [⟨.rts, .implied, 6⟩, ⟨.adc, .indexedIndirectX, 6⟩, ill, ill,
   ill, ⟨.adc, .zeropage, 3⟩, ⟨.ror, .zeropage, 5⟩, ill,
   ⟨.pla, .implied, 4⟩, ⟨.adc, .immediate, 2⟩, ⟨.ror, .implied, 2⟩, ill,
   ⟨.jmp, .indirect, 5⟩, ⟨.adc, .absolute, 4⟩, ⟨.ror, .absolute, 6⟩, ill]

/-- Opcodes 0x70 to 0x7F (R350, row 7x). -/
def opcodeRow7 : List Descriptor :=
  [⟨.bvs, .relative, 2⟩, ⟨.adc, .indirectIndexedY, 5⟩, ill, ill,
   ill, ⟨.adc, .zeropageX, 4⟩, ⟨.ror, .zeropageX, 6⟩, ill,
   ⟨.sei, .implied, 2⟩, ⟨.adc, .absoluteY, 4⟩, ill, ill,
   ill, ⟨.adc, .absoluteX, 4⟩, ⟨.ror, .absoluteX, 7⟩, ill]

/-- Opcodes 0x80 to 0x8F (R350, row 8x). -/
def opcodeRow8 : List Descriptor :=
  [ill, ⟨.sta, .indexedIndirectX, 6⟩, ill, ill,
   ⟨.sty, .zeropage, 3⟩, ⟨.sta, .zeropage, 3⟩, ⟨.stx, .zeropage, 3⟩, ill,
   ⟨.dey, .implied, 2⟩, ill, ⟨.txa, .implied, 2⟩, ill,
   ⟨.sty, .absolute, 4⟩, ⟨.sta, .absolute, 4⟩, ⟨.stx, .absolute, 4⟩, ill]

/-- Opcodes 0x90 to 0x9F (R350, row 9x). -/
def opcodeRow9 : List Descriptor :=
  [⟨.bcc, .relative, 2⟩, ⟨.sta, .indirectIndexedY, 6⟩, ill, ill,
   ⟨.sty, .zeropageX, 4⟩, ⟨.sta, .zeropageX, 4⟩, ⟨.stx, .zeropageY, 4⟩, ill,
   ⟨.tya, .implied, 2⟩, ⟨.sta, .absoluteY, 5⟩, ⟨.txs, .implied, 2⟩, ill,
   ill, ⟨.sta, .absoluteX, 5⟩, ill, ill]

/-- Opcodes 0xA0 to 0xAF (R350, row Ax). -/
def opcodeRowA : List Descriptor :=
  [⟨.ldy, .immediate, 2⟩, ⟨.lda, .indexedIndirectX, 6⟩, ⟨.ldx, .immediate, 2⟩, ill,
   ⟨.ldy, .zeropage, 3⟩, ⟨.lda, .zeropage, 3⟩, ⟨.ldx, .zeropage, 3⟩, ill,
   ⟨.tay, .implied, 2⟩, ⟨.lda, .immediate, 2⟩, ⟨.tax, .implied, 2⟩, ill,
   ⟨.ldy, .absolute, 4⟩, ⟨.lda, .absolute, 4⟩, ⟨.ldx, .absolute, 4⟩, ill]

/-- Opcodes 0xB0 to 0xBF (R350, row Bx). -/
def opcodeRowB : List Descriptor :=
  [⟨.bcs, .relative, 2⟩, ⟨.lda, .indirectIndexedY, 5⟩, ill, ill,
   ⟨.ldy, .zeropageX, 4⟩, ⟨.lda, .zeropageX, 4⟩, ⟨.ldx, .zeropageY, 4⟩, ill,
   ⟨.clv, .implied, 2⟩, ⟨.lda, .absoluteY, 4⟩, ⟨.tsx, .implied, 2⟩, ill,
   ⟨.ldy, .absoluteX, 4⟩, ⟨.lda, .absoluteX, 4⟩, ⟨.ldx, .absoluteY, 4⟩, ill]

/-- Opcodes 0xC0 to 0xCF (R350, row Cx). -/
def opcodeRowC : List Descriptor :=
  [⟨.cpy, .immediate, 2⟩, ⟨.cmp, .indexedIndirectX, 6⟩, ill, ill,
   ⟨.cpy, .zeropage, 3⟩, ⟨.cmp, .zeropage, 3⟩, ⟨.dec, .zeropage, 5⟩, ill,
   ⟨.iny, .implied, 2⟩, ⟨.cmp, .immediate, 2⟩, ⟨.dex, .implied, 2⟩, ill,
   ⟨.cpy, .absolute, 4⟩, ⟨.cmp, .absolute, 4⟩, ⟨.dec, .absolute, 6⟩, ill]

/-- Opcodes 0xD0 to 0xDF (R350, row Dx). -/
def opcodeRowD : List Descriptor :=
  [⟨.bne, .relative, 2⟩, ⟨.cmp, .indirectIndexedY, 5⟩, ill, ill,
   ill, ⟨.cmp, .zeropageX, 4⟩, ⟨.dec, .zeropageX, 6⟩, ill,
   ⟨.cld, .implied, 2⟩, ⟨.cmp, .absoluteY, 4⟩, ill, ill,
   ill, ⟨.cmp, .absoluteX, 4⟩, ⟨.dec, .absoluteX, 7⟩, ill]

/-- Opcodes 0xE0 to 0xEF (R350, row Ex). -/
def opcodeRowE : List Descriptor :=
  [⟨.cpx, .immediate, 2⟩, ⟨.sbc, .indexedIndirectX, 6⟩, ill, ill,
   ⟨.cpx, .zeropage, 3⟩, ⟨.sbc, .zeropage, 3⟩, ⟨.inc, .zeropage, 5⟩, ill,
   ⟨.inx, .implied, 2⟩, ⟨.sbc, .immediate, 2⟩, ⟨.nop, .implied, 2⟩, ill,
   ⟨.cpx, .absolute, 4⟩, ⟨.sbc, .absolute, 4⟩, ⟨.inc, .absolute, 6⟩, ill]

/-- Opcodes 0xF0 to 0xFF (R350, row Fx). -/
def opcodeRowF : List Descriptor :=
  [⟨.beq, .relative, 2⟩, ⟨.sbc, .indirectIndexedY, 5⟩, ill, ill,
   ill, ⟨.sbc, .zeropageX, 4⟩, ⟨.inc, .zeropageX, 6⟩, ill,
   ⟨.sed, .implied, 2⟩, ⟨.sbc, .absoluteY, 4⟩, ill, ill,
   ill, ⟨.sbc, .absoluteX, 4⟩, ⟨.inc, .absoluteX, 7⟩, ill]

/-- The 256-entry descriptor table in opcode order (R302, R350). -/
def opcodeMap : List Descriptor :=
  opcodeRow0 ++ opcodeRow1 ++ opcodeRow2 ++ opcodeRow3 ++ opcodeRow4 ++ opcodeRow5 ++ opcodeRow6 ++ opcodeRow7 ++
  opcodeRow8 ++ opcodeRow9 ++ opcodeRowA ++ opcodeRowB ++ opcodeRowC ++ opcodeRowD ++ opcodeRowE ++ opcodeRowF

/-- `DESCRIPTOR[opcode]` (R302). The table has 256 entries, so the default is never taken. -/
def descriptor (op : Byte) : Descriptor := opcodeMap.getD op.toNat ill

/-! ## Decoding -/

/-- The number of operand bytes of a mode (R301). -/
def Mode.operandBytes : Mode → Nat
  | .implied => 0
  | .immediate | .zeropage | .zeropageX | .zeropageY | .relative | .indexedIndirectX | .indirectIndexedY => 1
  | .absolute | .absoluteX | .absoluteY | .indirect => 2

/-- How many bytes follow an opcode byte (R301). -/
def operandCount (op : Byte) : Nat := (descriptor op).mode.operandBytes

/-- The memory operand of a mode, `lo` and `hi` being bytes 1 and 2 (R300). The modes that are no memory mode
are given with no memory instruction by the table. -/
def memOf (mode : Mode) (lo hi : Byte) : Mem :=
  match mode with
  | .zeropageX => .zpX lo
  | .zeropageY => .zpY lo
  | .absolute => .abs (hiLo hi lo)
  | .absoluteX => .absX (hiLo hi lo)
  | .absoluteY => .absY (hiLo hi lo)
  | .indexedIndirectX => .indX lo
  | .indirectIndexedY => .indY lo
  | .zeropage | .implied | .immediate | .relative | .indirect => .zp lo

/-- The operand of a reading instruction. -/
def srcOf (mode : Mode) (lo hi : Byte) : Src :=
  match mode with
  | .immediate => .imm lo
  | m => .mem (memOf m lo hi)

/-- The operand of a shift or a rotate: the implied mode is the accumulator (R320). -/
def rmwOf (mode : Mode) (lo hi : Byte) : Rmw :=
  match mode with
  | .implied => .acc
  | m => .mem (memOf m lo hi)

/-- The operand of JMP. -/
def jmpOf (mode : Mode) (lo hi : Byte) : JmpTarget :=
  match mode with
  | .indirect => .ind (hiLo hi lo)
  | _ => .abs (hiLo hi lo)

/-- The instruction of an opcode byte with bytes 1 and 2 (those of them that its length includes). Total:
every opcode byte selects exactly one instruction (R302). -/
def instrOf (op lo hi : Byte) : Instr :=
  let d := descriptor op
  match d.op with
  | .lda => .lda (srcOf d.mode lo hi)
  | .ldx => .ldx (srcOf d.mode lo hi)
  | .ldy => .ldy (srcOf d.mode lo hi)
  | .sta => .sta (memOf d.mode lo hi)
  | .stx => .stx (memOf d.mode lo hi)
  | .sty => .sty (memOf d.mode lo hi)
  | .tax => .tax
  | .tay => .tay
  | .txa => .txa
  | .tya => .tya
  | .tsx => .tsx
  | .txs => .txs
  | .pha => .pha
  | .php => .php
  | .pla => .pla
  | .plp => .plp
  | .adc => .adc (srcOf d.mode lo hi)
  | .sbc => .sbc (srcOf d.mode lo hi)
  | .cmp => .cmp (srcOf d.mode lo hi)
  | .cpx => .cpx (srcOf d.mode lo hi)
  | .cpy => .cpy (srcOf d.mode lo hi)
  | .inc => .inc (memOf d.mode lo hi)
  | .inx => .inx
  | .iny => .iny
  | .dec => .dec (memOf d.mode lo hi)
  | .dex => .dex
  | .dey => .dey
  | .and => .and (srcOf d.mode lo hi)
  | .ora => .ora (srcOf d.mode lo hi)
  | .eor => .eor (srcOf d.mode lo hi)
  | .bit => .bit (memOf d.mode lo hi)
  | .asl => .asl (rmwOf d.mode lo hi)
  | .lsr => .lsr (rmwOf d.mode lo hi)
  | .rol => .rol (rmwOf d.mode lo hi)
  | .ror => .ror (rmwOf d.mode lo hi)
  | .jmp => .jmp (jmpOf d.mode lo hi)
  | .jsr => .jsr (hiLo hi lo)
  | .rts => .rts
  | .rti => .rti
  | .brk => .brk
  | .bcc => .bcc lo
  | .bcs => .bcs lo
  | .beq => .beq lo
  | .bmi => .bmi lo
  | .bne => .bne lo
  | .bpl => .bpl lo
  | .bvc => .bvc lo
  | .bvs => .bvs lo
  | .clc => .clc
  | .sec => .sec
  | .cli => .cli
  | .sei => .sei
  | .cld => .cld
  | .sed => .sed
  | .clv => .clv
  | .nop => .nop
  | .illegal => .illegal op

/-- Why a list of bytes holds no whole instruction. No opcode byte is refused (R302, R391). -/
inductive DecodeError where
  /-- There is no byte at all. -/
  | empty
  /-- Fewer operand bytes follow than the opcode's mode takes. -/
  | truncated (op : Byte)
  deriving DecidableEq, Repr

/-- Reads one instruction from the front of a list of bytes and answers the bytes after it (R301). -/
def decode : List Byte → Except DecodeError (Instr × List Byte)
  | [] => .error .empty
  | op :: rest =>
    match operandCount op, rest with
    | 0, rest => .ok (instrOf op 0 0, rest)
    | 1, lo :: rest => .ok (instrOf op lo 0, rest)
    | 2, lo :: hi :: rest => .ok (instrOf op lo hi, rest)
    | _, _ => .error (.truncated op)

/-- The first three bytes of an instruction whose `nbits` table bits are `w`: bit 0 is the least significant
bit of byte 0, the bits above `nbits` are 0, and three bytes is the longest instruction (R300). -/
def tableBytes (nbits w : Nat) : List Byte :=
  let v := w % 2 ^ nbits
  [BitVec.ofNat 8 v, BitVec.ofNat 8 (v / 256), BitVec.ofNat 8 (v / 65536)]

/-- The instruction the decoder reads from an instruction whose table bits are `w`. -/
def decodeTableWord (nbits w : Nat) : Option Instr :=
  match decode (tableBytes nbits w) with
  | .ok (i, _) => some i
  | .error _ => none

/-! ## Encoding -/

/-- The opcode byte of an operand of ADC AND CMP EOR LDA ORA SBC, the eight bytes in the order the
instructions' rules list them (R401, R501 to R503, R551 to R553). -/
def aluOpcode (imm zp zpX abs absX absY indX indY : Byte) : Src → Option Byte
  | .imm _ => some imm
  | .mem (.zp _) => some zp
  | .mem (.zpX _) => some zpX
  | .mem (.zpY _) => none
  | .mem (.abs _) => some abs
  | .mem (.absX _) => some absX
  | .mem (.absY _) => some absY
  | .mem (.indX _) => some indX
  | .mem (.indY _) => some indY

/-- The opcode byte of a read-modify-write memory operand (R506, R509, R555 to R558). -/
def rmwOpcode (zp zpX abs absX : Byte) : Mem → Option Byte
  | .zp _ => some zp
  | .zpX _ => some zpX
  | .abs _ => some abs
  | .absX _ => some absX
  | _ => none

/-- The opcode byte of a shift's or a rotate's operand (R555 to R558). -/
def shiftOpcode (acc zp zpX abs absX : Byte) : Rmw → Option Byte
  | .acc => some acc
  | .mem m => rmwOpcode zp zpX abs absX m

/-- The opcode byte of an operand of CPX or CPY (R504, R505). -/
def cpxOpcode (imm zp abs : Byte) : Src → Option Byte
  | .imm _ => some imm
  | .mem (.zp _) => some zp
  | .mem (.abs _) => some abs
  | _ => none

/-- The opcode byte of LDX's operand (R402). -/
def ldxOpcode : Src → Option Byte
  | .imm _ => some 0xA2
  | .mem (.zp _) => some 0xA6
  | .mem (.zpY _) => some 0xB6
  | .mem (.abs _) => some 0xAE
  | .mem (.absY _) => some 0xBE
  | _ => none

/-- The opcode byte of LDY's operand (R403). -/
def ldyOpcode : Src → Option Byte
  | .imm _ => some 0xA0
  | .mem (.zp _) => some 0xA4
  | .mem (.zpX _) => some 0xB4
  | .mem (.abs _) => some 0xAC
  | .mem (.absX _) => some 0xBC
  | _ => none

/-- The opcode byte of STA's operand (R404). -/
def staOpcode : Mem → Option Byte
  | .zp _ => some 0x85
  | .zpX _ => some 0x95
  | .zpY _ => none
  | .abs _ => some 0x8D
  | .absX _ => some 0x9D
  | .absY _ => some 0x99
  | .indX _ => some 0x81
  | .indY _ => some 0x91

/-- The opcode byte of STX's operand (R405). -/
def stxOpcode : Mem → Option Byte
  | .zp _ => some 0x86
  | .zpY _ => some 0x96
  | .abs _ => some 0x8E
  | _ => none

/-- The opcode byte of STY's operand (R406). -/
def styOpcode : Mem → Option Byte
  | .zp _ => some 0x84
  | .zpX _ => some 0x94
  | .abs _ => some 0x8C
  | _ => none

/-- The opcode byte of BIT's operand (R554). -/
def bitOpcode : Mem → Option Byte
  | .zp _ => some 0x24
  | .abs _ => some 0x2C
  | _ => none

/-- The opcode byte of JMP's operand (R601). -/
def jmpOpcode : JmpTarget → Byte
  | .abs _ => 0x4C
  | .ind _ => 0x6C

/-- The opcode byte of an instruction, as its own rule gives it; none for a form the map does not hold. -/
def Instr.opcode : Instr → Option Byte
  | .lda o => aluOpcode 0xA9 0xA5 0xB5 0xAD 0xBD 0xB9 0xA1 0xB1 o
  | .ldx o => ldxOpcode o
  | .ldy o => ldyOpcode o
  | .sta m => staOpcode m
  | .stx m => stxOpcode m
  | .sty m => styOpcode m
  | .tax => some 0xAA
  | .tay => some 0xA8
  | .txa => some 0x8A
  | .tya => some 0x98
  | .tsx => some 0xBA
  | .txs => some 0x9A
  | .pha => some 0x48
  | .php => some 0x08
  | .pla => some 0x68
  | .plp => some 0x28
  | .adc o => aluOpcode 0x69 0x65 0x75 0x6D 0x7D 0x79 0x61 0x71 o
  | .sbc o => aluOpcode 0xE9 0xE5 0xF5 0xED 0xFD 0xF9 0xE1 0xF1 o
  | .cmp o => aluOpcode 0xC9 0xC5 0xD5 0xCD 0xDD 0xD9 0xC1 0xD1 o
  | .cpx o => cpxOpcode 0xE0 0xE4 0xEC o
  | .cpy o => cpxOpcode 0xC0 0xC4 0xCC o
  | .inc m => rmwOpcode 0xE6 0xF6 0xEE 0xFE m
  | .inx => some 0xE8
  | .iny => some 0xC8
  | .dec m => rmwOpcode 0xC6 0xD6 0xCE 0xDE m
  | .dex => some 0xCA
  | .dey => some 0x88
  | .and o => aluOpcode 0x29 0x25 0x35 0x2D 0x3D 0x39 0x21 0x31 o
  | .ora o => aluOpcode 0x09 0x05 0x15 0x0D 0x1D 0x19 0x01 0x11 o
  | .eor o => aluOpcode 0x49 0x45 0x55 0x4D 0x5D 0x59 0x41 0x51 o
  | .bit m => bitOpcode m
  | .asl o => shiftOpcode 0x0A 0x06 0x16 0x0E 0x1E o
  | .lsr o => shiftOpcode 0x4A 0x46 0x56 0x4E 0x5E o
  | .rol o => shiftOpcode 0x2A 0x26 0x36 0x2E 0x3E o
  | .ror o => shiftOpcode 0x6A 0x66 0x76 0x6E 0x7E o
  | .jmp t => some (jmpOpcode t)
  | .jsr _ => some 0x20
  | .rts => some 0x60
  | .rti => some 0x40
  | .brk => some 0x00
  | .bcc _ => some 0x90
  | .bcs _ => some 0xB0
  | .beq _ => some 0xF0
  | .bmi _ => some 0x30
  | .bne _ => some 0xD0
  | .bpl _ => some 0x10
  | .bvc _ => some 0x50
  | .bvs _ => some 0x70
  | .clc => some 0x18
  | .sec => some 0x38
  | .cli => some 0x58
  | .sei => some 0x78
  | .cld => some 0xD8
  | .sed => some 0xF8
  | .clv => some 0xB8
  | .nop => some 0xEA
  | .illegal op => some op

/-- A 16-bit operand as bytes 1 and 2: low byte first (R207, R300). -/
def wordBytes (w : Word) : List Byte := [loByte w, hiByte w]

/-- The operand bytes of a memory operand. -/
def Mem.bytes : Mem → List Byte
  | .zp a | .zpX a | .zpY a | .indX a | .indY a => [a]
  | .abs a | .absX a | .absY a => wordBytes a

/-- The operand bytes of a reading instruction. -/
def Src.bytes : Src → List Byte
  | .imm b => [b]
  | .mem m => m.bytes

/-- The operand bytes of a shift or a rotate. -/
def Rmw.bytes : Rmw → List Byte
  | .acc => []
  | .mem m => m.bytes

/-- The operand bytes of an instruction (R300). -/
def Instr.operandBytes : Instr → List Byte
  | .lda o | .ldx o | .ldy o | .adc o | .sbc o | .cmp o | .cpx o | .cpy o | .and o | .ora o | .eor o => o.bytes
  | .sta m | .stx m | .sty m | .bit m | .inc m | .dec m => m.bytes
  | .asl o | .lsr o | .rol o | .ror o => o.bytes
  | .jmp (.abs a) | .jmp (.ind a) | .jsr a => wordBytes a
  | .bcc off | .bcs off | .beq off | .bmi off | .bne off | .bpl off | .bvc off | .bvs off => [off]
  | .tax | .tay | .txa | .tya | .tsx | .txs | .pha | .php | .pla | .plp
  | .inx | .iny | .dex | .dey | .rts | .rti | .brk
  | .clc | .sec | .cli | .sei | .cld | .sed | .clv | .nop | .illegal _ => []

/-- The bytes of an instruction (R300); none for a form the map does not hold. -/
def encode (i : Instr) : List Byte :=
  match i.opcode with
  | some op => op :: i.operandBytes
  | none => []

/-! ## The cycle count's two table columns -/

/-- `base(opcode)` of R340 under the parameters `q`: the count the map gives the instruction's opcode;
`ILLEGAL_CYCLES` of the byte for the illegal no-op (R390). A form the map does not hold is never decoded and
counts 0. -/
def Instr.baseCycles (q : Params) (i : Instr) : Nat :=
  match i, i.opcode with
  | .illegal op, _ => q.illegalCount op
  | _, some op => (descriptor op).base
  | _, none => 0

/-- `op_extra(opcode)`: 1 exactly for ADC, AND, CMP, EOR, LDA, LDX, LDY, ORA and SBC (R341). -/
def Instr.opExtra : Instr → Bool
  | .adc _ | .and _ | .cmp _ | .eor _ | .lda _ | .ldx _ | .ldy _ | .ora _ | .sbc _ => true
  | _ => false

end Sys2Proof
end

