-- ==== Sys2Proof/Machine/State.lean ====
section
/-! DEFINITION. The state of the machine as plain data (spec/10, spec/61 R801, spec/62 R901, spec/63 R1001,
R1020, R1030, R1040 to R1044), the fault and refusal reasons, and the state after reset (spec/70 R1100). -/

namespace Sys2Proof.Machine

/-- Why the machine stops with a fault. EMPTY: nothing in this design faults (spec/00 R15, spec/20 R210,
spec/60 R730, spec/93), so nothing raises one, which is safe: the type says that it cannot happen. -/
inductive Fault where
  deriving DecidableEq, Repr

/-- Why the model declines to go on. -/
inductive Refusal where
  /-- Raised by the arm of an instruction that has no meaning yet; no arm is in that state. Safe. -/
  | notModelled (mnemonic : String)
  /-- Raised by `loadCartridge` for a cartridge whose mapper is neither 0 nor 1: "cartridge invalid", before
  any step (spec/63 R1045). No step raises it. Safe: no step of such a machine exists. -/
  | cartridgeInvalid (mapperId : Nat)
  deriving DecidableEq, Repr

/-- The CPU: its registers (spec/10 R100 to R106) and its internal state (R110). -/
structure Cpu where
  /-- The accumulator. -/
  a : Byte
  /-- The index register X. -/
  x : Byte
  /-- The index register Y. -/
  y : Byte
  /-- The stack pointer: the low byte of the next free location of page 1 (R102). -/
  sp : Byte
  /-- The program counter (R103). -/
  pc : Word
  /-- The status register: C Z I D B U V N in bits 0 to 7 (R105). -/
  p : Byte
  /-- The remaining-cycle counter; 0 between instructions (R110, spec/60 R702). -/
  cycles : Nat
  /-- The opcode byte of the instruction being executed, a transient latch (R110; notes/assumptions/9.md). -/
  opcode : Byte
  /-- The shared "effective address", a transient latch (R110; notes/assumptions/9.md). -/
  ea : Word
  /-- The shared "operand value", a transient latch (R110; notes/assumptions/9.md). -/
  m : Byte
  /-- The addressing mode's extra-cycle hint, a transient latch (R110; notes/assumptions/9.md). -/
  modeExtra : Bool
  /-- The operation's extra-cycle hint, a transient latch (R110; notes/assumptions/9.md). -/
  opExtra : Bool
  /-- The MODEL's own counter: how many draws the transient latches have taken (notes/assumptions/9.md). -/
  latchDraws : Nat
  deriving DecidableEq, Repr

/-- One of the eight sprite slots of the PPU: a secondary-OAM entry `sec[i]` with its pattern shift registers
`sp_lo[i]`, `sp_hi[i]` (spec/61 R801). -/
structure SpriteSlot where
  y : Byte
  tile : Byte
  attr : Byte
  /-- The x position; also the x-delay counter. -/
  x : Byte
  patLo : Byte
  patHi : Byte
  deriving DecidableEq, Repr

/-- A slot that holds no sprite: secondary OAM 0xFF, shift registers 0, as an evaluation leaves it (spec/61 R850).
That the slots are so after a reset too is R801's table; spec/70 R1100 step 2 says "sprite slots 0" (DESIGN CHOICE,
notes/assumptions/19.md). -/
abbrev SpriteSlot.none : SpriteSlot := ⟨0xFF, 0xFF, 0xFF, 0xFF, 0x00, 0x00⟩

/-- The PPU (spec/61 R801). -/
structure Ppu where
  /-- The line: -1 (pre-render) to 260. -/
  scanline : Int
  /-- The dot: 0 to 340. -/
  dot : Nat
  /-- The current VRAM address (R820). -/
  v : BitVec 15
  /-- The temporary VRAM address. -/
  t : BitVec 15
  /-- The fine-x scroll `x`. -/
  fineX : BitVec 3
  /-- The write toggle. -/
  w : Bool
  /-- PPUDATA's read buffer. -/
  readBuffer : Byte
  /-- PPUCTRL (R812). -/
  ctrl : Byte
  /-- PPUMASK (R813). -/
  mask : Byte
  /-- PPUSTATUS (R814): bits 7 to 5; bits 4 to 0 are always 0. -/
  status : Byte
  /-- OAMADDR (R815). -/
  oamAddr : Byte
  /-- Object attribute memory, 256 bytes (R881). -/
  oam : Cells 8
  /-- Palette RAM, 32 cells of 6 bits (R832). -/
  palette : Cells 6
  /-- Nametable RAM: bank `b`, offset `o` is cell `b * 1024 + o` (R831). -/
  nt : Cells 8
  nextTile : Byte
  nextAttr : BitVec 2
  nextLo : Byte
  nextHi : Byte
  shPatLo : Word
  shPatHi : Word
  shAttrLo : Word
  shAttrHi : Word
  /-- The eight sprite slots: `sec`, `sp_lo`, `sp_hi`. -/
  slots : List SpriteSlot
  /-- How many slots hold a sprite, 0 to 8. -/
  spriteCount : Nat
  spriteZeroPossible : Bool
  /-- The frame buffer: pixel `scanline * 256 + column` (R864). -/
  frame : Cells 32
  /-- The frame-done flag to the host (R874). -/
  frameComplete : Bool
  deriving DecidableEq, Repr

/-- An envelope unit (spec/62 R901, R930). -/
structure Envelope where
  start : Bool
  div : BitVec 4
  decay : BitVec 4
  deriving DecidableEq, Repr

/-- A pulse channel (spec/62 R901). -/
structure Pulse where
  duty : BitVec 2
  /-- Length-counter halt, and envelope loop. -/
  halt : Bool
  constVol : Bool
  vol : BitVec 4
  swEnable : Bool
  swPeriod : BitVec 3
  swNegate : Bool
  swShift : BitVec 3
  swReload : Bool
  swDiv : BitVec 3
  period : BitVec 11
  timer : BitVec 11
  /-- The duty position, 0 to 7. -/
  seq : BitVec 3
  /-- The length counter, 0 to 254. -/
  length : Byte
  env : Envelope
  deriving DecidableEq, Repr

/-- The triangle channel (spec/62 R901). -/
structure Triangle where
  /-- Length-counter halt, and linear-counter control. -/
  control : Bool
  linReloadVal : BitVec 7
  linCounter : BitVec 7
  linReloadFlag : Bool
  period : BitVec 11
  timer : BitVec 11
  /-- The sequence position, 0 to 31. -/
  seq : BitVec 5
  length : Byte
  deriving DecidableEq, Repr

/-- The noise channel (spec/62 R901). -/
structure Noise where
  halt : Bool
  constVol : Bool
  vol : BitVec 4
  mode : Bool
  periodIdx : BitVec 4
  timer : BitVec 12
  /-- The 15-bit shift register. -/
  lfsr : BitVec 15
  length : Byte
  env : Envelope
  deriving DecidableEq, Repr

/-- The delta-modulation channel's output unit (spec/62 R901). -/
structure Dmc where
  irqEnable : Bool
  loop : Bool
  rateIdx : BitVec 4
  /-- The output level, 0 to 127. -/
  level : BitVec 7
  sampleAddr : Byte
  sampleLen : Byte
  timer : BitVec 9
  shift : Byte
  /-- 1 to 8. -/
  bitsLeft : Nat
  silence : Bool
  deriving DecidableEq, Repr

/-- The APU (spec/62 R901). -/
structure Apu where
  pulse1 : Pulse
  pulse2 : Pulse
  triangle : Triangle
  noise : Noise
  dmc : Dmc
  enPulse1 : Bool
  enPulse2 : Bool
  enTriangle : Bool
  enNoise : Bool
  enDmc : Bool
  /-- The frame-sequencer counter, 0 to 18640. -/
  fc : Nat
  /-- false = 4-step, true = 5-step. -/
  fcMode : Bool
  fcInhibit : Bool
  frameIrq : Bool
  /-- The `APU_FRAME_DIV` prescaler. -/
  fcPhase : Nat
  deriving DecidableEq, Repr

/-- The OAM-DMA coordinator (spec/63 R1020). -/
structure Dma where
  active : Bool
  dummy : Bool
  page : Byte
  addr : Byte
  data : Byte
  deriving DecidableEq, Repr

/-- The controller ports and the host-owned button states (spec/63 R1030). -/
structure Ports where
  strobe : Bool
  shift0 : Byte
  shift1 : Byte
  host0 : Byte
  host1 : Byte
  deriving DecidableEq, Repr

/-- A nametable mirroring mode (spec/61 R831, spec/63 R1040). -/
inductive Mirroring where
  | vertical
  | horizontal
  | singleLow
  | singleHigh
  deriving DecidableEq, Repr

/-- A mapper-0 cartridge (spec/63 R1041). -/
structure Mapper0 where
  /-- The number of 16 KB PRG banks. -/
  prgBanks : Nat
  prg : Cells 8
  chr : Cells 8
  mirroring : Mirroring
  deriving DecidableEq, Repr

/-- A mapper-1 cartridge (spec/63 R1042 to R1044). -/
structure Mapper1 where
  /-- The number of 16 KB PRG banks. -/
  prgBanks : Nat
  prg : Cells 8
  /-- The number of 8 KB CHR ROM banks; 0 means 8 KB of CHR RAM. -/
  chrBanks : Nat
  chr : Cells 8
  /-- The 8 KB PRG-RAM. -/
  prgRam : Cells 8
  /-- The 5-bit serial shift register. -/
  sr : BitVec 5
  /-- The number of bits shifted in, 0 to 4. -/
  srCount : Nat
  control : BitVec 5
  chr0 : BitVec 5
  chr1 : BitVec 5
  prgBank : BitVec 5
  deriving DecidableEq, Repr

/-- The parameter `Cart` as plain data (spec/63 R1040): no cartridge, which claims no address and whose
mirroring mode is given, or a cartridge of one of the two mappers (notes/assumptions/6.md). -/
inductive Cart where
  | empty (mirroring : Mirroring)
  | fixed (m : Mapper0)
  | serial (m : Mapper1)
  deriving DecidableEq, Repr

/-- The whole machine. -/
structure State where
  /-- The parameters the model takes as an argument (spec/00 R10): which machine this is. Nothing changes them
  (notes/assumptions/8.md). -/
  params : Params
  cpu : Cpu
  /-- The 2 KB of CPU RAM (spec/20 R203). -/
  ram : Cells 8
  ppu : Ppu
  apu : Apu
  dma : Dma
  ports : Ports
  cart : Cart
  /-- The NMI latch (spec/60 R710). -/
  nmiPending : Bool
  /-- The level of the IRQ input, driven by the environment (spec/60 R715; notes/assumptions/5.md). -/
  irqLine : Bool
  /-- One per master tick (spec/63 R1001). -/
  masterTick : Nat
  /-- One per CPU-domain step (spec/63 R1001). -/
  cpuCycle : Nat
  deriving DecidableEq, Repr

/-! ## Reset values (spec/70 R1100) -/

/-- The CPU after reset (R1100 step 5). The pc is `Read16(0xFFFC)` with no cartridge inserted, 0x0000
(R1103). The transient latches are 0 (notes/assumptions/9.md). -/
def Cpu.reset (q : Params) : Cpu where
  a := 0x00
  x := 0x00
  y := 0x00
  sp := 0xFD
  pc := 0x0000
  p := 0x24
  cycles := q.resetCycles
  opcode := 0x00
  ea := 0x0000
  m := 0x00
  modeExtra := false
  opExtra := false
  latchDraws := 0

/-- The PPU after power-on (R801, R1100 step 2), its memories and its frame not yet written. Secondary OAM is 0xFF
(DESIGN CHOICE, notes/assumptions/19.md). -/
def Ppu.reset : Ppu where
  scanline := -1
  dot := 0
  v := 0
  t := 0
  fineX := 0
  w := false
  readBuffer := 0x00
  ctrl := 0x00
  mask := 0x00
  status := 0x00
  oamAddr := 0x00
  oam := []
  palette := []
  nt := []
  nextTile := 0x00
  nextAttr := 0
  nextLo := 0x00
  nextHi := 0x00
  shPatLo := 0x0000
  shPatHi := 0x0000
  shAttrLo := 0x0000
  shAttrHi := 0x0000
  slots := List.replicate 8 SpriteSlot.none
  spriteCount := 0
  spriteZeroPossible := false
  frame := []
  frameComplete := false

/-- An envelope after reset (R901). -/
def Envelope.reset : Envelope := ⟨false, 0, 0⟩

/-- A pulse channel after reset (R901). -/
def Pulse.reset : Pulse where
  duty := 0
  halt := false
  constVol := false
  vol := 0
  swEnable := false
  swPeriod := 0
  swNegate := false
  swShift := 0
  swReload := false
  swDiv := 0
  period := 0
  timer := 0
  seq := 0
  length := 0
  env := Envelope.reset

/-- The triangle channel after reset (R901). -/
def Triangle.reset : Triangle where
  control := false
  linReloadVal := 0
  linCounter := 0
  linReloadFlag := false
  period := 0
  timer := 0
  seq := 0
  length := 0

/-- The noise channel after reset (R901): the shift register holds 1. -/
def Noise.reset : Noise where
  halt := false
  constVol := false
  vol := 0
  mode := false
  periodIdx := 0
  timer := 0
  lfsr := 1
  length := 0
  env := Envelope.reset

/-- The DMC after reset (R901): 8 bits left, silent. -/
def Dmc.reset : Dmc where
  irqEnable := false
  loop := false
  rateIdx := 0
  level := 0
  sampleAddr := 0x00
  sampleLen := 0x00
  timer := 0
  shift := 0x00
  bitsLeft := 8
  silence := true

/-- The APU after reset (R901). -/
def Apu.reset : Apu where
  pulse1 := Pulse.reset
  pulse2 := Pulse.reset
  triangle := Triangle.reset
  noise := Noise.reset
  dmc := Dmc.reset
  enPulse1 := false
  enPulse2 := false
  enTriangle := false
  enNoise := false
  enDmc := false
  fc := 0
  fcMode := false
  fcInhibit := false
  frameIrq := false
  fcPhase := 0

/-- The DMA coordinator after reset (R1020, R1100 step 4). -/
def Dma.reset : Dma := ⟨false, true, 0x00, 0x00, 0x00⟩

/-- The controller ports at power-on (R1030, R1100 step 4), nothing pressed (notes/assumptions/10.md). -/
def Ports.reset : Ports := ⟨false, 0x00, 0x00, 0x00, 0x00⟩

/-- The machine with parameters `q` right after power-on and reset, with no cartridge inserted and every memory
still holding its power-on draw (R1100, R1101; notes/assumptions/2.md, 6.md, 7.md). -/
def State.powerOn (q : Params) : State where
  params := q
  cpu := Cpu.reset q
  ram := []
  ppu := Ppu.reset
  apu := Apu.reset
  dma := Dma.reset
  ports := Ports.reset
  cart := .empty .horizontal
  nmiPending := false
  irqLine := false
  masterTick := 0
  cpuCycle := 0

/-- `State.powerOn` at R10's defaults (notes/assumptions/8.md). -/
def State.reset : State := State.powerOn Params.default

end Sys2Proof.Machine
end

