-- ==== Sys2Proof/Machine/Apu.lean ====
section
/-! DEFINITION. The APU's channel units, its registers (spec/62 R902 to R911), its clock (R915 to R956) and
its mixer (R970). -/

namespace Sys2Proof.Machine

/-! ## Channel building blocks (R930 to R933) -/

/-- `LENGTH_TABLE` (R932). -/
def lengthTable : List Nat :=
  [10, 254, 20, 2, 40, 4, 80, 6, 160, 8, 60, 10, 14, 12, 26, 14] ++
  [12, 16, 24, 18, 48, 20, 96, 22, 192, 24, 72, 26, 16, 28, 32, 30]

/-- The length a write of `d` to a channel's fourth register loads: `LENGTH_TABLE[d[7:3]]`. -/
def lengthLoad (d : Byte) : Byte := BitVec.ofNat 8 (lengthTable.getD (d.toNat / 8) 0)

/-- The envelope's quarter-frame clock (R930). -/
def envelopeClock (vol : BitVec 4) (halt : Bool) (e : Envelope) : Envelope :=
  if e.start then ⟨false, vol, 15⟩
  else if e.div = 0 then
    { e with div := vol, decay := if e.decay ≠ 0 then e.decay - 1 else if halt then 15 else e.decay }
  else { e with div := e.div - 1 }

/-- `volume_out` (R930). -/
def volumeOut (constVol : Bool) (vol : BitVec 4) (e : Envelope) : BitVec 4 := if constVol then vol else e.decay

/-- The length counter's half-frame clock (R931). -/
def lengthClock (halt : Bool) (length : Byte) : Byte :=
  if length ≠ 0 ∧ halt = false then length - 1 else length

/-! ## Pulse channels (R933 to R940) -/

/-- `Muted()`: the period is below 8 or at least 0x7FF (R933, R940). -/
def pulseMuted (period : BitVec 11) : Bool := decide (period.toNat < 8) || decide (0x7FF ≤ period.toNat)

/-- The sweep's target period, an exact integer; pulse 1 subtracts one more (R933). -/
def sweepTarget (pulseOne : Bool) (p : Pulse) : Int :=
  let change : Int := ((p.period >>> p.swShift.toNat).toNat : Int)
  if p.swNegate then (p.period.toNat : Int) - change - (if pulseOne then 1 else 0)
  else (p.period.toNat : Int) + change

/-- The sweep's half-frame clock (R933). -/
def sweepClock (pulseOne : Bool) (p : Pulse) : Pulse :=
  let target := sweepTarget pulseOne p
  let p' :=
    if p.swDiv = 0 ∧ p.swEnable = true ∧ p.swShift ≠ 0 ∧ pulseMuted p.period = false ∧ target ≤ 0x7FF then
      { p with period := BitVec.ofInt 11 target }
    else p
  if p.swDiv = 0 ∨ p.swReload = true then { p' with swDiv := p.swPeriod, swReload := false }
  else { p' with swDiv := p.swDiv - 1 }

/-- The pulse timer's clock (R934). -/
def pulseTimer (p : Pulse) : Pulse :=
  if p.timer = 0 then { p with timer := p.period, seq := p.seq + 1 } else { p with timer := p.timer - 1 }

/-- `DUTY[duty]`, eight steps each (R935). -/
def dutyTable : List (List Bool) :=
  [[false, true, false, false, false, false, false, false],
   [false, true, true, false, false, false, false, false],
   [false, true, true, true, true, false, false, false],
   [true, false, false, true, true, true, true, true]]

/-- `DUTY[duty][seq]` (R935). -/
def dutyBit (duty : BitVec 2) (seq : BitVec 3) : Bool := (dutyTable.getD duty.toNat []).getD seq.toNat false

/-- The pulse output, 0 to 15 (R940). -/
def pulseOut (p : Pulse) : BitVec 4 :=
  if p.length ≠ 0 ∧ pulseMuted p.period = false ∧ dutyBit p.duty p.seq = true then volumeOut p.constVol p.vol p.env
  else 0

/-! ## Triangle channel (R945 to R947) -/

/-- The linear counter's quarter-frame clock (R945). -/
def linearClock (c : Triangle) : Triangle :=
  { c with
    linCounter := if c.linReloadFlag then c.linReloadVal else if c.linCounter ≠ 0 then c.linCounter - 1 else 0
    linReloadFlag := if c.control then c.linReloadFlag else false }

/-- The triangle timer's clock (R946). -/
def triangleTimer (c : Triangle) : Triangle :=
  if c.timer = 0 then
    { c with timer := c.period, seq := if c.length ≠ 0 ∧ c.linCounter ≠ 0 then c.seq + 1 else c.seq }
  else { c with timer := c.timer - 1 }

/-- The triangle output `TRI[seq]`: 15 down to 0, then 0 up to 15 (R947). -/
def triangleOut (c : Triangle) : Nat := if c.seq.toNat < 16 then 15 - c.seq.toNat else c.seq.toNat - 16

/-! ## Noise channel (R950 to R952) -/

/-- `NOISE_PERIOD` (R950). -/
def noisePeriods : List Nat := [4, 8, 16, 32, 64, 96, 128, 160, 202, 254, 380, 508, 762, 1016, 2034, 4068]

/-- One shift of the noise register: bit 0 xor bit 6 (mode 1) or bit 1 (mode 0) enters bit 14 (R951). -/
def lfsrNext (mode : Bool) (r : BitVec 15) : BitVec 15 :=
  let fb := r.getLsbD 0 ^^ (if mode then r.getLsbD 6 else r.getLsbD 1)
  (r >>> 1) ||| (if fb then 0x4000 else 0)

/-- The noise timer's clock (R951). -/
def noiseTimer (c : Noise) : Noise :=
  if c.timer = 0 then
    { c with timer := BitVec.ofNat 12 (noisePeriods.getD c.periodIdx.toNat 0), lfsr := lfsrNext c.mode c.lfsr }
  else { c with timer := c.timer - 1 }

/-- The noise output, 0 to 15 (R952). -/
def noiseOut (c : Noise) : BitVec 4 :=
  if c.length ≠ 0 ∧ c.lfsr.getLsbD 0 = false then volumeOut c.constVol c.vol c.env else 0

/-! ## DMC channel (R955, R956) -/

/-- `DMC_RATE` (R955). -/
def dmcRates : List Nat := [428, 380, 340, 320, 286, 254, 226, 214, 190, 160, 142, 128, 106, 84, 72, 54]

/-- The output level after one bit: up or down by 2, saturating in 0 to 127 (R956). -/
def dmcLevel (bit : Bool) (level : BitVec 7) : BitVec 7 :=
  if bit then (if level.toNat ≤ 125 then level + 2 else level) else (if 2 ≤ level.toNat then level - 2 else level)

/-- The DMC output unit's clock (R956); no reader refills the sample buffer (D43). -/
def dmcTimer (c : Dmc) : Dmc :=
  if c.timer = 0 then
    let level := if c.silence then c.level else dmcLevel (c.shift.getLsbD 0) c.level
    let c := { c with timer := BitVec.ofNat 9 (dmcRates.getD c.rateIdx.toNat 0), level := level, shift := c.shift >>> 1 }
    if c.bitsLeft - 1 = 0 then { c with bitsLeft := 8, silence := true } else { c with bitsLeft := c.bitsLeft - 1 }
  else { c with timer := c.timer - 1 }

/-! ## The frame sequencer and the clock (R915 to R921) -/

/-- The quarter-frame clock `Q()`: the three envelopes and the linear counter (R921). -/
def quarterFrame (s : Apu) : Apu :=
  { s with
    pulse1 := { s.pulse1 with env := envelopeClock s.pulse1.vol s.pulse1.halt s.pulse1.env }
    pulse2 := { s.pulse2 with env := envelopeClock s.pulse2.vol s.pulse2.halt s.pulse2.env }
    noise := { s.noise with env := envelopeClock s.noise.vol s.noise.halt s.noise.env }
    triangle := linearClock s.triangle }

/-- A pulse channel's half-frame clock: length counter and sweep. -/
def pulseHalfFrame (pulseOne : Bool) (p : Pulse) : Pulse :=
  sweepClock pulseOne { p with length := lengthClock p.halt p.length }

/-- The half-frame clock `H()`: the four length counters and the two sweeps (R921). -/
def halfFrame (s : Apu) : Apu :=
  { s with
    pulse1 := pulseHalfFrame true s.pulse1
    pulse2 := pulseHalfFrame false s.pulse2
    triangle := { s.triangle with length := lengthClock s.triangle.control s.triangle.length }
    noise := { s.noise with length := lengthClock s.noise.halt s.noise.length } }

/-- The counted step of the sequencer in 4-step mode, `s.fc` already incremented (R920). -/
def fourStep (s : Apu) : Apu :=
  if s.fc = 3728 then quarterFrame s
  else if s.fc = 7456 then halfFrame (quarterFrame s)
  else if s.fc = 11185 then quarterFrame s
  else if s.fc = 14914 then
    let t := halfFrame (quarterFrame s)
    { t with frameIrq := if t.fcInhibit then t.frameIrq else true, fc := 0 }
  else s

/-- The counted step of the sequencer in 5-step mode (R920). -/
def fiveStep (s : Apu) : Apu :=
  if s.fc = 3728 then quarterFrame s
  else if s.fc = 7456 then halfFrame (quarterFrame s)
  else if s.fc = 11185 then quarterFrame s
  else if s.fc = 18640 then { halfFrame (quarterFrame s) with fc := 0 }
  else s

/-- `FrameStep()` (R920) with `APU_FRAME_DIV` the given one (spec/92 D38). -/
def frameStep (div : FrameDiv) (s : Apu) : Apu :=
  let s := { s with fcPhase := (s.fcPhase + 1) % div.calls }
  if s.fcPhase ≠ 0 then s
  else
    let s := { s with fc := s.fc + 1 }
    if s.fcMode then fiveStep s else fourStep s

/-- One APU `clk()`: the frame sequencer, then every channel's timer once (R915). -/
def apuClock (div : FrameDiv) (s : Apu) : Apu :=
  let s := frameStep div s
  { s with
    pulse1 := pulseTimer s.pulse1
    pulse2 := pulseTimer s.pulse2
    triangle := triangleTimer s.triangle
    noise := noiseTimer s.noise
    dmc := dmcTimer s.dmc }

/-! ## Registers -/

/-- An 11-bit period with its low byte replaced (R904, R906). -/
def periodLow (period : BitVec 11) (d : Byte) : BitVec 11 := (period &&& 0x700) ||| d.setWidth 11

/-- An 11-bit period with its bits 10:8 replaced (R905, R906). -/
def periodHigh (period : BitVec 11) (d : Byte) : BitVec 11 :=
  (period &&& 0x0FF) ||| ((d &&& 0x07).setWidth 11 <<< 8)

/-- A write to a pulse channel's register 0 to 3, `enabled` being its 0x4015 bit (R902 to R905). -/
def pulseWrite (enabled : Bool) (reg : Nat) (d : Byte) (p : Pulse) : Pulse :=
  match reg with
  | 0 =>
    { p with
      duty := (d >>> 6).setWidth 2
      halt := d.getLsbD 5
      constVol := d.getLsbD 4
      vol := d.setWidth 4 }
  | 1 =>
    { p with
      swEnable := d.getLsbD 7
      swPeriod := (d >>> 4).setWidth 3
      swNegate := d.getLsbD 3
      swShift := d.setWidth 3
      swReload := true }
  | 2 => { p with period := periodLow p.period d }
  | _ =>
    { p with
      period := periodHigh p.period d
      length := if enabled then lengthLoad d else p.length
      env := { p.env with start := true }
      seq := 0 }

/-- A write to the triangle's register 0 to 3 (R906); register 1 (0x4009) changes nothing. -/
def triangleWrite (enabled : Bool) (reg : Nat) (d : Byte) (c : Triangle) : Triangle :=
  match reg with
  | 0 => { c with control := d.getLsbD 7, linReloadVal := d.setWidth 7 }
  | 1 => c
  | 2 => { c with period := periodLow c.period d }
  | _ =>
    { c with
      period := periodHigh c.period d
      length := if enabled then lengthLoad d else c.length
      linReloadFlag := true }

/-- A write to the noise channel's register 0 to 3 (R907); register 1 (0x400D) changes nothing. -/
def noiseWrite (enabled : Bool) (reg : Nat) (d : Byte) (c : Noise) : Noise :=
  match reg with
  | 0 => { c with halt := d.getLsbD 5, constVol := d.getLsbD 4, vol := d.setWidth 4 }
  | 1 => c
  | 2 => { c with mode := d.getLsbD 7, periodIdx := d.setWidth 4 }
  | _ =>
    { c with
      length := if enabled then lengthLoad d else c.length
      env := { c.env with start := true } }

/-- A write to the DMC's register 0 to 3 (R908). -/
def dmcWrite (reg : Nat) (d : Byte) (c : Dmc) : Dmc :=
  match reg with
  | 0 => { c with irqEnable := d.getLsbD 7, loop := d.getLsbD 6, rateIdx := d.setWidth 4 }
  | 1 => { c with level := d.setWidth 7 }
  | 2 => { c with sampleAddr := d }
  | _ => { c with sampleLen := d }

/-- A length counter after its channel's enable bit is written: a disabled channel's is 0 (R909). -/
def lengthGate (enabled : Bool) (length : Byte) : Byte := if enabled then length else 0

/-- A 0x4015 write: the channel enables (R909). -/
def writeEnables (d : Byte) (s : Apu) : Apu :=
  { s with
    enPulse1 := d.getLsbD 0
    enPulse2 := d.getLsbD 1
    enTriangle := d.getLsbD 2
    enNoise := d.getLsbD 3
    enDmc := d.getLsbD 4
    pulse1 := { s.pulse1 with length := lengthGate (d.getLsbD 0) s.pulse1.length }
    pulse2 := { s.pulse2 with length := lengthGate (d.getLsbD 1) s.pulse2.length }
    triangle := { s.triangle with length := lengthGate (d.getLsbD 2) s.triangle.length }
    noise := { s.noise with length := lengthGate (d.getLsbD 3) s.noise.length } }

/-- A 0x4017 write: the frame counter (R911). -/
def writeFrameCounter (d : Byte) (s : Apu) : Apu :=
  let s :=
    { s with
      fcMode := d.getLsbD 7
      fcInhibit := d.getLsbD 6
      fc := 0
      fcPhase := 0
      frameIrq := if d.getLsbD 6 then false else s.frameIrq }
  if d.getLsbD 7 then halfFrame (quarterFrame s) else s

/-- `APU.write(addr, d)` for 0x4000 to 0x4013, 0x4015 and 0x4017 (R900, R902 to R911). -/
def apuWrite (addr : Nat) (d : Byte) (s : Apu) : Apu :=
  if addr ≤ 0x4003 then { s with pulse1 := pulseWrite s.enPulse1 (addr % 4) d s.pulse1 }
  else if addr ≤ 0x4007 then { s with pulse2 := pulseWrite s.enPulse2 (addr % 4) d s.pulse2 }
  else if addr ≤ 0x400B then { s with triangle := triangleWrite s.enTriangle (addr % 4) d s.triangle }
  else if addr ≤ 0x400F then { s with noise := noiseWrite s.enNoise (addr % 4) d s.noise }
  else if addr ≤ 0x4013 then { s with dmc := dmcWrite (addr % 4) d s.dmc }
  else if addr = 0x4015 then writeEnables d s
  else writeFrameCounter d s

/-- The value of a 0x4015 read (R910): the length counters in bits 0 to 3, the frame flag in bit 6. -/
def apuStatus (s : Apu) : Byte :=
  (if s.pulse1.length ≠ 0 then 0x01 else 0) ||| (if s.pulse2.length ≠ 0 then 0x02 else 0) |||
    (if s.triangle.length ≠ 0 then 0x04 else 0) ||| (if s.noise.length ≠ 0 then 0x08 else 0) |||
    (if s.frameIrq then 0x40 else 0)

/-- `APU.read_status()` (R910): the value, then the frame flag is cleared. -/
def readApuStatus (s : Apu) : Byte × Apu := (apuStatus s, { s with frameIrq := false })

/-! ## Mixer (R970) -/

/-- `pulse_table[n]` (R970), an exact rational. -/
def pulseTable (n : Nat) : ℚ := if n = 0 then 0 else (9552 / 100) / (8128 / (n : ℚ) + 100)

/-- `tnd_table[n]` (R970), an exact rational. -/
def tndTable (n : Nat) : ℚ := if n = 0 then 0 else (16367 / 100) / (24329 / (n : ℚ) + 100)

/-- The mixed output sample (R970). -/
def mixSample (s : Apu) : ℚ :=
  pulseTable ((pulseOut s.pulse1).toNat + (pulseOut s.pulse2).toNat) +
    tndTable (3 * triangleOut s.triangle + 2 * (noiseOut s.noise).toNat + s.dmc.level.toNat)

end Sys2Proof.Machine
end

