-- ==== Sys2Proof/Machine/Flags.lean ====
section
/-! DEFINITION. The flags of P (spec/10 R105, R106) and every flag computation the instructions make
(spec/00 R13; spec/42, spec/43). -/

namespace Sys2Proof.Machine

/-- The flags by name (R105). -/
inductive Flag where
  | c
  | z
  | i
  | d
  | b
  | u
  | v
  | n
  deriving DecidableEq, Repr

/-- The bit of a flag in P (R105). -/
def flagBit : Flag → Nat
  | .c => 0
  | .z => 1
  | .i => 2
  | .d => 3
  | .b => 4
  | .u => 5
  | .v => 6
  | .n => 7

/-- The byte with only a flag's bit set. -/
def flagMask (f : Flag) : Byte := 1#8 <<< flagBit f

/-- A flag of a status byte. -/
def getFlag (f : Flag) (p : Byte) : Bool := p.getLsbD (flagBit f)

/-- A status byte with one flag written. -/
def setFlag (f : Flag) (v : Bool) (p : Byte) : Byte := if v then p ||| flagMask f else p &&& ~~~flagMask f

/-- `NZ(v)` (R13). -/
def setNZ (v : Byte) (p : Byte) : Byte := setFlag .z (v == 0) (setFlag .n (v.getLsbD 7) p)

/-- The live P made from a pulled byte: B forced to 0, U forced to 1 (R106, R460, R604). -/
def livePulled (v : Byte) : Byte := (v &&& 0xCF) ||| 0x20

/-- The byte an entry or PHP pushes: U set, bit 4 as given (R106, spec/60 R720). -/
def pushedStatus (b : Bool) (p : Byte) : Byte := (p &&& 0xEF) ||| 0x20 ||| (if b then 0x10 else 0x00)

/-- `sum` of `AddCore`, exact (R501). -/
def addSum (a m : Byte) (c : Bool) : Nat := a.toNat + m.toNat + c.toNat

/-- `R` of `AddCore` (R501). -/
def addResult (a m : Byte) (c : Bool) : Byte := BitVec.ofNat 8 (addSum a m c)

/-- The carry of `AddCore` (R501). -/
def addCarry (a m : Byte) (c : Bool) : Bool := decide (255 < addSum a m c)

/-- The overflow of `AddCore`: `~(A ^ M) & (A ^ R)` tested against the sign bit (R501). -/
def addOverflow (a m : Byte) (c : Bool) : Bool :=
  (~~~(a ^^^ m) &&& (a ^^^ addResult a m c)) &&& 0x80 != 0

/-- P after `AddCore` (R501): C, V, then N and Z of the result. -/
def addFlags (a m : Byte) (p : Byte) : Byte :=
  let c := getFlag .c p
  setNZ (addResult a m c) (setFlag .v (addOverflow a m c) (setFlag .c (addCarry a m c) p))

/-- P after a compare of `r` with `m` (R503 to R505): C when `r >= m`, Z when equal, N bit 7 of the
difference. -/
def compareFlags (r m : Byte) (p : Byte) : Byte :=
  setFlag .n ((r - m).getLsbD 7) (setFlag .z (r == m) (setFlag .c (decide (m.toNat ≤ r.toNat)) p))

/-- P after BIT (R554): Z of `A & M`, N and V from the memory byte. -/
def bitFlags (a m : Byte) (p : Byte) : Byte :=
  setFlag .v (m.getLsbD 6) (setFlag .n (m.getLsbD 7) (setFlag .z (a &&& m == 0) p))

/-- P after a shift or a rotate: C is the bit moved out, N and Z of the result (R555 to R558). -/
def shiftFlags (out : Bool) (r : Byte) (p : Byte) : Byte := setNZ r (setFlag .c out p)

end Sys2Proof.Machine
end

