-- ==== Sys2Proof/Machine/Ports.lean ====
section
/-! DEFINITION. The controller ports (spec/63 R1030). -/

namespace Sys2Proof.Machine

/-- A write to 0x4016: the strobe is bit 0, and a strobe of 1 reloads both shift registers (R1030). -/
def portsWrite (d : Byte) (q : Ports) : Ports :=
  if d.getLsbD 0 then { q with strobe := true, shift0 := q.host0, shift1 := q.host1 } else { q with strobe := false }

/-- Bit 7 of a shift register in bit 0, bits 7 to 1 zero. -/
def portBit (shift : Byte) : Byte := if shift.getLsbD 7 then 0x01 else 0x00

/-- A read of 0x4016 (R1030). -/
def portsRead0 (q : Ports) : Byte × Ports :=
  if q.strobe then (portBit q.host0, { q with shift0 := q.host0 })
  else (portBit q.shift0, { q with shift0 := q.shift0 <<< 1 })

/-- A read of 0x4017 (R1030). -/
def portsRead1 (q : Ports) : Byte × Ports :=
  if q.strobe then (portBit q.host1, { q with shift1 := q.host1 })
  else (portBit q.shift1, { q with shift1 := q.shift1 <<< 1 })

end Sys2Proof.Machine
end

