-- ==== Sys2Proof/Machine/Cells.lean ====
section
/-! DEFINITION. The operations on a memory held as a list of cells, and its canonical form
(notes/assumptions/2.md). -/

namespace Sys2Proof.Machine

/-- The value listed for index `k`, if one is. -/
def cellGet {w : Nat} : Cells w → Nat → Option (BitVec w)
  | [], _ => none
  | (a, v) :: rest, k => if a = k then some v else cellGet rest k

/-- Lists `v` for index `k`, in place of what was listed, indices staying strictly rising. -/
def cellSet {w : Nat} : Cells w → Nat → BitVec w → Cells w
  | [], k, v => [(k, v)]
  | (a, u) :: rest, k, v =>
    if k < a then (k, v) :: (a, u) :: rest
    else if k = a then (k, v) :: rest
    else (a, u) :: cellSet rest k v

/-- Every index of the list is at least `lo` and below `size`, and the indices strictly rise. -/
def risingFrom {w : Nat} (lo size : Nat) : Cells w → Bool
  | [] => true
  | (a, _) :: rest => decide (lo ≤ a) && decide (a < size) && risingFrom (a + 1) size rest

/-- The canonical form of a memory of `size` cells: indices strictly rising and below `size`. An unlisted
index has no value of its own, so no listed value can equal it. -/
def cellsWf {w : Nat} (size : Nat) (c : Cells w) : Bool := risingFrom 0 size c

/-- The canonical form of a cartridge's memories: PRG as long as its banks, CHR as long as its banks (8 KB of
CHR RAM when there are none), 8 KB of PRG-RAM (spec/63 R1041 to R1044). -/
def cartMemoryWf : Cart → Bool
  | .empty _ => true
  | .fixed m => cellsWf (m.prgBanks * 0x4000) m.prg && cellsWf 0x2000 m.chr
  | .serial m =>
    cellsWf (m.prgBanks * 0x4000) m.prg && cellsWf (if m.chrBanks = 0 then 0x2000 else m.chrBanks * 0x2000) m.chr &&
      cellsWf 0x2000 m.prgRam

/-- The canonical form of every memory of the machine: CPU RAM, OAM, palette, nametables, the frame buffer and
the cartridge's. -/
def Memory.wf (s : State) : Bool :=
  cellsWf 0x0800 s.ram && cellsWf 256 s.ppu.oam && cellsWf 32 s.ppu.palette && cellsWf 2048 s.ppu.nt &&
    cellsWf 61440 s.ppu.frame && cartMemoryWf s.cart

/-- A byte of a memory: what is listed, else its free power-on draw (spec/70 R1101). -/
def byteAt (space : MemSpace) (c : Cells 8) (k : Nat) : Byte :=
  match cellGet c k with
  | some v => v
  | none => Config.powerOnMemory space k

end Sys2Proof.Machine
end

