-- ==== Sys2Proof/Machine/Cart.lean ====
section
/-! DEFINITION. The cartridge's five functions for the two mappers (spec/63 R1040 to R1045). Addresses are
plain numbers: a CPU address below 2^16, a PPU address below 2^14. -/

namespace Sys2Proof.Machine

/-! ## Mapper 0 (R1041) -/

/-- The PRG offset of a CPU address at or above 0x8000: its low 15 or 14 bits. -/
def mapper0Prg (m : Mapper0) (addr : Nat) : Nat :=
  if m.prgBanks > 1 then addr % 0x8000 else addr % 0x4000

/-! ## Mapper 1 (R1042, R1043) -/

/-- A bank offset is taken modulo the size of its buffer (R1043, D62). A buffer of size 0, the PRG of a cartridge with
no bank, for which that says nothing, leaves the offset as it is (DESIGN CHOICE, notes/assumptions/20.md). -/
def wrapOffset (size offset : Nat) : Nat := offset % size

/-- `control[3:2]`, the PRG mode. -/
def mapper1PrgMode (m : Mapper1) : Nat := m.control.toNat / 4 % 4

/-- The PRG offset of a CPU address at or above 0x8000. With no PRG bank, for which R1043's `last = nPRG - 1` says
nothing, the last bank is 0 (DESIGN CHOICE, notes/assumptions/20.md). -/
def mapper1Prg (m : Mapper1) (addr : Nat) : Nat :=
  let bank := m.prgBank.toNat % 16
  wrapOffset (m.prgBanks * 0x4000) <|
    match mapper1PrgMode m with
    | 2 => if addr < 0xC000 then addr % 0x4000 else bank * 0x4000 + addr % 0x4000
    | 3 => if addr < 0xC000 then bank * 0x4000 + addr % 0x4000 else (m.prgBanks - 1) * 0x4000 + addr % 0x4000
    | _ => bank / 2 * 0x8000 + addr % 0x8000

/-- The size of the CHR buffer: its banks, or 8 KB of CHR RAM (R1044). -/
def mapper1ChrSize (m : Mapper1) : Nat := if m.chrBanks = 0 then 0x2000 else m.chrBanks * 0x2000

/-- The CHR offset of a PPU address at or below 0x1FFF. -/
def mapper1Chr (m : Mapper1) (a : Nat) : Nat :=
  wrapOffset (mapper1ChrSize m) <|
    if m.control.getLsbD 4 then
      if a < 0x1000 then m.chr0.toNat * 0x1000 + a % 0x1000 else m.chr1.toNat * 0x1000 + a % 0x1000
    else m.chr0.toNat / 2 * 2 * 0x1000 + a

/-- The commit of a full shift register: address bits 14:13 choose the register (R1042). -/
def mapper1Commit (m : Mapper1) (addr : Nat) (v : BitVec 5) : Mapper1 :=
  let m := { m with sr := 0, srCount := 0 }
  match addr / 0x2000 % 4 with
  | 0 => { m with control := v }
  | 1 => { m with chr0 := v }
  | 2 => { m with chr1 := v }
  | _ => { m with prgBank := v }

/-- A write at or above 0x8000: the serial register (R1042). -/
def mapper1Serial (m : Mapper1) (addr : Nat) (d : Byte) : Mapper1 :=
  if d.getLsbD 7 then { m with sr := 0, srCount := 0, control := m.control ||| 0x0C }
  else
    let sr := (m.sr >>> 1) ||| ((d &&& 1).setWidth 5 <<< 4)
    if m.srCount + 1 = 5 then mapper1Commit m addr sr else { m with sr := sr, srCount := m.srCount + 1 }

/-! ## The five functions (R1040) -/

/-- `Cart.cpu_read`: none when the cartridge does not claim the address. -/
def cartCpuRead (c : Cart) (addr : Nat) : Option Byte :=
  match c with
  | .empty _ => none
  | .fixed m => if 0x8000 ≤ addr then some (byteAt .prg m.prg (mapper0Prg m addr)) else none
  | .serial m =>
    if 0x8000 ≤ addr then some (byteAt .prg m.prg (mapper1Prg m addr))
    else if 0x6000 ≤ addr then some (byteAt .prgRam m.prgRam (addr % 0x2000))
    else none

/-- `Cart.cpu_write`: the cartridge after a write it handles, none when it does not claim the address. -/
def cartCpuWrite (c : Cart) (addr : Nat) (d : Byte) : Option Cart :=
  match c with
  | .empty _ => none
  | .fixed m => if 0x8000 ≤ addr then some (.fixed m) else none
  | .serial m =>
    if 0x8000 ≤ addr then some (.serial (mapper1Serial m addr d))
    else if 0x6000 ≤ addr then some (.serial { m with prgRam := cellSet m.prgRam (addr % 0x2000) d })
    else none

/-- `Cart.ppu_read`. -/
def cartPpuRead (c : Cart) (a : Nat) : Option Byte :=
  match c with
  | .empty _ => none
  | .fixed m => if a ≤ 0x1FFF then some (byteAt .chr m.chr a) else none
  | .serial m => if a ≤ 0x1FFF then some (byteAt .chr m.chr (mapper1Chr m a)) else none

/-- `Cart.ppu_write`: mapper 0 drops the write, mapper 1 stores it when its CHR is RAM (R1041, R1043). -/
def cartPpuWrite (c : Cart) (a : Nat) (d : Byte) : Option Cart :=
  match c with
  | .empty _ => none
  | .fixed m => if a ≤ 0x1FFF then some (.fixed m) else none
  | .serial m =>
    if a ≤ 0x1FFF then
      some (.serial (if m.chrBanks = 0 then { m with chr := cellSet m.chr (mapper1Chr m a) d } else m))
    else none

/-- `Cart.mirroring`; mapper 1's follows `control[1:0]` (R1043). -/
def cartMirroring (c : Cart) : Mirroring :=
  match c with
  | .empty mirroring => mirroring
  | .fixed m => m.mirroring
  | .serial m =>
    match m.control.toNat % 4 with
    | 0 => .singleLow
    | 1 => .singleHigh
    | 2 => .vertical
    | _ => .horizontal

/-! ## Reset and load -/

/-- The mapper's registers at power-on (R1042, spec/70 R1100 step 1); contents are kept. -/
def cartReset (c : Cart) : Cart :=
  match c with
  | .serial m =>
    .serial { m with control := 0x0C, sr := 0, srCount := 0, chr0 := 0, chr1 := 0, prgBank := 0 }
  | c => c

/-- What the host hands over when it loads a cartridge (R1044). -/
structure CartImage where
  mapperId : Nat
  prgBanks : Nat
  prg : Cells 8
  /-- The number of 8 KB CHR banks; 0 when the cartridge has none. -/
  chrBanks : Nat
  chr : Cells 8
  mirroring : Mirroring
  deriving DecidableEq, Repr

/-- Whether the image's contents fit its header: each listed byte lies in its banks, in order. -/
def imageReadable (img : CartImage) : Bool :=
  cellsWf (img.prgBanks * 0x4000) img.prg && cellsWf (img.chrBanks * 0x2000) img.chr

/-- The cartridge of an image, its mapper registers at power-on; none when the mapper is neither 0 nor 1
(R1045). Allocated CHR RAM and PRG-RAM start as power-on draws (R1044); mapper 0 holds 8 KB of CHR (R1041). -/
def cartOfImage (img : CartImage) : Option Cart :=
  let chr := if img.chrBanks = 0 then [] else img.chr
  match img.mapperId with
  | 0 =>
    some (.fixed
      { prgBanks := img.prgBanks, prg := img.prg, chr := chr.filter (fun e => decide (e.1 < 0x2000)),
        mirroring := img.mirroring })
  | 1 =>
    some (.serial
      { prgBanks := img.prgBanks, prg := img.prg, chrBanks := img.chrBanks, chr := chr, prgRam := [],
        sr := 0, srCount := 0, control := 0x0C, chr0 := 0, chr1 := 0, prgBank := 0 })
  | _ => none

/-- The same cartridge with one PRG byte placed at a CPU address it claims as PRG, for loading a program. -/
def cartWithPrgByte (c : Cart) (addr : Nat) (b : Byte) : Cart :=
  match c with
  | .empty mirroring => .empty mirroring
  | .fixed m => .fixed { m with prg := cellSet m.prg (mapper0Prg m addr) b }
  | .serial m => .serial { m with prg := cellSet m.prg (mapper1Prg m addr) b }

end Sys2Proof.Machine
end

