-- ==== Sys2Proof/Machine/Ppu.lean ====
section
/-! DEFINITION. The PPU's own bus (spec/61 R830 to R832) and its CPU-facing registers (R810 to R819), with
OAM's accessors (R880, R881). -/

namespace Sys2Proof.Machine

/-! ## The PPU address space -/

/-- The nametable cell of an address in 0x2000 to 0x3EFF: bank times 1024 plus the low ten bits (R831). -/
def ntCell (mirroring : Mirroring) (a : Nat) : Nat :=
  let q := a % 0x1000 / 0x400
  let bank :=
    match mirroring with
    | .vertical => q % 2
    | .horizontal => q / 2
    | .singleLow => 0
    | .singleHigh => 1
  bank * 1024 + a % 0x400

/-- The palette cell of an address in 0x3F00 to 0x3FFF, the four mirror addresses replaced (R832). -/
def paletteCell (a : Nat) : Nat :=
  let i := a % 32
  if i = 0x10 ∨ i = 0x14 ∨ i = 0x18 ∨ i = 0x1C then i - 0x10 else i

/-- `palette[i]`: what is listed, else its free power-on draw. -/
def paletteAt (p : Ppu) (i : Nat) : BitVec 6 :=
  match cellGet p.palette i with
  | some v => v
  | none => Config.powerOnPalette i

/-- `PalRead` (R832). -/
def palRead (p : Ppu) (a : Nat) : BitVec 6 := paletteAt p (paletteCell a)

/-- `PalWrite` (R832): a cell keeps the low six bits. -/
def palWrite (p : Ppu) (a : Nat) (d : Byte) : Ppu :=
  { p with palette := cellSet p.palette (paletteCell a) (d.setWidth 6) }

/-- `PpuRead` (R830): the cartridge first, then 0 for an unclaimed pattern table, the nametables, the
palette. -/
def ppuBusRead (c : Cart) (p : Ppu) (a : Nat) : Byte :=
  match cartPpuRead c a with
  | some v => v
  | none =>
    if a ≤ 0x1FFF then 0x00
    else if a ≤ 0x3EFF then byteAt .nametable p.nt (ntCell (cartMirroring c) a)
    else (palRead p a).setWidth 8

/-- `PpuWrite` (R830). -/
def ppuBusWrite (c : Cart) (p : Ppu) (a : Nat) (d : Byte) : Cart × Ppu :=
  match cartPpuWrite c a d with
  | some c' => (c', p)
  | none =>
    if a ≤ 0x1FFF then (c, p)
    else if a ≤ 0x3EFF then (c, { p with nt := cellSet p.nt (ntCell (cartMirroring c) a) d })
    else (c, palWrite p a d)

/-! ## OAM -/

/-- `OAM[i]`: what is listed, else its free power-on draw. -/
def oamAt (p : Ppu) (i : Nat) : Byte := byteAt .oam p.oam i

/-- `OAM[i] <- d`, the accessor of the CPU's and of DMA's writes (R816, R880). -/
def oamWrite (p : Ppu) (i : Byte) (d : Byte) : Ppu :=
  { p with oam := cellSet p.oam i.toNat d }

/-! ## The registers -/

/-- `v & 0x3FFF`, the bus address of a PPUDATA access (R819). -/
def ppuDataAddr (p : Ppu) : Nat := p.v.toNat % 0x4000

/-- v after a PPUDATA access: plus 32 or 1 by PPUCTRL bit 2, mod 2^15 (R819). -/
def ppuDataStep (p : Ppu) : BitVec 15 :=
  if p.ctrl.getLsbD 2 then p.v + 32 else p.v + 1

/-- A PPUSTATUS read (R814). -/
def readPpuStatus (p : Ppu) : Byte × Ppu :=
  ((p.status &&& 0xE0) ||| (p.readBuffer &&& 0x1F), { p with status := p.status &&& 0x7F, w := false })

/-- A PPUDATA read (R819): palette reads return at once, the others one read behind. -/
def readPpuData (c : Cart) (p : Ppu) : Byte × Ppu :=
  let a := ppuDataAddr p
  if 0x3F00 ≤ a then
    let val : Byte := (palRead p a).setWidth 8
    (val, { p with readBuffer := val, v := ppuDataStep p })
  else (p.readBuffer, { p with readBuffer := ppuBusRead c p a, v := ppuDataStep p })

/-- `PPU.cpu_read(r)` (R811); the write-only registers read 0 and change nothing. -/
def ppuCpuRead (c : Cart) (p : Ppu) (r : Nat) : Byte × Ppu :=
  match r with
  | 2 => readPpuStatus p
  | 4 => (oamAt p p.oamAddr.toNat, p)
  | 7 => readPpuData c p
  | _ => (0x00, p)

/-- A PPUCTRL write (R812). -/
def writePpuCtrl (p : Ppu) (d : Byte) : Ppu :=
  { p with ctrl := d, t := (p.t &&& 0x73FF) ||| ((d &&& 0x03).setWidth 15 <<< 10) }

/-- An OAMDATA write (R816). -/
def writeOamData (p : Ppu) (d : Byte) : Ppu :=
  { oamWrite p p.oamAddr d with oamAddr := p.oamAddr + 1 }

/-- A PPUSCROLL write (R817). -/
def writePpuScroll (p : Ppu) (d : Byte) : Ppu :=
  if p.w then
    { p with
      t := (p.t &&& 0x0C1F) ||| ((d &&& 0x07).setWidth 15 <<< 12) ||| ((d &&& 0xF8).setWidth 15 <<< 2)
      w := false }
  else
    { p with t := (p.t &&& 0x7FE0) ||| (d >>> 3).setWidth 15, fineX := (d &&& 0x07).setWidth 3, w := true }

/-- A PPUADDR write (R818). -/
def writePpuAddr (p : Ppu) (d : Byte) : Ppu :=
  if p.w then
    let t := (p.t &&& 0x7F00) ||| d.setWidth 15
    { p with t := t, v := t, w := false }
  else { p with t := (p.t &&& 0x00FF) ||| ((d &&& 0x3F).setWidth 15 <<< 8), w := true }

/-- A PPUDATA write (R819). -/
def writePpuData (c : Cart) (p : Ppu) (d : Byte) : Cart × Ppu :=
  let (c', p') := ppuBusWrite c p (ppuDataAddr p) d
  (c', { p' with v := ppuDataStep p })

/-- `PPU.cpu_write(r, d)` (R811); a PPUSTATUS write is ignored (D58). -/
def ppuCpuWrite (c : Cart) (p : Ppu) (r : Nat) (d : Byte) : Cart × Ppu :=
  match r with
  | 0 => (c, writePpuCtrl p d)
  | 1 => (c, { p with mask := d })
  | 3 => (c, { p with oamAddr := d })
  | 4 => (c, writeOamData p d)
  | 5 => (c, writePpuScroll p d)
  | 6 => (c, writePpuAddr p d)
  | 7 => writePpuData c p d
  | _ => (c, p)

end Sys2Proof.Machine
end

