-- ==== Sys2Proof/Machine/PpuDot.lean ====
section
/-! DEFINITION. One dot of the PPU (spec/61 R802): scrolling, the background pipeline, sprite evaluation, the
pixel multiplexer, vertical blank and the raster position. -/

namespace Sys2Proof.Machine

/-- Applies `f` when `b` holds. -/
def applyIf {α : Type} (b : Bool) (f : α → α) (a : α) : α := if b then f a else a

/-- "Rendering enabled": PPUMASK bit 3 or bit 4 (R813). -/
def rendering (p : Ppu) : Bool := p.mask.getLsbD 3 || p.mask.getLsbD 4

/-! ## The VRAM address registers (R820 to R824) -/

/-- The coarse-X increment of v (R821). -/
def coarseXNext (v : BitVec 15) : BitVec 15 :=
  if v &&& 0x001F = 0x001F then (v &&& 0x7FE0) ^^^ 0x0400 else v + 1

/-- `IncX()` (R821). -/
def incX (p : Ppu) : Ppu := applyIf (rendering p) (fun p => { p with v := coarseXNext p.v }) p

/-- The Y increment of v (R822): fine Y, then coarse Y with its two wraps. -/
def coarseYNext (v : BitVec 15) : BitVec 15 :=
  if v &&& 0x7000 ≠ 0x7000 then v + 0x1000
  else if v &&& 0x03E0 = 0x03A0 then (v &&& 0x0C1F) ^^^ 0x0800
  else if v &&& 0x03E0 = 0x03E0 then v &&& 0x0C1F
  else (v &&& 0x0FFF) + 0x0020

/-- `IncY()` (R822). -/
def incY (p : Ppu) : Ppu := applyIf (rendering p) (fun p => { p with v := coarseYNext p.v }) p

/-- `TransferX()` (R823): coarse X and the horizontal nametable bit, mask 0x041F. -/
def transferX (p : Ppu) : Ppu :=
  applyIf (rendering p) (fun p => { p with v := (p.v &&& 0x7BE0) ||| (p.t &&& 0x041F) }) p

/-- `TransferY()` (R824): fine Y, coarse Y and the vertical nametable bit, mask 0x7BE0. -/
def transferY (p : Ppu) : Ppu :=
  applyIf (rendering p) (fun p => { p with v := (p.v &&& 0x041F) ||| (p.t &&& 0x7BE0) }) p

/-! ## The background pipeline (R840 to R844) -/

/-- The four background shifters move one bit left when rendering is enabled (R844). -/
def shiftBackground (p : Ppu) : Ppu :=
  applyIf (rendering p)
    (fun p =>
      { p with
        shPatLo := p.shPatLo <<< 1
        shPatHi := p.shPatHi <<< 1
        shAttrLo := p.shAttrLo <<< 1
        shAttrHi := p.shAttrHi <<< 1 })
    p

/-- A shifter with its low byte replaced (R841). -/
def loadLow (r : Word) (b : Byte) : Word := (r &&& 0xFF00) ||| b.setWidth 16

/-- One attribute bit replicated over the eight pixels of a tile (R841). -/
def spread (b : Bool) : Byte := if b then 0xFF else 0x00

/-- Sub-dot 0: load the shifters, fetch the next tile number (R841). -/
def fetchTile (c : Cart) (p : Ppu) : Ppu :=
  { p with
    shPatLo := loadLow p.shPatLo p.nextLo
    shPatHi := loadLow p.shPatHi p.nextHi
    shAttrLo := loadLow p.shAttrLo (spread (p.nextAttr.getLsbD 0))
    shAttrHi := loadLow p.shAttrHi (spread (p.nextAttr.getLsbD 1))
    nextTile := ppuBusRead c p (0x2000 + p.v.toNat % 0x1000) }

/-- The attribute address of v (R842). -/
def attrAddr (v : BitVec 15) : Nat :=
  (0x23C0#15 ||| (v &&& 0x0C00) ||| ((v >>> 4) &&& 0x38) ||| ((v >>> 2) &&& 0x07)).toNat

/-- The two bits of an attribute byte for the quadrant of v (R842). -/
def attrQuadrant (v : BitVec 15) (b : Byte) : BitVec 2 :=
  let b := if v.getLsbD 6 then b >>> 4 else b
  let b := if v.getLsbD 1 then b >>> 2 else b
  b.setWidth 2

/-- Sub-dot 2: fetch the attribute (R842). -/
def fetchAttr (c : Cart) (p : Ppu) : Ppu :=
  { p with nextAttr := attrQuadrant p.v (ppuBusRead c p (attrAddr p.v)) }

/-- The address of the low pattern plane: `((ctrl & 0x10) << 8) + next_tile * 16 + v[14:12]` (R843). -/
def patternAddr (p : Ppu) : Nat :=
  (if p.ctrl.getLsbD 4 then 0x1000 else 0) + p.nextTile.toNat * 16 + p.v.toNat / 0x1000

/-- The background action of a sub-dot (R841 to R843); sub-dots 1, 3 and 5 do nothing. -/
def backgroundStep (c : Cart) (sub : Nat) (p : Ppu) : Ppu :=
  match sub with
  | 0 => fetchTile c p
  | 2 => fetchAttr c p
  | 4 => { p with nextLo := ppuBusRead c p (patternAddr p) }
  | 6 => { p with nextHi := ppuBusRead c p (patternAddr p + 8) }
  | 7 => incX p
  | _ => p

/-! ## Sprites (R850 to R853) -/

/-- The sprite height: 16 when PPUCTRL bit 5 is 1, else 8 (R850). -/
def spriteHeight (p : Ppu) : Nat := if p.ctrl.getLsbD 5 then 16 else 8

/-- Whether OAM entry `n` is in range of the line: `0 <= scanline - OAM[4n] < h` (R850). -/
def spriteInRange (p : Ppu) (n : Nat) : Bool :=
  let diff : Int := p.scanline - ((oamAt p (4 * n)).toNat : Int)
  decide (0 ≤ diff) && decide (diff < (spriteHeight p : Int))

/-- The secondary-OAM copy of OAM entry `n`, its pattern registers 0 (R850, R881). -/
def spriteCopy (p : Ppu) (n : Nat) : SpriteSlot where
  y := oamAt p (4 * n)
  tile := oamAt p (4 * n + 1)
  attr := oamAt p (4 * n + 2)
  x := oamAt p (4 * n + 3)
  patLo := 0x00
  patHi := 0x00

/-- What the scan of OAM finds. -/
structure SpriteScan where
  found : List SpriteSlot
  zero : Bool
  overflow : Bool
  deriving DecidableEq, Repr

/-- The scan over the OAM entries `ns`: up to eight copies, whether entry 0 is among them, and whether a ninth
entry is in range, which stops the scan (R850). -/
def scanSprites (p : Ppu) : List Nat → SpriteScan → SpriteScan
  | [], acc => acc
  | n :: ns, acc =>
    if spriteInRange p n then
      if acc.found.length < 8 then
        scanSprites p ns { acc with found := acc.found ++ [spriteCopy p n], zero := acc.zero || n == 0 }
      else { acc with overflow := true }
    else scanSprites p ns acc

/-- `EvaluateSprites()` (R850): the overflow flag is only set. -/
def evaluateSprites (p : Ppu) : Ppu :=
  let scan := scanSprites p (List.range 64) ⟨[], false, false⟩
  { p with
    slots := scan.found ++ List.replicate (8 - scan.found.length) SpriteSlot.none
    spriteCount := scan.found.length
    spriteZeroPossible := scan.zero
    status := if scan.overflow then p.status ||| 0x20 else p.status }

/-- `rev8`: the eight bits in the opposite order (R851). -/
def rev8 (b : Byte) : Byte := b.reverse

/-- The row of an 8 by 8 sprite after its vertical flip (R851). The rule's rows are 0 to 7; a PPUCTRL write
between the evaluation and the load can leave a larger row, whose flipped row the rule does not give: a free
value (notes/assumptions/11.md). -/
def spriteRow8 (flip : Bool) (row : Int) : BitVec 14 :=
  if flip then (if row ≤ 7 then BitVec.ofInt 14 (7 - row) else Config.spriteRowBeyond row)
  else BitVec.ofInt 14 row

/-- The row of an 8 by 16 sprite after its vertical flip (R852). -/
def spriteRow16 (flip : Bool) (row : Int) : BitVec 14 :=
  BitVec.ofInt 14 (if flip then 15 - row else row)

/-- The address of a sprite's low pattern plane on the current line (R851, R852). -/
def spriteAddr (p : Ppu) (s : SpriteSlot) : BitVec 14 :=
  let row : Int := p.scanline - (s.y.toNat : Int)
  let flip := s.attr.getLsbD 7
  if p.ctrl.getLsbD 5 then
    let r := spriteRow16 flip row
    let tile : Byte := (s.tile &&& 0xFE) + (if 8 ≤ r.toNat then 1 else 0)
    (if s.tile.getLsbD 0 then 0x1000 else 0) ||| (tile.setWidth 14 <<< 4) ||| (r &&& 7)
  else
    (if p.ctrl.getLsbD 3 then 0x1000 else 0) ||| (s.tile.setWidth 14 <<< 4) ||| spriteRow8 flip row

/-- The load of one slot: both pattern bytes, reversed for a horizontal flip (R851). -/
def loadSlot (c : Cart) (p : Ppu) (s : SpriteSlot) : SpriteSlot :=
  let lo := ppuBusRead c p (spriteAddr p s).toNat
  let hi := ppuBusRead c p (spriteAddr p s + 8).toNat
  if s.attr.getLsbD 6 then { s with patLo := rev8 lo, patHi := rev8 hi } else { s with patLo := lo, patHi := hi }

/-- Applies `f` to the first `n` members of a list. -/
def mapFirst {α : Type} (f : α → α) : Nat → List α → List α
  | 0, l => l
  | _, [] => []
  | n + 1, a :: l => f a :: mapFirst f n l

/-- `LoadSprites()` (R851, R852). -/
def loadSprites (c : Cart) (p : Ppu) : Ppu :=
  { p with slots := mapFirst (loadSlot c p) p.spriteCount p.slots }

/-- The shift of one slot: count its x down, then shift its pattern registers (R853). -/
def shiftSlot (s : SpriteSlot) : SpriteSlot :=
  if s.x = 0 then { s with patLo := s.patLo <<< 1, patHi := s.patHi <<< 1 } else { s with x := s.x - 1 }

/-- The sprite shift of a dot, when PPUMASK bit 4 is 1 (R853). -/
def shiftSprites (p : Ppu) : Ppu :=
  applyIf (p.mask.getLsbD 4) (fun p => { p with slots := mapFirst shiftSlot p.spriteCount p.slots }) p

/-! ## The pixel multiplexer (R860 to R866) -/

/-- A two-bit value from its bits. -/
def pairBits (hi lo : Bool) : BitVec 2 := BitVec.ofBool hi ++ BitVec.ofBool lo

/-- The background pixel and palette, bit `15 - x` of the shifters (R860). -/
def backgroundPixel (p : Ppu) : BitVec 2 × BitVec 2 :=
  let b := 15 - p.fineX.toNat
  if p.mask.getLsbD 3 then
    (pairBits (p.shPatHi.getLsbD b) (p.shPatLo.getLsbD b), pairBits (p.shAttrHi.getLsbD b) (p.shAttrLo.getLsbD b))
  else (0, 0)

/-- The sprite pixel: value, palette 4 to 7, priority, and whether it is slot 0's. -/
structure SpritePixel where
  pix : BitVec 2
  pal : Nat
  front : Bool
  zero : Bool
  deriving DecidableEq, Repr

/-- The pixel of a slot: bit 7 of its pattern registers. -/
def slotPixel (s : SpriteSlot) : BitVec 2 := pairBits (s.patHi.getLsbD 7) (s.patLo.getLsbD 7)

/-- The scan in slot order from slot `i`, stopping at the first opaque pixel (R861). -/
def scanSlots : Nat → List SpriteSlot → SpritePixel
  | _, [] => ⟨0, 0, false, false⟩
  | i, s :: rest =>
    if s.x = 0 ∧ slotPixel s ≠ 0 then
      ⟨slotPixel s, (s.attr &&& 3).toNat + 4, !s.attr.getLsbD 5, i == 0⟩
    else scanSlots (i + 1) rest

/-- The sprite pixel of a dot (R861). -/
def spritePixel (p : Ppu) : SpritePixel :=
  if p.mask.getLsbD 4 then scanSlots 0 (p.slots.take p.spriteCount) else ⟨0, 0, false, false⟩

/-- The pixel and palette that win (R862). -/
def muxPixel (bg : BitVec 2 × BitVec 2) (fg : SpritePixel) : BitVec 2 × Nat :=
  if bg.1 = 0 ∧ fg.pix = 0 then (0, 0)
  else if bg.1 = 0 then (fg.pix, fg.pal)
  else if fg.pix = 0 then (bg.1, bg.2.toNat)
  else if fg.front then (fg.pix, fg.pal)
  else (bg.1, bg.2.toNat)

/-- The colour index of a pixel (R863). -/
def colourIndex (p : Ppu) (pixel : BitVec 2 × Nat) : BitVec 6 :=
  if pixel.1 = 0 then palRead p 0x3F00 else palRead p (0x3F00 + pixel.2 * 4 + pixel.1.toNat)

/-- The ARGB8888 word of a colour index, alpha 255 (R863, R864). -/
def argb (idx : BitVec 6) : BitVec 32 := 0xFF#8 ++ Config.systemPalette idx

/-- Whether the dot sets the sprite-zero hit (R866). -/
def spriteZeroHit (p : Ppu) (bg : BitVec 2 × BitVec 2) (fg : SpritePixel) : Bool :=
  bg.1 != 0 && fg.pix != 0 && p.spriteZeroPossible && fg.zero &&
    !(decide (p.dot ≤ 8) && (!p.mask.getLsbD 1 || !p.mask.getLsbD 2))

/-- The frame-buffer cell of the current dot: `scanline * 256 + (dot - 1)` (R864). -/
def pixelCell (p : Ppu) : Nat := p.scanline.toNat * 256 + (p.dot - 1)

/-- The pixel multiplexer of a dot (R860 to R866). -/
def pixel (p : Ppu) : Ppu :=
  let bg := backgroundPixel p
  let fg := spritePixel p
  { p with
    frame := cellSet p.frame (pixelCell p) (argb (colourIndex p (muxPixel bg fg)))
    status := if spriteZeroHit p bg fg then p.status ||| 0x40 else p.status }

/-- Pixel `i` of the frame buffer as the host reads it; unspecified before it is written (R801). -/
def framePixel (p : Ppu) (i : Nat) : BitVec 32 :=
  match cellGet p.frame i with
  | some v => v
  | none => Config.unwrittenPixel i

/-! ## Frame timing (R870 to R874) -/

/-- `PreRenderClear()` (R872): PPUSTATUS bits 7, 6 and 5. -/
def preRenderClear (p : Ppu) : Ppu := { p with status := p.status &&& 0x1F }

/-- Whether the dot is the vertical-blank event, scanline 241 dot 1 (R870). -/
def vblankDot (p : Ppu) : Bool := decide (p.scanline = 241) && decide (p.dot = 1)

/-- Whether the dot raises the NMI latch (R870): the event with PPUCTRL bit 7. -/
def raisesNmi (p : Ppu) : Bool := vblankDot p && p.ctrl.getLsbD 7

/-- `VblankStart()` (R870), but for the NMI latch, which stands in State. -/
def vblankStart (p : Ppu) : Ppu := { p with status := p.status ||| 0x80 }

/-- `Advance()` (R873, R874). -/
def advance (p : Ppu) : Ppu :=
  if p.dot + 1 = 341 then
    if p.scanline + 1 = 261 then { p with dot := 0, scanline := -1, frameComplete := true }
    else { p with dot := 0, scanline := p.scanline + 1 }
  else { p with dot := p.dot + 1 }

/-- Whether the line is one of -1 to 239. -/
def renderLine (p : Ppu) : Bool := decide (-1 ≤ p.scanline) && decide (p.scanline ≤ 239)

/-- Whether the dot is within the bounds. -/
def dotIn (lo hi : Nat) (p : Ppu) : Bool := decide (lo ≤ p.dot) && decide (p.dot ≤ hi)

/-- `ShiftAll()`: the background shifters (R844), and the sprites at dots 2 to 257 (R853). -/
def shiftAll (p : Ppu) : Ppu := applyIf (dotIn 2 257 p) shiftSprites (shiftBackground p)

/-- The shift and the background step of a fetch dot (R802, R840). -/
def fetchDot (c : Cart) (p : Ppu) : Ppu := backgroundStep c ((p.dot - 1) % 8) (shiftAll p)

/-- The actions of a dot on the lines -1 to 239, in R802's order. -/
def renderDot (c : Cart) (p : Ppu) : Ppu :=
  let p := applyIf (decide (p.scanline = -1) && decide (p.dot = 1)) preRenderClear p
  let p := applyIf (dotIn 2 257 p || dotIn 321 337 p) (fetchDot c) p
  let p := applyIf (decide (p.dot = 256)) incY p
  let p := applyIf (decide (p.dot = 257)) transferX p
  let p := applyIf (decide (p.scanline = -1) && dotIn 280 304 p) transferY p
  let p := applyIf (decide (p.dot = 257)) evaluateSprites p
  applyIf (decide (p.dot = 340)) (loadSprites c) p

/-- `PpuDot()` (R802). -/
def ppuDot (c : Cart) (p : Ppu) : Ppu :=
  let p := applyIf (renderLine p) (renderDot c) p
  let p := applyIf (vblankDot p) vblankStart p
  let p := applyIf (decide (0 ≤ p.scanline) && decide (p.scanline ≤ 239) && dotIn 1 256 p) pixel p
  advance p

end Sys2Proof.Machine
end

