-- ==== Sys2Proof/Machine/Ops.lean ====
section
/-! DEFINITION. The named operations over registers and memory: the CPU bus decoder (spec/20 R201, R202), the
memory primitives (spec/00 R14), the cycle count (spec/30 R340), taking an interrupt (spec/60 R720) and
returning from one (spec/44 R604). -/

namespace Sys2Proof.Machine

/-! ## Registers -/

def State.setA (s : State) (v : Byte) : State := { s with cpu := { s.cpu with a := v } }

def State.setX (s : State) (v : Byte) : State := { s with cpu := { s.cpu with x := v } }

def State.setY (s : State) (v : Byte) : State := { s with cpu := { s.cpu with y := v } }

def State.setSp (s : State) (v : Byte) : State := { s with cpu := { s.cpu with sp := v } }

def State.setPc (s : State) (v : Word) : State := { s with cpu := { s.cpu with pc := v } }

def State.setP (s : State) (v : Byte) : State := { s with cpu := { s.cpu with p := v } }

def State.setCycles (s : State) (n : Nat) : State := { s with cpu := { s.cpu with cycles := n } }

/-- The operand latch `M` (spec/10 R110). -/
def State.setM (s : State) (v : Byte) : State := { s with cpu := { s.cpu with m := v } }

/-- The effective-address latch and the mode's hint, which an addressing mode sets together (spec/30,
section 2). -/
def State.setEa (s : State) (ea : Word) (extra : Bool) : State :=
  { s with cpu := { s.cpu with ea := ea, modeExtra := extra } }

/-- The opcode latch (spec/10 R110). -/
def State.setOpcode (s : State) (op : Byte) : State := { s with cpu := { s.cpu with opcode := op } }

/-- The end of a CPU clock for the transient latches: each becomes a free value (spec/10 R110;
notes/assumptions/9.md). -/
def State.dropLatches (s : State) : State :=
  let l := Config.latchDraw s.cpu.latchDraws
  { s with
    cpu :=
      { s.cpu with
        opcode := l.opcode
        ea := l.ea
        m := l.m
        modeExtra := l.modeExtra
        opExtra := l.opExtra
        latchDraws := s.cpu.latchDraws + 1 } }

/-! ## The CPU bus -/

/-- The DMA trigger: a write to 0x4014 (spec/63 R1020). A write while DMA is active has no effect (R1025;
spec/95, section 2.10). -/
def dmaStart (page : Byte) (d : Dma) : Dma :=
  if d.active then d else { d with active := true, dummy := true, page := page, addr := 0 }

/-- A byte of CPU RAM by its cell number (R203): what is listed, else its free power-on draw. -/
def ramAt (s : State) (cell : Nat) : Byte := byteAt .cpuRam s.ram cell

/-- `MemRead(addr, 1)` (R201): the byte read, and the state after the read's side effect. -/
def busRead (s : State) (addr : Word) : Byte × State :=
  let n := addr.toNat
  match cartCpuRead s.cart n with
  | some v => (v, s)
  | none =>
    if n ≤ 0x1FFF then (ramAt s (n % 0x0800), s)
    else if n ≤ 0x3FFF then
      let r := ppuCpuRead s.cart s.ppu (n % 8)
      (r.1, { s with ppu := r.2 })
    else if n = 0x4015 then
      let r := readApuStatus s.apu
      (r.1, { s with apu := r.2 })
    else if n = 0x4016 then
      let r := portsRead0 s.ports
      (r.1, { s with ports := r.2 })
    else if n = 0x4017 then
      let r := portsRead1 s.ports
      (r.1, { s with ports := r.2 })
    else (0x00, s)

/-- `MemWrite(addr, 1, v)` (R202). -/
def busWrite (s : State) (addr : Word) (v : Byte) : State :=
  let n := addr.toNat
  match cartCpuWrite s.cart n v with
  | some c => { s with cart := c }
  | none =>
    if n ≤ 0x1FFF then { s with ram := cellSet s.ram (n % 0x0800) v }
    else if n ≤ 0x3FFF then
      let r := ppuCpuWrite s.cart s.ppu (n % 8) v
      { s with cart := r.1, ppu := r.2 }
    else if n ≤ 0x4013 ∨ n = 0x4015 ∨ n = 0x4017 then { s with apu := apuWrite n v s.apu }
    else if n = 0x4014 then { s with dma := dmaStart v s.dma }
    else if n = 0x4016 then { s with ports := portsWrite v s.ports }
    else s

/-- `Read16(addr)` (spec/00 R14): two reads, low byte first, wrapping at 0xFFFF. -/
def read16 (s : State) (addr : Word) : Word × State :=
  let lo := busRead s addr
  let hi := busRead lo.2 (addr + 1)
  (hiLo hi.1 lo.1, hi.2)

/-- `Fetch()` (spec/00 R14). -/
def fetch (s : State) : Byte × State :=
  let r := busRead s s.cpu.pc
  (r.1, r.2.setPc (s.cpu.pc + 1))

/-! ## The stack (spec/10 R102, spec/00 R14) -/

/-- The address of the stack byte that SP names: `0x0100 + SP`. -/
def stackAddr (sp : Byte) : Word := hiLo 0x01 sp

/-- `Push(v)`. -/
def push (s : State) (v : Byte) : State := (busWrite s (stackAddr s.cpu.sp) v).setSp (s.cpu.sp - 1)

/-- `Pull()`. -/
def pull (s : State) : Byte × State :=
  let s := s.setSp (s.cpu.sp + 1)
  busRead s (stackAddr s.cpu.sp)

/-- Two pushes, high byte first (spec/20 R207). -/
def pushWord (s : State) (w : Word) : State := push (push s (hiByte w)) (loByte w)

/-- Two pulls, low byte first (spec/44 R603, R604). -/
def pullWord (s : State) : Word × State :=
  let lo := pull s
  let hi := pull lo.2
  (hiLo hi.1 lo.1, hi.2)

/-! ## The cycle count -/

/-- `branch_extra` (spec/30 R340, spec/44 R610): 0 not taken, 1 taken within the page of the next instruction,
2 taken to another page. -/
def branchExtra (taken : Bool) (next target : Word) : Nat :=
  if taken then (if hiByte target ≠ hiByte next then 2 else 1) else 0

/-- Sets the operation's hint and `cycles <- base + (mode_extra AND op_extra) + branch_extra` (spec/30 R340,
spec/60 R701). -/
def charge (i : Instr) (extra : Nat) (s : State) : State :=
  { s with
    cpu :=
      { s.cpu with
        opExtra := i.opExtra
        cycles := i.baseCycles s.params + (if s.cpu.modeExtra && i.opExtra then 1 else 0) + extra } }

/-! ## Taking an interrupt and returning from one -/

/-- The NMI vector (spec/60 R700). -/
def nmiVector : Word := 0xFFFA

/-- The reset vector (spec/60 R700). -/
def resetVector : Word := 0xFFFC

/-- The IRQ and BRK vector (spec/60 R700). -/
def irqVector : Word := 0xFFFE

/-- The steps NMI, IRQ and BRK share (spec/60 R720): push `ret`, high byte first, push the status with bit 4 as
`b`, set I, load the pc from the vector. -/
def enterFrom (ret : Word) (vector : Word) (b : Bool) (s : State) : State :=
  let s := push (pushWord s ret) (pushedStatus b s.cpu.p)
  let r := read16 (s.setP (setFlag .i true s.cpu.p)) vector
  r.2.setPc r.1

/-- `Enter(vector, b = 0)`, the entry of NMI and IRQ, 7 cycles (spec/60 R720). -/
def enterInterrupt (vector : Word) (s : State) : State := (enterFrom s.cpu.pc vector false s).setCycles 7

/-- The return from an interrupt (spec/44 R604, spec/60 R750): pull P, then the pc, with no adjustment. -/
def interruptReturn (s : State) : State :=
  let v := pull s
  let r := pullWord (v.2.setP (livePulled v.1))
  r.2.setPc r.1

end Sys2Proof.Machine
end

