-- ==== Sys2Proof/Machine/Operands.lean ====
section
/-! DEFINITION. The addressing modes and the operand fetch (spec/30 R320 to R332), as transformers of the state
that set the latches EA, mode_extra and M. The state they are given is the one after the instruction's bytes
have been fetched, so PC is the address of the next instruction. -/

namespace Sys2Proof.Machine

/-- Implied mode, the accumulator form included: `M <- A`, no hint (R320). -/
def implied (s : State) : State := { s with cpu := { s.cpu with m := s.cpu.a, modeExtra := false } }

/-- Whether an indexed address left the page of its base: the mode's hint (R326, R327, R331). -/
def pageCross (base ea : Word) : Bool := hiByte ea != hiByte base

/-- A mode that adds an index to a 16-bit base, mod 2^16, with the page-cross hint (R326, R327, R331). -/
def indexed (base : Word) (index : Byte) (s : State) : State :=
  let ea := base + zext16 index
  s.setEa ea (pageCross base ea)

/-- A 16-bit pointer in page 0, low byte at `p`, high byte at `p + 1` mod 256 (R330, R331). -/
def pointer (p : Byte) (s : State) : Word × State :=
  let lo := busRead s (zext16 p)
  let hi := busRead lo.2 (zext16 (p + 1))
  (hiLo hi.1 lo.1, hi.2)

/-- The effective address of a memory mode (R322 to R327, R330, R331). -/
def address (m : Mem) (s : State) : State :=
  match m with
  | .zp a => s.setEa (zext16 a) false
  | .zpX a => s.setEa (zext16 (a + s.cpu.x)) false
  | .zpY a => s.setEa (zext16 (a + s.cpu.y)) false
  | .abs a => s.setEa a false
  | .absX a => indexed a s.cpu.x s
  | .absY a => indexed a s.cpu.y s
  | .indX a =>
    let r := pointer (a + s.cpu.x) s
    r.2.setEa r.1 false
  | .indY a =>
    let r := pointer a s
    indexed r.1 s.cpu.y r.2

/-- `M <- MemRead(EA, 1)` (R332). -/
def loadM (s : State) : State :=
  let r := busRead s s.cpu.ea
  r.2.setM r.1

/-- The mode and the operand fetch of a reading instruction (R321, R332). The immediate byte stands at PC - 1
and has been read with the instruction's bytes. -/
def readOperand (o : Src) (s : State) : State :=
  match o with
  | .imm b => (s.setEa (s.cpu.pc - 1) false).setM b
  | .mem m => loadM (address m s)

/-- The mode and the operand fetch of a read-modify-write instruction on memory (R332). -/
def readMemory (m : Mem) (s : State) : State := loadM (address m s)

/-- The mode and the operand fetch of a shift or a rotate (R320, R332). -/
def shiftOperand (o : Rmw) (s : State) : State :=
  match o with
  | .acc => implied s
  | .mem m => readMemory m s

/-- `Store(R)`: back to the accumulator in implied mode, else to memory at EA (R320, spec/43 R550). -/
def storeResult (o : Rmw) (r : Byte) (s : State) : State :=
  match o with
  | .acc => s.setA r
  | .mem _ => busWrite s s.cpu.ea r

/-- The mode of JMP (R323, R329); the indirect pointer's high byte is read in the page of its low byte. -/
def jumpTarget (t : JmpTarget) (s : State) : State :=
  match t with
  | .abs a => s.setEa a false
  | .ind p =>
    let lo := busRead s p
    let hi := busRead lo.2 (hiLo (hiByte p) (loByte p + 1))
    hi.2.setEa (hiLo hi.1 lo.1) false

/-- The target of a branch: PC, the address of the next instruction, plus the signed offset (R328). -/
def branchTarget (off : Byte) (s : State) : Word := s.cpu.pc + sext16 off

end Sys2Proof.Machine
end

