-- ==== Sys2Proof/Machine/LoadStore.lean ====
section
/-! DEFINITION. Loads and stores (spec/40). Each meaning is given the state after the instruction's bytes have
been fetched (spec/60 R701). -/

namespace Sys2Proof.Machine

/-- What a step answers. -/
abbrev Result := Host.Outcome State Fault Refusal

/-- LDA (R401). -/
def execLda (o : Src) (s : State) : Result :=
  let s := readOperand o s
  .next (charge (.lda o) 0 ((s.setA s.cpu.m).setP (setNZ s.cpu.m s.cpu.p)))

/-- LDX (R402). -/
def execLdx (o : Src) (s : State) : Result :=
  let s := readOperand o s
  .next (charge (.ldx o) 0 ((s.setX s.cpu.m).setP (setNZ s.cpu.m s.cpu.p)))

/-- LDY (R403). -/
def execLdy (o : Src) (s : State) : Result :=
  let s := readOperand o s
  .next (charge (.ldy o) 0 ((s.setY s.cpu.m).setP (setNZ s.cpu.m s.cpu.p)))

/-- STA (R404). -/
def execSta (m : Mem) (s : State) : Result :=
  let s := address m s
  .next (charge (.sta m) 0 (busWrite s s.cpu.ea s.cpu.a))

/-- STX (R405). -/
def execStx (m : Mem) (s : State) : Result :=
  let s := address m s
  .next (charge (.stx m) 0 (busWrite s s.cpu.ea s.cpu.x))

/-- STY (R406). -/
def execSty (m : Mem) (s : State) : Result :=
  let s := address m s
  .next (charge (.sty m) 0 (busWrite s s.cpu.ea s.cpu.y))

end Sys2Proof.Machine
end

