-- ==== Sys2Proof/Machine/Arith.lean ====
section
/-! DEFINITION. Arithmetic, compare, increment and decrement (spec/42). Arithmetic is binary whatever D holds
(R500). -/

namespace Sys2Proof.Machine

/-- `AddCore(M)` on the accumulator and P (R501). -/
def addCore (m : Byte) (s : State) : State :=
  (s.setA (addResult s.cpu.a m (getFlag .c s.cpu.p))).setP (addFlags s.cpu.a m s.cpu.p)

/-- ADC (R501). -/
def execAdc (o : Src) (s : State) : Result :=
  let s := readOperand o s
  .next (charge (.adc o) 0 (addCore s.cpu.m s))

/-- SBC: ADC's body with the operand inverted (R502). -/
def execSbc (o : Src) (s : State) : Result :=
  let s := readOperand o s
  .next (charge (.sbc o) 0 (addCore (s.cpu.m ^^^ 0xFF) s))

/-- CMP (R503). -/
def execCmp (o : Src) (s : State) : Result :=
  let s := readOperand o s
  .next (charge (.cmp o) 0 (s.setP (compareFlags s.cpu.a s.cpu.m s.cpu.p)))

/-- CPX (R504). -/
def execCpx (o : Src) (s : State) : Result :=
  let s := readOperand o s
  .next (charge (.cpx o) 0 (s.setP (compareFlags s.cpu.x s.cpu.m s.cpu.p)))

/-- CPY (R505). -/
def execCpy (o : Src) (s : State) : Result :=
  let s := readOperand o s
  .next (charge (.cpy o) 0 (s.setP (compareFlags s.cpu.y s.cpu.m s.cpu.p)))

/-- INC (R506). -/
def execInc (m : Mem) (s : State) : Result :=
  let s := readMemory m s
  let r := s.cpu.m + 1
  .next (charge (.inc m) 0 ((busWrite s s.cpu.ea r).setP (setNZ r s.cpu.p)))

/-- INX (R507). -/
def execInx (s : State) : Result :=
  let s := implied s
  let r := s.cpu.x + 1
  .next (charge .inx 0 ((s.setX r).setP (setNZ r s.cpu.p)))

/-- INY (R508). -/
def execIny (s : State) : Result :=
  let s := implied s
  let r := s.cpu.y + 1
  .next (charge .iny 0 ((s.setY r).setP (setNZ r s.cpu.p)))

/-- DEC (R509). -/
def execDec (m : Mem) (s : State) : Result :=
  let s := readMemory m s
  let r := s.cpu.m - 1
  .next (charge (.dec m) 0 ((busWrite s s.cpu.ea r).setP (setNZ r s.cpu.p)))

/-- DEX (R510). -/
def execDex (s : State) : Result :=
  let s := implied s
  let r := s.cpu.x - 1
  .next (charge .dex 0 ((s.setX r).setP (setNZ r s.cpu.p)))

/-- DEY (R511). -/
def execDey (s : State) : Result :=
  let s := implied s
  let r := s.cpu.y - 1
  .next (charge .dey 0 ((s.setY r).setP (setNZ r s.cpu.p)))

end Sys2Proof.Machine
end

