-- ==== Sys2Proof/Machine/Control.lean ====
section
/-! DEFINITION. Control transfers (spec/44). -/

namespace Sys2Proof.Machine

/-- JMP (R601). -/
def execJmp (t : JmpTarget) (s : State) : Result :=
  let s := jumpTarget t s
  .next (charge (.jmp t) 0 (s.setPc s.cpu.ea))

/-- JSR: pushes the address of its own last byte (R602). -/
def execJsr (a : Word) (s : State) : Result :=
  let s := s.setEa a false
  .next (charge (.jsr a) 0 ((pushWord s (s.cpu.pc - 1)).setPc s.cpu.ea))

/-- RTS (R603). -/
def execRts (s : State) : Result :=
  let r := pullWord (implied s)
  .next (charge .rts 0 (r.2.setPc (r.1 + 1)))

/-- RTI (R604). -/
def execRti (s : State) : Result := .next (charge .rti 0 (interruptReturn (implied s)))

/-- BRK: the entry with b = 1 and the pc two past its opcode (R605, spec/60 R720). -/
def execBrk (s : State) : Result :=
  .next (charge .brk 0 (enterFrom (s.cpu.pc + 1) irqVector true (implied s)))

/-- The shared branch rule (R610): the target is committed only when the branch is taken. -/
def branch (i : Instr) (taken : Bool) (off : Byte) (s : State) : State :=
  let s := { s with cpu := { s.cpu with modeExtra := false } }
  let target := branchTarget off s
  charge i (branchExtra taken s.cpu.pc target) (if taken then s.setPc target else s)

/-- BCC (R611). -/
def execBcc (off : Byte) (s : State) : Result := .next (branch (.bcc off) (!getFlag .c s.cpu.p) off s)

/-- BCS (R612). -/
def execBcs (off : Byte) (s : State) : Result := .next (branch (.bcs off) (getFlag .c s.cpu.p) off s)

/-- BEQ (R613). -/
def execBeq (off : Byte) (s : State) : Result := .next (branch (.beq off) (getFlag .z s.cpu.p) off s)

/-- BMI (R614). -/
def execBmi (off : Byte) (s : State) : Result := .next (branch (.bmi off) (getFlag .n s.cpu.p) off s)

/-- BNE (R615). -/
def execBne (off : Byte) (s : State) : Result := .next (branch (.bne off) (!getFlag .z s.cpu.p) off s)

/-- BPL (R616). -/
def execBpl (off : Byte) (s : State) : Result := .next (branch (.bpl off) (!getFlag .n s.cpu.p) off s)

/-- BVC (R617). -/
def execBvc (off : Byte) (s : State) : Result := .next (branch (.bvc off) (!getFlag .v s.cpu.p) off s)

/-- BVS (R618). -/
def execBvs (off : Byte) (s : State) : Result := .next (branch (.bvs off) (getFlag .v s.cpu.p) off s)

end Sys2Proof.Machine
end

