-- ==== Sys2Proof/Machine/FlagOps.lean ====
section
/-! DEFINITION. The flag instructions and NOP (spec/45), and the illegal no-op (spec/30 R390). -/

namespace Sys2Proof.Machine

/-- An instruction that writes one flag to a constant (R650). -/
def writeFlag (i : Instr) (f : Flag) (v : Bool) (s : State) : State :=
  let s := implied s
  charge i 0 (s.setP (setFlag f v s.cpu.p))

/-- CLC (R651). -/
def execClc (s : State) : Result := .next (writeFlag .clc .c false s)

/-- SEC (R652). -/
def execSec (s : State) : Result := .next (writeFlag .sec .c true s)

/-- CLI (R653). -/
def execCli (s : State) : Result := .next (writeFlag .cli .i false s)

/-- SEI (R654). -/
def execSei (s : State) : Result := .next (writeFlag .sei .i true s)

/-- CLD (R655). -/
def execCld (s : State) : Result := .next (writeFlag .cld .d false s)

/-- SED (R656). -/
def execSed (s : State) : Result := .next (writeFlag .sed .d true s)

/-- CLV (R657). -/
def execClv (s : State) : Result := .next (writeFlag .clv .v false s)

/-- NOP (R658). -/
def execNop (s : State) : Result := .next (charge .nop 0 (implied s))

/-- An illegal opcode: nothing beyond its fetch, `ILLEGAL_CYCLES` (R390). -/
def execIllegal (op : Byte) (s : State) : Result := .next (charge (.illegal op) 0 (implied s))

end Sys2Proof.Machine
end

