-- ==== Sys2Proof/Machine/Logic.lean ====
section
/-! DEFINITION. Logic, bit test, shifts and rotates (spec/43). -/

namespace Sys2Proof.Machine

/-- AND (R551). -/
def execAnd (o : Src) (s : State) : Result :=
  let s := readOperand o s
  let r := s.cpu.a &&& s.cpu.m
  .next (charge (.and o) 0 ((s.setA r).setP (setNZ r s.cpu.p)))

/-- ORA (R552). -/
def execOra (o : Src) (s : State) : Result :=
  let s := readOperand o s
  let r := s.cpu.a ||| s.cpu.m
  .next (charge (.ora o) 0 ((s.setA r).setP (setNZ r s.cpu.p)))

/-- EOR (R553). -/
def execEor (o : Src) (s : State) : Result :=
  let s := readOperand o s
  let r := s.cpu.a ^^^ s.cpu.m
  .next (charge (.eor o) 0 ((s.setA r).setP (setNZ r s.cpu.p)))

/-- BIT (R554). -/
def execBit (m : Mem) (s : State) : Result :=
  let s := readMemory m s
  .next (charge (.bit m) 0 (s.setP (bitFlags s.cpu.a s.cpu.m s.cpu.p)))

/-- What a shift or a rotate does once its operand is in M: store the result, then the flags (R555 to R558). -/
def shiftWith (o : Rmw) (out : Bool) (r : Byte) (s : State) : State :=
  (storeResult o r s).setP (shiftFlags out r s.cpu.p)

/-- ASL (R555). -/
def execAsl (o : Rmw) (s : State) : Result :=
  let s := shiftOperand o s
  .next (charge (.asl o) 0 (shiftWith o (s.cpu.m.getLsbD 7) (s.cpu.m <<< 1) s))

/-- LSR (R556). -/
def execLsr (o : Rmw) (s : State) : Result :=
  let s := shiftOperand o s
  .next (charge (.lsr o) 0 (shiftWith o (s.cpu.m.getLsbD 0) (s.cpu.m >>> 1) s))

/-- The result of ROL (R557). -/
def rolResult (c : Bool) (m : Byte) : Byte := (m <<< 1) ||| (if c then 0x01 else 0x00)

/-- The result of ROR (R558). -/
def rorResult (c : Bool) (m : Byte) : Byte := (m >>> 1) ||| (if c then 0x80 else 0x00)

/-- ROL (R557). -/
def execRol (o : Rmw) (s : State) : Result :=
  let s := shiftOperand o s
  .next (charge (.rol o) 0 (shiftWith o (s.cpu.m.getLsbD 7) (rolResult (getFlag .c s.cpu.p) s.cpu.m) s))

/-- ROR (R558). -/
def execRor (o : Rmw) (s : State) : Result :=
  let s := shiftOperand o s
  .next (charge (.ror o) 0 (shiftWith o (s.cpu.m.getLsbD 0) (rorResult (getFlag .c s.cpu.p) s.cpu.m) s))

end Sys2Proof.Machine
end

