-- ==== Sys2Proof/Machine/Transfer.lean ====
section
/-! DEFINITION. Register transfers and the stack instructions (spec/41). -/

namespace Sys2Proof.Machine

/-- TAX (R451). -/
def execTax (s : State) : Result :=
  let s := implied s
  .next (charge .tax 0 ((s.setX s.cpu.a).setP (setNZ s.cpu.a s.cpu.p)))

/-- TAY (R452). -/
def execTay (s : State) : Result :=
  let s := implied s
  .next (charge .tay 0 ((s.setY s.cpu.a).setP (setNZ s.cpu.a s.cpu.p)))

/-- TXA (R453). -/
def execTxa (s : State) : Result :=
  let s := implied s
  .next (charge .txa 0 ((s.setA s.cpu.x).setP (setNZ s.cpu.x s.cpu.p)))

/-- TYA (R454). -/
def execTya (s : State) : Result :=
  let s := implied s
  .next (charge .tya 0 ((s.setA s.cpu.y).setP (setNZ s.cpu.y s.cpu.p)))

/-- TSX (R455). -/
def execTsx (s : State) : Result :=
  let s := implied s
  .next (charge .tsx 0 ((s.setX s.cpu.sp).setP (setNZ s.cpu.sp s.cpu.p)))

/-- TXS, which writes no flag (R456). -/
def execTxs (s : State) : Result :=
  let s := implied s
  .next (charge .txs 0 (s.setSp s.cpu.x))

/-- PHA (R457). -/
def execPha (s : State) : Result :=
  let s := implied s
  .next (charge .pha 0 (push s s.cpu.a))

/-- PHP: the byte pushed has bits 4 and 5 set (R458). -/
def execPhp (s : State) : Result :=
  let s := implied s
  .next (charge .php 0 (push s (s.cpu.p ||| 0x30)))

/-- PLA (R459). -/
def execPla (s : State) : Result :=
  let r := pull (implied s)
  .next (charge .pla 0 ((r.2.setA r.1).setP (setNZ r.1 r.2.cpu.p)))

/-- PLP (R460). -/
def execPlp (s : State) : Result :=
  let r := pull (implied s)
  .next (charge .plp 0 (r.2.setP (livePulled r.1)))

end Sys2Proof.Machine
end

