-- ==== Sys2Proof/Machine/Clock.lean ====
section
/-! DEFINITION. The CPU clock (spec/60 R701), the DMA step (spec/63 R1021), the interrupt checks (spec/60 R710,
R715), and the parts of the master tick (spec/63 R1002). -/

namespace Sys2Proof.Machine

/-- Goes on from a next state with `f`; a fault or a refusal stays as it is. -/
def thenDo (r : Result) (f : State → State) : Result :=
  match r with
  | .next s => .next (f s)
  | .fault e => .fault e
  | .refused e => .refused e

/-! ## Fetch, decode, execute -/

/-- An instruction's opcode byte with its bytes 1 and 2, a byte it does not have being 0, and the state after
the fetches. -/
structure Fetched where
  op : Byte
  lo : Byte
  hi : Byte
  after : State

/-- The instruction that the fetched bytes are. -/
def fetchedInstr (f : Fetched) : Instr := instrOf f.op f.lo f.hi

/-- Fetches the opcode, then the 0, 1 or 2 operand bytes its mode takes (spec/30 R301, spec/60 R701). -/
def fetchInstr (s : State) : Fetched :=
  let r0 := fetch s
  let s0 := r0.2.setOpcode r0.1
  match operandCount r0.1 with
  | 0 => ⟨r0.1, 0, 0, s0⟩
  | 1 =>
    let r1 := fetch s0
    ⟨r0.1, r1.1, 0, r1.2⟩
  | _ =>
    let r1 := fetch s0
    let r2 := fetch r1.2
    ⟨r0.1, r1.1, r2.1, r2.2⟩

/-- Fetch, decode and execute one instruction. -/
def runInstr (s : State) : Result :=
  let f := fetchInstr s
  exec (fetchedInstr f) f.after

/-- What ends a CPU clock: `cycles <- cycles - 1`, and nothing else of R110's state persists (spec/10 R110). -/
def countDown (s : State) : State := (s.setCycles (s.cpu.cycles - 1)).dropLatches

/-- `CPU.clk()` (R701): a whole instruction when `cycles = 0`, then one cycle counted. -/
def cpuClock (s : State) : Result :=
  if s.cpu.cycles = 0 then thenDo (runInstr s) countDown else .next (countDown s)

/-! ## OAM-DMA -/

/-- The address a DMA read uses: `(dma_page << 8) | dma_addr`. -/
def dmaSource (d : Dma) : Word := hiLo d.page d.addr

/-- `DmaStep()` (R1021): idle until an odd cycle, then a read on each even cycle and a write on each odd one. -/
def dmaStep (s : State) : State :=
  if s.dma.dummy then
    if s.cpuCycle % 2 = 1 then { s with dma := { s.dma with dummy := false } } else s
  else if s.cpuCycle % 2 = 0 then
    let r := busRead s (dmaSource s.dma)
    { r.2 with dma := { r.2.dma with data := r.1 } }
  else
    { s with
      ppu := oamWrite s.ppu s.dma.addr s.dma.data
      dma :=
        if s.dma.addr = 0xFF then { s.dma with active := false, dummy := true, addr := 0 }
        else { s.dma with addr := s.dma.addr + 1 } }

/-! ## The interrupt checks -/

/-- Whether interrupts can be serviced: no DMA, and the CPU between instructions (R702, R710, R715). -/
def atBoundary (s : State) : Bool := !s.dma.active && decide (s.cpu.cycles = 0)

/-- `NmiCheck()` (R710). -/
def nmiCheck (s : State) : State :=
  if s.nmiPending && atBoundary s then { enterInterrupt nmiVector s with nmiPending := false } else s

/-- `IrqCheck()` (R715). -/
def irqCheck (s : State) : State :=
  if s.irqLine && atBoundary s && !getFlag .i s.cpu.p then enterInterrupt irqVector s else s

/-! ## The master tick -/

/-- One dot of the PPU, raising the NMI latch at its event (spec/61 R802, R870). -/
def ppuTick (s : State) : State :=
  { s with ppu := ppuDot s.cart s.ppu, nmiPending := s.nmiPending || raisesNmi s.ppu }

/-- What ends a CPU-domain step: the APU's clock and the count of CPU cycles. -/
def afterCpuDomain (s : State) : State := { s with apu := apuClock s.params.apuFrameDiv s.apu, cpuCycle := s.cpuCycle + 1 }

/-- The CPU-domain step: DMA or the CPU, then the APU (spec/63 R1002). -/
def cpuDomainStep (s : State) : Result :=
  thenDo (if s.dma.active then .next (dmaStep s) else cpuClock s) afterCpuDomain

/-- What ends a master tick: the NMI check, the IRQ check, the tick count. -/
def endTick (s : State) : State :=
  let s := irqCheck (nmiCheck s)
  { s with masterTick := s.masterTick + 1 }

/-- One master tick (spec/63 R1002). -/
def masterStep (s : State) : Result :=
  let s := ppuTick s
  thenDo (if s.masterTick % 3 = 0 then cpuDomainStep s else .next s) endTick

/-! ## Placing an instruction where the next step fetches it -/

/-- Whether a CPU address can hold an instruction byte: RAM, or PRG the cartridge claims. -/
def holdsCode (c : Cart) (addr : Nat) : Bool :=
  decide (addr ≤ 0x1FFF) || (decide (0x8000 ≤ addr) && decide ((cartCpuRead c addr).isSome))

/-- The state with one byte placed at a CPU address, as a loader outside the machine would. -/
def placeByte (s : State) (addr : Nat) (b : Byte) : State :=
  if addr ≤ 0x1FFF then { s with ram := cellSet s.ram (addr % 0x0800) b }
  else { s with cart := cartWithPrgByte s.cart addr b }

/-- The state with the bytes placed from an address on, wrapping at 0xFFFF. -/
def placeBytes (s : State) (addr : Word) : List Byte → State
  | [] => s
  | b :: rest => placeBytes (placeByte s addr.toNat b) (addr + 1) rest

/-- The state in which the next master tick is a CPU-domain step that fetches: `cycles = 0`, no DMA, the tick
count a multiple of 3 (notes/assumptions/7.md). -/
def readyToFetch (s : State) : State :=
  { s with
    cpu := { s.cpu with cycles := 0 }
    dma := { s.dma with active := false }
    masterTick := s.masterTick - s.masterTick % 3 }

/-- Where the bytes are placed: at PC when all three addresses can hold code, else at 0x0000
(notes/assumptions/7.md). -/
def codeAddr (s : State) : Word :=
  let pc := s.cpu.pc
  if holdsCode s.cart pc.toNat && holdsCode s.cart (pc + 1).toNat && holdsCode s.cart (pc + 2).toNat then pc else 0

/-- The state with an instruction's table bits placed where the next step fetches them. -/
def placeInstr (s : State) (nbits w : Nat) : State :=
  let s := (readyToFetch s).setPc (codeAddr s)
  placeBytes s s.cpu.pc (tableBytes nbits w)

end Sys2Proof.Machine
end

