-- ==== Sys2Proof/Machine/Step.lean ====
section
/-! DEFINITION. One step of the machine, which is one master tick (spec/63 R1002), and the placing of an
instruction where the next step fetches it. -/

namespace Sys2Proof.Machine

/-- `step()` (spec/63 R1002). -/
def step (s : State) : Host.Outcome State Fault Refusal := masterStep s

/-- The state with an instruction, its table bits `w`, stored where the next step fetches, and that step being
one that fetches (notes/assumptions/7.md). -/
def State.withFetchWord (s : State) (nbits w : Nat) : State := placeInstr s nbits w

end Sys2Proof.Machine
end

