-- ==== Sys2Proof/Machine/HostSurface.lean ====
section
/-! DEFINITION. What the outside world does to the machine between two steps (spec/63 R1045, R1050; spec/70
R1100): reset, the frame flag, the audio sample, the controllers, the IRQ line, loading a cartridge. -/

namespace Sys2Proof.Machine

/-- The PPU's reset: every field but the three memories and the frame (spec/70 R1100 step 2). -/
def ppuReset (p : Ppu) : Ppu := { Ppu.reset with oam := p.oam, palette := p.palette, nt := p.nt, frame := p.frame }

/-- The controller ports' reset: the host's button states are kept (R1100 step 4). -/
def portsReset (q : Ports) : Ports := { Ports.reset with host0 := q.host0, host1 := q.host1 }

/-- The state after steps 1 to 4 of R1100, with the CPU's registers of step 5 but for the pc. The count of the
latches' draws goes on, so that no draw comes twice. -/
def resetUnits (s : State) : State :=
  { s with
    cart := cartReset s.cart
    ppu := ppuReset s.ppu
    apu := Apu.reset
    dma := Dma.reset
    nmiPending := false
    ports := portsReset s.ports
    masterTick := 0
    cpuCycle := 0
    cpu := { Cpu.reset s.params with latchDraws := s.cpu.latchDraws } }

/-- `reset()` (R1100): the pc is read through the bus after every other unit is reset; memories are kept. -/
def systemReset (s : State) : State :=
  let r := read16 (resetUnits s) resetVector
  r.2.setPc r.1

/-- `frame_ready()` (R1050): the frame-complete flag, consumed. -/
def frameReady (s : State) : Bool × State :=
  (s.ppu.frameComplete, { s with ppu := { s.ppu with frameComplete := false } })

/-- `pop_audio_sample()` (R1050, spec/62 R970): the mixer's value now. -/
def popAudioSample (s : State) : ℚ := mixSample s.apu

/-- `set_controller_state(p, b)` (R1050): player 0 or 1. -/
def setControllerState (player : Fin 2) (b : Byte) (s : State) : State :=
  if player = 0 then { s with ports := { s.ports with host0 := b } }
  else { s with ports := { s.ports with host1 := b } }

/-- The environment drives the IRQ input (spec/60 R715; notes/assumptions/5.md). -/
def setIrqLine (level : Bool) (s : State) : State := { s with irqLine := level }

/-- Loading a cartridge, before any step; a mapper other than 0 and 1, or contents that do not fit the header,
is refused (R1045). -/
def loadCartridge (img : CartImage) (s : State) : Host.Outcome State Fault Refusal :=
  match imageReadable img, cartOfImage img with
  | true, some c => .next { s with cart := c }
  | _, _ => .refused (.cartridgeInvalid img.mapperId)

end Sys2Proof.Machine
end

