-- ==== Sys2Proof/Safety.lean ====
section
/-! DEFINITION. What counts as a safe run, the invariants of the machine, and the vocabulary that claims about
instructions are stated in. -/

namespace Sys2Proof.Machine

/-! ## Safe outcomes -/

/-- A step is safe when it answers a next state; in this design every step is (spec/00 R15). -/
def Safe (r : Result) : Prop := ∃ t, r = .next t

/-! ## Invariants -/

/-- `P.U = 1` and `P.B = 0` (spec/10 R106). -/
def statusOk (p : Byte) : Bool := getFlag .u p && !getFlag .b p

/-- The CPU: the live status bits (R106), `cycles` within 0 to 8 (R110). -/
def cpuOk (c : Cpu) : Bool := statusOk c.p && decide (c.cycles ≤ 8)

/-- The raster position: scanline -1 to 260, dot 0 to 340 (spec/61 R801). -/
def rasterOk (p : Ppu) : Bool := decide (-1 ≤ p.scanline) && decide (p.scanline ≤ 260) && decide (p.dot ≤ 340)

/-- Eight sprite slots, at most eight of them in use (spec/61 R801). -/
def spritesOk (p : Ppu) : Bool := decide (p.slots.length = 8) && decide (p.spriteCount ≤ 8)

/-- PPUSTATUS bits 4 to 0 are always 0 (spec/61 R801). -/
def ppuStatusOk (p : Ppu) : Bool := p.status &&& 0x1F == 0

/-- A length counter's range, 0 to 254 (spec/62 R901). -/
def lengthOk (b : Byte) : Bool := decide (b.toNat ≤ 254)

/-- The parameters that the cycle counter is loaded from are within its range, 0 to 8 (spec/00 R10, spec/10
R110). -/
def paramsOk (q : Params) : Bool := decide (q.resetCycles ≤ 8) && q.illegalCycles.all (fun e => decide (e.2 ≤ 8))

/-- The APU's ranges (spec/62 R901): the length counters, the noise register never 0 (R951), the DMC's bit
counter and silence (R956), the frame counter below the threshold that resets it, the prescaler below
`APU_FRAME_DIV` (R920). -/
def apuOk (div : FrameDiv) (s : Apu) : Bool :=
  lengthOk s.pulse1.length && lengthOk s.pulse2.length && lengthOk s.triangle.length && lengthOk s.noise.length &&
    s.noise.lfsr != 0 && decide (1 ≤ s.dmc.bitsLeft) && decide (s.dmc.bitsLeft ≤ 8) && s.dmc.silence &&
    decide (s.fc < (if s.fcMode then 18640 else 14914)) && decide (s.fcPhase < div.calls)

/-- Mapper 1's shift count, 0 to 4 (spec/63 R1042). -/
def mapperOk (c : Cart) : Bool :=
  match c with
  | .serial m => decide (m.srCount ≤ 4)
  | _ => true

/-- The machine's invariant: every field within the range the spec gives it, every memory in canonical form. -/
def State.Inv (s : State) : Bool :=
  paramsOk s.params && cpuOk s.cpu && rasterOk s.ppu && spritesOk s.ppu && ppuStatusOk s.ppu &&
    apuOk s.params.apuFrameDiv s.apu && mapperOk s.cart && Memory.wf s

/-! ## The vocabulary of claims -/

/-- An official instruction form's bytes and base cycle count, whatever the parameters are. -/
def form (i : Instr) (bytes : List Byte) (cycles : Nat) : Prop := encode i = bytes ∧ ∀ q, i.baseCycles q = cycles

/-- The eight forms of ADC AND CMP EOR LDA ORA SBC with their opcode bytes and base cycles (spec/30 R350). -/
def aluForms (mk : Src → Instr) (imm zp zpX abs absX absY indX indY : Byte) : Prop :=
  ∀ (b : Byte) (w : Word),
    form (mk (.imm b)) [imm, b] 2 ∧ form (mk (.mem (.zp b))) [zp, b] 3 ∧ form (mk (.mem (.zpX b))) [zpX, b] 4 ∧
    form (mk (.mem (.abs w))) [abs, loByte w, hiByte w] 4 ∧ form (mk (.mem (.absX w))) [absX, loByte w, hiByte w] 4 ∧
    form (mk (.mem (.absY w))) [absY, loByte w, hiByte w] 4 ∧ form (mk (.mem (.indX b))) [indX, b] 6 ∧
    form (mk (.mem (.indY b))) [indY, b] 5

/-- The four memory forms of a read-modify-write instruction (spec/30 R350). -/
def rmwForms (mk : Mem → Instr) (zp zpX abs absX : Byte) : Prop :=
  ∀ (b : Byte) (w : Word),
    form (mk (.zp b)) [zp, b] 5 ∧ form (mk (.zpX b)) [zpX, b] 6 ∧ form (mk (.abs w)) [abs, loByte w, hiByte w] 6 ∧
    form (mk (.absX w)) [absX, loByte w, hiByte w] 7

/-- The three forms of CPX and CPY (spec/42 R504, R505). -/
def indexCompareForms (mk : Src → Instr) (imm zp abs : Byte) : Prop :=
  ∀ (b : Byte) (w : Word),
    form (mk (.imm b)) [imm, b] 2 ∧ form (mk (.mem (.zp b))) [zp, b] 3 ∧
    form (mk (.mem (.abs w))) [abs, loByte w, hiByte w] 4

/-- N and Z are those of the value (spec/00 R13). -/
def nzFrom (v q : Byte) : Prop := getFlag .n q = v.getLsbD 7 ∧ getFlag .z q = decide (v = 0)

/-- Every flag outside the list is the same in both status bytes. -/
def flagsKeptBut (fs : List Flag) (p q : Byte) : Prop := ∀ f, f ∉ fs → getFlag f q = getFlag f p

/-- The CPU `c` with the cycle counter and the four latches an instruction sets taken from `d`: what an
instruction that writes no register leaves. -/
def latched (c d : Cpu) : Cpu :=
  { c with cycles := d.cycles, ea := d.ea, m := d.m, modeExtra := d.modeExtra, opExtra := d.opExtra }

/-- The state after an instruction: the devices and memories of `u`; RAM, the cartridge and the PPU's memories unchanged
from `s`; the CPU of `c` but for the counter and the latches. -/
def leaves (s u : State) (c : Cpu) (t : State) : Prop :=
  t = { u with cpu := t.cpu } ∧ (∀ k, ramAt t k = ramAt s k) ∧ t.cart = s.cart ∧ t.ppu.oam = s.ppu.oam ∧
    t.ppu.palette = s.ppu.palette ∧ t.ppu.nt = s.ppu.nt ∧ t.cpu = latched c t.cpu

/-- Whether the cartridge claims a CPU address on a read. -/
def claimsRead (s : State) (addr : Word) : Bool := (cartCpuRead s.cart addr.toNat).isSome

/-- Whether the cartridge claims a CPU address on a write. -/
def claimsWrite (s : State) (addr : Word) (v : Byte) : Bool := (cartCpuWrite s.cart addr.toNat v).isSome

/-- One bus write of `v` at `ea` in the state `u`, seen from the state `t` after the instruction: the write, and
which bytes of memory read as before it. -/
def wrote (u : State) (ea : Word) (v : Byte) (t : State) : Prop :=
  t = { busWrite u ea v with cpu := t.cpu } ∧
  (ea.toNat ≤ 0x1FFF → ∀ a : Word,
    (busRead t a).1 = if a.toNat ≤ 0x1FFF ∧ a.toNat % 0x800 = ea.toNat % 0x800 then v else (busRead u a).1) ∧
  (claimsWrite u ea v = true → ea.toNat < 0x8000 → ∀ a : Word,
    (busRead t a).1 = if a = ea then v else (busRead u a).1) ∧
  (0x1FFF < ea.toNat → ∀ k, ramAt t k = ramAt u k)

/-- One more cycle when the addressing mode's page-cross hint is set (spec/30 R340). -/
def crossCycle (s : State) : Nat := if s.cpu.modeExtra then 1 else 0

/-- The value a bus read answers (spec/20 R201). -/
def busValue (s : State) (addr : Word) : Byte := (busRead s addr).1

/-- The cartridge's program ROM. -/
def cartPrg (c : Cart) : Cells 8 :=
  match c with
  | .empty _ => []
  | .fixed m => m.prg
  | .serial m => m.prg

/-- The raster position as a number of dots from the start of the pre-render line. -/
def rasterIndex (p : Ppu) : Int := (p.scanline + 1) * 341 + (p.dot : Int)

/-- `n` DMA steps, one per CPU cycle, nothing else running. -/
def dmaRun : Nat → State → State
  | 0, s => s
  | n + 1, s =>
    let t := dmaStep s
    dmaRun n { t with cpuCycle := t.cpuCycle + 1 }

/-- `n` reads of controller port 0, the values in order. -/
def portReads : Nat → Ports → List Byte
  | 0, _ => []
  | n + 1, q => (portsRead0 q).1 :: portReads n (portsRead0 q).2

end Sys2Proof.Machine
end

