-- ==== Sys2Proof/Certificates/Slice0/Obligations.lean ====
section
/-! DEFINITION. The statements for the provers. Each docstring names the rule of spec/ that it formalises. -/

open Sys2Proof Sys2Proof.Machine

/-! ## Encoding -/

/-- R300, R302: decoding the bytes of a well-formed instruction gives it back, with every operand. -/
def Obligations.DecodeUndoesEncode : Prop :=
  ∀ (i : Instr) (rest : List Byte), i.wf = true → decode (encode i ++ rest) = .ok (i, rest)

/-- R302: what the decoder reads is a well-formed instruction whose bytes are the ones read. -/
def Obligations.EncodeUndoesDecode : Prop :=
  ∀ (bytes : List Byte) (i : Instr) (rest : List Byte),
    decode bytes = .ok (i, rest) → i.wf = true ∧ encode i ++ rest = bytes

/-- R301, R302, R390: every opcode byte decodes, takes 1, 2 or 3 bytes by its opcode alone, and decodes to the
illegal no-op exactly when it is one of the 105 illegal bytes. -/
def Obligations.EveryOpcodeByteDecodes : Prop :=
  ∀ (op lo hi : Byte) (rest : List Byte), ∃ i,
    decode (op :: lo :: hi :: rest) = .ok (i, (lo :: hi :: rest).drop (operandCount op)) ∧ operandCount op ≤ 2 ∧
    (i = .illegal op ↔ illegalByte op = true) ∧ (∀ op', i = .illegal op' → op' = op)

/-- R350: one word of each family decodes to the instruction it stands for. -/
def Obligations.SampleWordsDecode : Prop :=
  decodeTableWord 24 0x1234BD = some (.lda (.mem (.absX 0x1234))) ∧
  decodeTableWord 16 0x40B6 = some (.ldx (.mem (.zpY 0x40))) ∧
  decodeTableWord 8 0x9A = some .txs ∧
  decodeTableWord 16 0x0771 = some (.adc (.mem (.indY 0x07))) ∧
  decodeTableWord 8 0x6A = some (.ror .acc) ∧
  decodeTableWord 24 0x02FF6C = some (.jmp (.ind 0x02FF)) ∧
  decodeTableWord 16 0xFBD0 = some (.bne 0xFB) ∧
  decodeTableWord 8 0xB8 = some .clv ∧
  decodeTableWord 8 0x02 = some (.illegal 0x02)

/-- R340, R341, R350, R390: an instruction's cycle count is its opcode's base count, plus one when the mode's hint
and the opcode's hint are both set, plus the branch's own cycles. The base count is the map's, and the parameter
ILLEGAL_CYCLES of the byte for an illegal opcode; the opcode's hint is that of the nine mnemonics. That the
parameters are a field of the state is the model's choice (log entry 8). -/
def Obligations.CycleCountCombinesTheHints : Prop :=
  ∀ (i : Instr) (op : Byte) (extra : Nat) (s : State), i.wf = true → i.opcode = some op →
    (charge i extra s).cpu.cycles =
      (if illegalByte op = true then s.params.illegalCount op else (descriptor op).base) +
        (if s.cpu.modeExtra = true ∧
            (descriptor op).op ∈ [Mnemonic.adc, .and, .cmp, .eor, .lda, .ldx, .ldy, .ora, .sbc] then 1 else 0) + extra

/-! ## Stepping -/

/-- R701, R1002: at a CPU-domain tick with no DMA and `cycles = 0`, when the bytes the bus reads at the pc decode
to an instruction, the step is the dot, exec of that instruction on the fetched state, one cycle counted with the
transient latches left open (R110), and what ends the tick. The bytes lie where a read has no side effect: CPU RAM or
the range above the devices. -/
def Obligations.StepRunsDecodedInstruction : Prop :=
  ∀ (s t : State) (i : Instr) (rest : List Byte),
    s.masterTick % 3 = 0 → s.dma.active = false → s.cpu.cycles = 0 →
    (∀ k : Fin 3, (s.cpu.pc + BitVec.ofNat 16 k).toNat ≤ 0x1FFF ∨ 0x4018 ≤ (s.cpu.pc + BitVec.ofNat 16 k).toNat) →
    decode [busValue s s.cpu.pc, busValue s (s.cpu.pc + 1), busValue s (s.cpu.pc + 2)] = .ok (i, rest) →
    exec i { ppuTick s with
      cpu := { s.cpu with pc := s.cpu.pc + BitVec.ofNat 16 (encode i).length, opcode := busValue s s.cpu.pc } } = .next t →
    step s = .next (endTick (afterCpuDomain (countDown t)))

/-- R801, R106, R901, R1042: from every state that meets the invariant (the live status bits, the raster, the
sprite slots, PPUSTATUS, the APU's ranges, mapper 1's count, every memory in canonical form) a step gives a
state that meets it. -/
def Obligations.StepKeepsMachineInvariant : Prop :=
  ∀ s t : State, s.Inv = true → step s = .next t → t.Inv = true

/-- The invariant holds right after power-on and reset, at R10's defaults and for every parameters within R110's
range. -/
def Obligations.ResetMeetsMachineInvariant : Prop :=
  State.reset.Inv = true ∧ ∀ q : Params, paramsOk q = true → (State.powerOn q).Inv = true

/-- R217, R1041, R1043: no step, whatever it executes, changes a byte of the cartridge's program ROM. -/
def Obligations.StepNeverWritesProgramRom : Prop :=
  ∀ s t : State, step s = .next t → cartPrg t.cart = cartPrg s.cart

/-- R1001, R1002, R1050, R10: a step counts one master tick, and one CPU cycle on every third; it changes neither
what the host owns, the button states, nor the level of the IRQ input, nor the parameters. -/
def Obligations.StepCountsTicksAndKeepsInputs : Prop :=
  ∀ s t : State, step s = .next t →
    t.masterTick = s.masterTick + 1 ∧ t.cpuCycle = s.cpuCycle + (if s.masterTick % 3 = 0 then 1 else 0) ∧
    t.ports.host0 = s.ports.host0 ∧ t.ports.host1 = s.ports.host1 ∧ t.irqLine = s.irqLine ∧
    t.params = s.params

/-- R1100, R801, R901, R1042: the system reset, every register written out. The mapper's registers, the PPU's, the
APU's, the DMA coordinator's, the ports' and the CPU's take these values; memories, the frame, cartridge contents,
the host's button states, the IRQ level and the parameters are kept; the pc is read through the bus after the
units are reset. The transient latches of R110, which R1100 does not name, are 0 by this model's choice, and the
model's count of their draws goes on (log entry 9). Secondary OAM is 0xFF, as R801's table says, where R1100's
step 2 says "sprite slots 0", by this model's choice too (log entry 19). -/
def Obligations.SystemResetValues : Prop :=
  ∀ s : State,
    let cart : Cart :=
      match s.cart with
      | .empty mirroring => .empty mirroring
      | .fixed m => .fixed m
      | .serial m => .serial { m with control := 0x0C, sr := 0, srCount := 0, chr0 := 0, chr1 := 0, prgBank := 0 }
    let env : Envelope := { start := false, div := 0, decay := 0 }
    let pulse : Pulse :=
      { duty := 0, halt := false, constVol := false, vol := 0, swEnable := false, swPeriod := 0, swNegate := false,
        swShift := 0, swReload := false, swDiv := 0, period := 0, timer := 0, seq := 0, length := 0, env := env }
    let vectorByte (a : Word) : Byte := busValue { s with cart := cart } a
    systemReset s =
      { s with
        cart := cart
        ppu :=
          { scanline := -1, dot := 0, v := 0, t := 0, fineX := 0, w := false, readBuffer := 0, ctrl := 0, mask := 0,
            status := 0, oamAddr := 0, oam := s.ppu.oam, palette := s.ppu.palette, nt := s.ppu.nt, nextTile := 0,
            nextAttr := 0, nextLo := 0, nextHi := 0, shPatLo := 0, shPatHi := 0, shAttrLo := 0, shAttrHi := 0,
            slots := List.replicate 8 { y := 0xFF, tile := 0xFF, attr := 0xFF, x := 0xFF, patLo := 0, patHi := 0 },
            spriteCount := 0, spriteZeroPossible := false, frame := s.ppu.frame, frameComplete := false }
        apu :=
          { pulse1 := pulse, pulse2 := pulse
            triangle :=
              { control := false, linReloadVal := 0, linCounter := 0, linReloadFlag := false, period := 0, timer := 0,
                seq := 0, length := 0 }
            noise :=
              { halt := false, constVol := false, vol := 0, mode := false, periodIdx := 0, timer := 0, lfsr := 1,
                length := 0, env := env }
            dmc :=
              { irqEnable := false, loop := false, rateIdx := 0, level := 0, sampleAddr := 0, sampleLen := 0, timer := 0,
                shift := 0, bitsLeft := 8, silence := true }
            enPulse1 := false, enPulse2 := false, enTriangle := false, enNoise := false, enDmc := false, fc := 0,
            fcMode := false, fcInhibit := false, frameIrq := false, fcPhase := 0 }
        dma := { active := false, dummy := true, page := 0, addr := 0, data := 0 }
        nmiPending := false
        ports := { strobe := false, shift0 := 0, shift1 := 0, host0 := s.ports.host0, host1 := s.ports.host1 }
        masterTick := 0
        cpuCycle := 0
        cpu :=
          { a := 0, x := 0, y := 0, sp := 0xFD, pc := hiLo (vectorByte 0xFFFD) (vectorByte 0xFFFC), p := 0x24,
            cycles := s.params.resetCycles, opcode := 0, ea := 0, m := 0, modeExtra := false, opExtra := false,
            latchDraws := s.cpu.latchDraws } }

/-! ## The CPU bus -/

/-- R203: CPU RAM is 2 KB mirrored four times: a write through one mirror is read back through every mirror, every
other address reads as before, and at reset every cell is its POWER_ON_MEMORY draw. -/
def Obligations.RamMirrorsReadBack : Prop :=
  (∀ k, ramAt State.reset k = Config.powerOnMemory .cpuRam k) ∧
  ∀ (s : State) (a b : Word) (v : Byte), a.toNat ≤ 0x1FFF →
    busValue (busWrite s a v) b =
      (if b.toNat ≤ 0x1FFF ∧ b.toNat % 0x800 = a.toNat % 0x800 then v else busValue s b) ∧
    { busWrite s a v with ram := s.ram } = s

/-- R204, R811: an address in 0x2000 to 0x3FFF selects PPU register `addr & 7`, on reads and on writes. -/
def Obligations.PpuRegistersMirrorEveryEightBytes : Prop :=
  ∀ (s : State) (a b : Word) (v : Byte),
    0x2000 ≤ a.toNat → a.toNat ≤ 0x3FFF → 0x2000 ≤ b.toNat → b.toNat ≤ 0x3FFF → a.toNat % 8 = b.toNat % 8 →
    busRead s a = busRead s b ∧ busWrite s a v = busWrite s b v

/-- R201, R202, R210, R1041: an address that neither the cartridge nor a device answers reads 0x00 and changes
nothing; a write above 0x4017 that the cartridge does not claim, and one to mapper 0's ROM, is dropped. -/
def Obligations.UnclaimedAccessesDoNothing : Prop :=
  ∀ (s : State) (a : Word) (v : Byte),
    (claimsRead s a = false → (0x4000 ≤ a.toNat ∧ a.toNat ≤ 0x4014 ∨ 0x4018 ≤ a.toNat) → busRead s a = (0x00, s)) ∧
    (0x4018 ≤ a.toNat → (claimsWrite s a v = false ∨ ∃ m, s.cart = .fixed m) → busWrite s a v = s)

/-- R211: outside PPUSTATUS, PPUDATA, 0x4015, 0x4016 and 0x4017 a read changes nothing. -/
def Obligations.OtherReadsHaveNoSideEffect : Prop :=
  ∀ (s : State) (a : Word),
    ¬ (0x2000 ≤ a.toNat ∧ a.toNat ≤ 0x3FFF ∧ (a.toNat % 8 = 2 ∨ a.toNat % 8 = 7)) →
    a.toNat ≠ 0x4015 → a.toNat ≠ 0x4016 → a.toNat ≠ 0x4017 → (busRead s a).2 = s

/-! ## Addressing modes -/

/-- R322 to R327, R330, R331: the memory modes set EA and the page-cross hint and change nothing else. The zero-page
sums wrap in page 0 and the absolute sums mod 2^16; the pointer of `(zp,X)` and of `(zp),Y` is two bytes of page 0,
low first, wrapping in page 0. -/
def Obligations.AddressingModesComputeEffectiveAddress : Prop :=
  ∀ (s : State) (a : Byte) (w : Word),
    let z (n : Nat) : Byte := busValue s (BitVec.ofNat 16 (n % 256))
    address (.zp a) s = s.setEa (BitVec.ofNat 16 a.toNat) false ∧
    address (.zpX a) s = s.setEa (BitVec.ofNat 16 ((a.toNat + s.cpu.x.toNat) % 256)) false ∧
    address (.zpY a) s = s.setEa (BitVec.ofNat 16 ((a.toNat + s.cpu.y.toNat) % 256)) false ∧
    address (.abs w) s = s.setEa w false ∧
    address (.absX w) s =
      s.setEa (BitVec.ofNat 16 (w.toNat + s.cpu.x.toNat)) (decide (255 < w.toNat % 256 + s.cpu.x.toNat)) ∧
    address (.absY w) s =
      s.setEa (BitVec.ofNat 16 (w.toNat + s.cpu.y.toNat)) (decide (255 < w.toNat % 256 + s.cpu.y.toNat)) ∧
    address (.indX a) s =
      s.setEa (BitVec.ofNat 16 ((z (a.toNat + s.cpu.x.toNat + 1)).toNat * 256 + (z (a.toNat + s.cpu.x.toNat)).toNat))
        false ∧
    address (.indY a) s =
      s.setEa (BitVec.ofNat 16 ((z (a.toNat + 1)).toNat * 256 + (z a.toNat).toNat + s.cpu.y.toNat))
        (decide (255 < (z a.toNat).toNat + s.cpu.y.toNat))

/-- R321, R332: an operand is fetched once: the immediate byte, or one bus read at EA, whether the instruction reads
its operand or modifies it. -/
def Obligations.OperandIsReadOnce : Prop :=
  ∀ (s : State) (b : Byte) (m : Mem),
    let ea := (address m s).cpu.ea
    (readOperand (.imm b) s).cpu.m = b ∧ { readOperand (.imm b) s with cpu := s.cpu } = s ∧
    (readOperand (.mem m) s).cpu.m = (busRead s ea).1 ∧
    { readOperand (.mem m) s with cpu := s.cpu } = (busRead s ea).2 ∧
    (readOperand (.mem m) s).cpu.ea = ea ∧ (readOperand (.mem m) s).cpu.modeExtra = (address m s).cpu.modeExtra ∧
    readMemory m s = readOperand (.mem m) s

/-! ## Loads and stores -/

/-- R401: LDA. -/
def Obligations.LdaLoadsAccumulator : Prop :=
  aluForms .lda 0xA9 0xA5 0xB5 0xAD 0xBD 0xB9 0xA1 0xB1 ∧
  ∀ (o : Src) (s : State), let u := readOperand o s
    ∃ t, exec (.lda o) s = .next t ∧ leaves s u { s.cpu with a := u.cpu.m, p := t.cpu.p } t ∧
      nzFrom u.cpu.m t.cpu.p ∧ flagsKeptBut [.n, .z] s.cpu.p t.cpu.p ∧
      t.cpu.cycles = (Instr.lda o).baseCycles s.params + crossCycle u

/-- R402, R403: LDX and LDY. -/
def Obligations.LdxLdyLoadIndexRegisters : Prop :=
  (∀ (b : Byte) (w : Word),
    form (.ldx (.imm b)) [0xA2, b] 2 ∧ form (.ldx (.mem (.zp b))) [0xA6, b] 3 ∧ form (.ldx (.mem (.zpY b))) [0xB6, b] 4 ∧
    form (.ldx (.mem (.abs w))) [0xAE, loByte w, hiByte w] 4 ∧
    form (.ldx (.mem (.absY w))) [0xBE, loByte w, hiByte w] 4 ∧
    form (.ldy (.imm b)) [0xA0, b] 2 ∧ form (.ldy (.mem (.zp b))) [0xA4, b] 3 ∧ form (.ldy (.mem (.zpX b))) [0xB4, b] 4 ∧
    form (.ldy (.mem (.abs w))) [0xAC, loByte w, hiByte w] 4 ∧
    form (.ldy (.mem (.absX w))) [0xBC, loByte w, hiByte w] 4) ∧
  ∀ (o : Src) (s : State), let u := readOperand o s
    (∃ t, exec (.ldx o) s = .next t ∧ leaves s u { s.cpu with x := u.cpu.m, p := t.cpu.p } t ∧
      nzFrom u.cpu.m t.cpu.p ∧ flagsKeptBut [.n, .z] s.cpu.p t.cpu.p ∧
      t.cpu.cycles = (Instr.ldx o).baseCycles s.params + crossCycle u) ∧
    (∃ t, exec (.ldy o) s = .next t ∧ leaves s u { s.cpu with y := u.cpu.m, p := t.cpu.p } t ∧
      nzFrom u.cpu.m t.cpu.p ∧ flagsKeptBut [.n, .z] s.cpu.p t.cpu.p ∧
      t.cpu.cycles = (Instr.ldy o).baseCycles s.params + crossCycle u)

/-- R404 to R406: STA, STX and STY write their register at EA, read nothing there, change no register and no
flag, and cost their base count whether or not a page is crossed. -/
def Obligations.StoresWriteRegister : Prop :=
  (∀ (b : Byte) (w : Word),
    form (.sta (.zp b)) [0x85, b] 3 ∧ form (.sta (.zpX b)) [0x95, b] 4 ∧ form (.sta (.abs w)) [0x8D, loByte w, hiByte w] 4 ∧
    form (.sta (.absX w)) [0x9D, loByte w, hiByte w] 5 ∧ form (.sta (.absY w)) [0x99, loByte w, hiByte w] 5 ∧
    form (.sta (.indX b)) [0x81, b] 6 ∧ form (.sta (.indY b)) [0x91, b] 6 ∧
    form (.stx (.zp b)) [0x86, b] 3 ∧ form (.stx (.zpY b)) [0x96, b] 4 ∧ form (.stx (.abs w)) [0x8E, loByte w, hiByte w] 4 ∧
    form (.sty (.zp b)) [0x84, b] 3 ∧ form (.sty (.zpX b)) [0x94, b] 4 ∧ form (.sty (.abs w)) [0x8C, loByte w, hiByte w] 4) ∧
  ∀ (m : Mem) (s : State), let ea := (address m s).cpu.ea
    (∃ t, exec (.sta m) s = .next t ∧ wrote s ea s.cpu.a t ∧ t.cpu = latched s.cpu t.cpu ∧
      t.cpu.cycles = (Instr.sta m).baseCycles s.params) ∧
    (∃ t, exec (.stx m) s = .next t ∧ wrote s ea s.cpu.x t ∧ t.cpu = latched s.cpu t.cpu ∧
      t.cpu.cycles = (Instr.stx m).baseCycles s.params) ∧
    (∃ t, exec (.sty m) s = .next t ∧ wrote s ea s.cpu.y t ∧ t.cpu = latched s.cpu t.cpu ∧
      t.cpu.cycles = (Instr.sty m).baseCycles s.params)

/-! ## Transfers and the stack -/

/-- R451 to R456: the transfers copy a register and set N and Z from it, but for TXS, which writes no flag; nothing
else changes. -/
def Obligations.TransfersCopyRegisters : Prop :=
  form .tax [0xAA] 2 ∧ form .tay [0xA8] 2 ∧ form .txa [0x8A] 2 ∧ form .tya [0x98] 2 ∧ form .tsx [0xBA] 2 ∧
  form .txs [0x9A] 2 ∧
  ∀ s : State,
    (∀ (i : Instr) (v : Byte) (c : Cpu),
      (i, v, c) ∈
        [(Instr.tax, s.cpu.a, { s.cpu with x := s.cpu.a }), (.tay, s.cpu.a, { s.cpu with y := s.cpu.a }),
         (.txa, s.cpu.x, { s.cpu with a := s.cpu.x }), (.tya, s.cpu.y, { s.cpu with a := s.cpu.y }),
         (.tsx, s.cpu.sp, { s.cpu with x := s.cpu.sp })] →
      ∃ t, exec i s = .next t ∧ leaves s s { c with p := t.cpu.p } t ∧ nzFrom v t.cpu.p ∧
        flagsKeptBut [.n, .z] s.cpu.p t.cpu.p ∧ t.cpu.cycles = 2) ∧
    ∃ t, exec .txs s = .next t ∧ leaves s s { s.cpu with sp := s.cpu.x } t ∧ t.cpu.cycles = 2

/-- R457, R458: PHA and PHP write one byte at 0x0100 + SP and decrement SP mod 256; PHP's byte is P with bits 4
and 5 set; no flag changes. -/
def Obligations.PushesWriteStackByte : Prop :=
  form .pha [0x48] 3 ∧ form .php [0x08] 3 ∧
  ∀ s : State, let at_ : Word := BitVec.ofNat 16 (0x100 + s.cpu.sp.toNat)
    (∃ t, exec .pha s = .next t ∧ wrote s at_ s.cpu.a t ∧
      t.cpu = latched { s.cpu with sp := BitVec.ofNat 8 (s.cpu.sp.toNat + 255) } t.cpu ∧ t.cpu.cycles = 3) ∧
    (∃ t, exec .php s = .next t ∧ wrote s at_ (s.cpu.p ||| 0x30) t ∧
      t.cpu = latched { s.cpu with sp := BitVec.ofNat 8 (s.cpu.sp.toNat + 255) } t.cpu ∧ t.cpu.cycles = 3)

/-- R459, R460: PLA and PLP increment SP mod 256, then read 0x0100 + SP; PLA sets N and Z, PLP loads bits 7, 6, 3,
2, 1, 0 and forces B to 0 and U to 1. -/
def Obligations.PullsReadStackByte : Prop :=
  form .pla [0x68] 4 ∧ form .plp [0x28] 4 ∧
  ∀ s : State, let v := busValue s (BitVec.ofNat 16 (0x100 + (s.cpu.sp.toNat + 1) % 256))
    (∃ t, exec .pla s = .next t ∧ leaves s s { s.cpu with a := v, sp := s.cpu.sp + 1, p := t.cpu.p } t ∧
      nzFrom v t.cpu.p ∧ flagsKeptBut [.n, .z] s.cpu.p t.cpu.p ∧ t.cpu.cycles = 4) ∧
    (∃ t, exec .plp s = .next t ∧ leaves s s { s.cpu with sp := s.cpu.sp + 1, p := t.cpu.p } t ∧
      (∀ f, getFlag f t.cpu.p = if f = .b then false else if f = .u then true else getFlag f v) ∧ t.cpu.cycles = 4)

/-! ## Arithmetic -/

/-- R501: ADC. -/
def Obligations.AdcAddsWithCarry : Prop :=
  aluForms .adc 0x69 0x65 0x75 0x6D 0x7D 0x79 0x61 0x71 ∧
  ∀ (o : Src) (s : State), let u := readOperand o s
    let sum := s.cpu.a.toNat + u.cpu.m.toNat + (getFlag .c s.cpu.p).toNat
    let r : Byte := BitVec.ofNat 8 sum
    ∃ t, exec (.adc o) s = .next t ∧ leaves s u { s.cpu with a := r, p := t.cpu.p } t ∧
      nzFrom r t.cpu.p ∧ getFlag .c t.cpu.p = decide (255 < sum) ∧
      getFlag .v t.cpu.p = (s.cpu.a.msb == u.cpu.m.msb && r.msb != s.cpu.a.msb) ∧
      flagsKeptBut [.n, .v, .z, .c] s.cpu.p t.cpu.p ∧ t.cpu.cycles = (Instr.adc o).baseCycles s.params + crossCycle u

/-- R502: SBC, stated as the subtraction with borrow that R502 derives. -/
def Obligations.SbcSubtractsWithBorrow : Prop :=
  aluForms .sbc 0xE9 0xE5 0xF5 0xED 0xFD 0xF9 0xE1 0xF1 ∧
  ∀ (o : Src) (s : State), let u := readOperand o s
    let diff : Int := (s.cpu.a.toNat : Int) - (u.cpu.m.toNat : Int) - (1 - ((getFlag .c s.cpu.p).toNat : Int))
    let r : Byte := BitVec.ofInt 8 diff
    ∃ t, exec (.sbc o) s = .next t ∧ leaves s u { s.cpu with a := r, p := t.cpu.p } t ∧
      nzFrom r t.cpu.p ∧ getFlag .c t.cpu.p = decide (0 ≤ diff) ∧
      getFlag .v t.cpu.p = (s.cpu.a.msb != u.cpu.m.msb && r.msb != s.cpu.a.msb) ∧
      flagsKeptBut [.n, .v, .z, .c] s.cpu.p t.cpu.p ∧ t.cpu.cycles = (Instr.sbc o).baseCycles s.params + crossCycle u

/-- R500: the overflow flag after ADC and SBC is signed two's-complement overflow: of the exact sum for ADC, of the
exact difference for SBC. -/
def Obligations.OverflowIsSignedOverflow : Prop :=
  ∀ (o : Src) (s t : State),
    let a := s.cpu.a.toInt
    let m := (readOperand o s).cpu.m.toInt
    let c : Int := (getFlag .c s.cpu.p).toNat
    (exec (.adc o) s = .next t → (getFlag .v t.cpu.p = true ↔ ¬ (-128 ≤ a + m + c ∧ a + m + c ≤ 127))) ∧
    (exec (.sbc o) s = .next t → (getFlag .v t.cpu.p = true ↔ ¬ (-128 ≤ a - m - (1 - c) ∧ a - m - (1 - c) ≤ 127)))

/-- R503 to R505: the compares write only N, Z and C. -/
def Obligations.ComparesWriteOnlyFlags : Prop :=
  aluForms .cmp 0xC9 0xC5 0xD5 0xCD 0xDD 0xD9 0xC1 0xD1 ∧ indexCompareForms .cpx 0xE0 0xE4 0xEC ∧
  indexCompareForms .cpy 0xC0 0xC4 0xCC ∧
  ∀ (o : Src) (s : State) (i : Instr) (r : Byte),
    (i, r) ∈ [(Instr.cmp o, s.cpu.a), (.cpx o, s.cpu.x), (.cpy o, s.cpu.y)] → let u := readOperand o s
    ∃ t, exec i s = .next t ∧ leaves s u { s.cpu with p := t.cpu.p } t ∧
      getFlag .c t.cpu.p = decide (u.cpu.m.toNat ≤ r.toNat) ∧ getFlag .z t.cpu.p = decide (r = u.cpu.m) ∧
      getFlag .n t.cpu.p = (r - u.cpu.m).msb ∧ flagsKeptBut [.n, .z, .c] s.cpu.p t.cpu.p ∧
      t.cpu.cycles = i.baseCycles s.params + (if i.opExtra then crossCycle u else 0)

/-- R506, R509: INC and DEC read EA once, write it once and set N and Z; no register changes. -/
def Obligations.IncDecModifyMemory : Prop :=
  rmwForms .inc 0xE6 0xF6 0xEE 0xFE ∧ rmwForms .dec 0xC6 0xD6 0xCE 0xDE ∧
  ∀ (m : Mem) (s : State), let u := readMemory m s
    ∀ (i : Instr) (r : Byte),
      (i, r) ∈ [(Instr.inc m, BitVec.ofNat 8 (u.cpu.m.toNat + 1)), (.dec m, BitVec.ofNat 8 (u.cpu.m.toNat + 255))] →
      ∃ t, exec i s = .next t ∧ wrote u (address m s).cpu.ea r t ∧ t.cpu = latched { s.cpu with p := t.cpu.p } t.cpu ∧
        nzFrom r t.cpu.p ∧ flagsKeptBut [.n, .z] s.cpu.p t.cpu.p ∧ t.cpu.cycles = i.baseCycles s.params

/-- R507, R508, R510, R511: INX, INY, DEX and DEY. -/
def Obligations.IncDecIndexRegisters : Prop :=
  form .inx [0xE8] 2 ∧ form .iny [0xC8] 2 ∧ form .dex [0xCA] 2 ∧ form .dey [0x88] 2 ∧
  ∀ (s : State) (i : Instr) (r : Byte) (c : Cpu),
    (i, r, c) ∈
      [(Instr.inx, BitVec.ofNat 8 (s.cpu.x.toNat + 1), { s.cpu with x := BitVec.ofNat 8 (s.cpu.x.toNat + 1) }),
       (.iny, BitVec.ofNat 8 (s.cpu.y.toNat + 1), { s.cpu with y := BitVec.ofNat 8 (s.cpu.y.toNat + 1) }),
       (.dex, BitVec.ofNat 8 (s.cpu.x.toNat + 255), { s.cpu with x := BitVec.ofNat 8 (s.cpu.x.toNat + 255) }),
       (.dey, BitVec.ofNat 8 (s.cpu.y.toNat + 255), { s.cpu with y := BitVec.ofNat 8 (s.cpu.y.toNat + 255) })] →
    ∃ t, exec i s = .next t ∧ leaves s s { c with p := t.cpu.p } t ∧ nzFrom r t.cpu.p ∧
      flagsKeptBut [.n, .z] s.cpu.p t.cpu.p ∧ t.cpu.cycles = 2

/-- The three laws of R512, which the spec derives from R501 and R502. SBC of a byte, in any form and in any state
that holds the A which ADC of that byte left, restores A when its carry-in is the complement of the ADC's, and gives
A + 2c - 1 mod 256 when the carry-ins are the same; CMP sets the N, Z and C that SEC then SBC would set, and leaves
A and V. -/
def Obligations.ArithmeticIdentities : Prop :=
  (∀ (o : Src) (s : State), let c := getFlag .c s.cpu.p
    ∃ t, exec (.adc o) s = .next t ∧
      ∀ (o' : Src) (u : State), u.cpu.a = t.cpu.a → (readOperand o' u).cpu.m = (readOperand o s).cpu.m →
        ∃ v, exec (.sbc o') u = .next v ∧
          v.cpu.a =
            if getFlag .c u.cpu.p = !c then s.cpu.a else BitVec.ofNat 8 (s.cpu.a.toNat + 2 * c.toNat + 255)) ∧
  ∀ (o : Src) (s t u v : State), exec (.cmp o) s = .next t → exec .sec s = .next u → exec (.sbc o) u = .next v →
    getFlag .n t.cpu.p = getFlag .n v.cpu.p ∧ getFlag .z t.cpu.p = getFlag .z v.cpu.p ∧
    getFlag .c t.cpu.p = getFlag .c v.cpu.p ∧ t.cpu.a = s.cpu.a ∧ getFlag .v t.cpu.p = getFlag .v s.cpu.p

/-! ## Logic, shifts and rotates -/

/-- R551 to R553: AND, ORA and EOR. -/
def Obligations.LogicCombinesBitByBit : Prop :=
  aluForms .and 0x29 0x25 0x35 0x2D 0x3D 0x39 0x21 0x31 ∧ aluForms .ora 0x09 0x05 0x15 0x0D 0x1D 0x19 0x01 0x11 ∧
  aluForms .eor 0x49 0x45 0x55 0x4D 0x5D 0x59 0x41 0x51 ∧
  ∀ (o : Src) (s : State) (i : Instr) (f : Bool → Bool → Bool),
    (i = .and o ∧ f = Bool.and ∨ i = .ora o ∧ f = Bool.or ∨ i = .eor o ∧ f = Bool.xor) → let u := readOperand o s
    ∃ t, exec i s = .next t ∧ leaves s u { s.cpu with a := t.cpu.a, p := t.cpu.p } t ∧
      (∀ k, k < 8 → t.cpu.a.getLsbD k = f (s.cpu.a.getLsbD k) (u.cpu.m.getLsbD k)) ∧
      nzFrom t.cpu.a t.cpu.p ∧ flagsKeptBut [.n, .z] s.cpu.p t.cpu.p ∧ t.cpu.cycles = i.baseCycles s.params + crossCycle u

/-- R554: BIT takes N and V from the memory byte and Z from A & M, and writes no register. -/
def Obligations.BitTestsMemory : Prop :=
  (∀ (b : Byte) (w : Word), form (.bit (.zp b)) [0x24, b] 3 ∧ form (.bit (.abs w)) [0x2C, loByte w, hiByte w] 4) ∧
  ∀ (m : Mem) (s : State), let u := readMemory m s
    ∃ t, exec (.bit m) s = .next t ∧ leaves s u { s.cpu with p := t.cpu.p } t ∧
      getFlag .z t.cpu.p = decide (s.cpu.a &&& u.cpu.m = 0) ∧ getFlag .n t.cpu.p = u.cpu.m.getLsbD 7 ∧
      getFlag .v t.cpu.p = u.cpu.m.getLsbD 6 ∧ flagsKeptBut [.n, .v, .z] s.cpu.p t.cpu.p ∧
      t.cpu.cycles = (Instr.bit m).baseCycles s.params

/-- R555 to R558, the accumulator forms: the bit moved out goes to C, the bit moved in is 0 or the old C. -/
def Obligations.ShiftsMoveAccumulator : Prop :=
  form (.asl .acc) [0x0A] 2 ∧ form (.lsr .acc) [0x4A] 2 ∧ form (.rol .acc) [0x2A] 2 ∧ form (.ror .acc) [0x6A] 2 ∧
  ∀ (s : State) (i : Instr) (left fill : Bool),
    (i, left, fill) ∈
      [(Instr.asl .acc, true, false), (.lsr .acc, false, false), (.rol .acc, true, getFlag .c s.cpu.p),
       (.ror .acc, false, getFlag .c s.cpu.p)] →
    ∃ t, exec i s = .next t ∧ leaves s s { s.cpu with a := t.cpu.a, p := t.cpu.p } t ∧
      (∀ k, k < 8 → t.cpu.a.getLsbD k =
        if left then (if k = 0 then fill else s.cpu.a.getLsbD (k - 1))
        else (if k = 7 then fill else s.cpu.a.getLsbD (k + 1))) ∧
      getFlag .c t.cpu.p = s.cpu.a.getLsbD (if left then 7 else 0) ∧ nzFrom t.cpu.a t.cpu.p ∧
      flagsKeptBut [.n, .z, .c] s.cpu.p t.cpu.p ∧ t.cpu.cycles = 2

/-- R555 to R558, the memory forms: one read and one write of EA, the flags as in the accumulator forms, A
unchanged. -/
def Obligations.ShiftsModifyMemory : Prop :=
  rmwForms (fun m => .asl (.mem m)) 0x06 0x16 0x0E 0x1E ∧ rmwForms (fun m => .lsr (.mem m)) 0x46 0x56 0x4E 0x5E ∧
  rmwForms (fun m => .rol (.mem m)) 0x26 0x36 0x2E 0x3E ∧ rmwForms (fun m => .ror (.mem m)) 0x66 0x76 0x6E 0x7E ∧
  ∀ (m : Mem) (s : State) (i : Instr) (left fill : Bool),
    (i, left, fill) ∈
      [(Instr.asl (.mem m), true, false), (.lsr (.mem m), false, false), (.rol (.mem m), true, getFlag .c s.cpu.p),
       (.ror (.mem m), false, getFlag .c s.cpu.p)] →
    let u := readMemory m s
    ∃ t r, exec i s = .next t ∧ wrote u (address m s).cpu.ea r t ∧ t.cpu = latched { s.cpu with p := t.cpu.p } t.cpu ∧
      (∀ k, k < 8 → r.getLsbD k =
        if left then (if k = 0 then fill else u.cpu.m.getLsbD (k - 1))
        else (if k = 7 then fill else u.cpu.m.getLsbD (k + 1))) ∧
      getFlag .c t.cpu.p = u.cpu.m.getLsbD (if left then 7 else 0) ∧ nzFrom r t.cpu.p ∧
      flagsKeptBut [.n, .z, .c] s.cpu.p t.cpu.p ∧ t.cpu.cycles = i.baseCycles s.params

/-! ## Control transfers -/

/-- R601: JMP. The indirect form reads its high byte in the page of the pointer's low byte; the pointer is taken in
CPU RAM, where the reads change nothing. -/
def Obligations.JmpSetsPc : Prop :=
  (∀ w : Word, form (.jmp (.abs w)) [0x4C, loByte w, hiByte w] 3 ∧ form (.jmp (.ind w)) [0x6C, loByte w, hiByte w] 5) ∧
  ∀ (s : State) (w : Word),
    (∃ t, exec (.jmp (.abs w)) s = .next t ∧ leaves s s { s.cpu with pc := w } t ∧ t.cpu.cycles = 3) ∧
    (∃ t, exec (.jmp (.ind w)) s = .next t ∧
      let lo := busRead s w
      let hi := busRead lo.2 (BitVec.ofNat 16 (w.toNat / 256 * 256 + (w.toNat + 1) % 256))
      leaves s hi.2 { s.cpu with pc := hiLo hi.1 lo.1 } t ∧ t.cpu.cycles = 5)

/-- R602: JSR pushes the address of its own last byte, high byte first, and jumps. -/
def Obligations.JsrPushesReturnAddress : Prop :=
  (∀ w : Word, form (.jsr w) [0x20, loByte w, hiByte w] 6) ∧
  ∀ (s : State) (w : Word), let ret : Word := BitVec.ofNat 16 (s.cpu.pc.toNat + 65535)
    ∃ t, exec (.jsr w) s = .next t ∧
      t.cpu = latched { s.cpu with pc := w, sp := s.cpu.sp - 2 } t.cpu ∧ t.cpu.cycles = 6 ∧
      { t with cpu := s.cpu, ram := s.ram } = s ∧
      ∀ k, ramAt t k =
        if k = 0x100 + s.cpu.sp.toNat then hiByte ret
        else if k = 0x100 + (s.cpu.sp - 1).toNat then loByte ret else ramAt s k

/-- R603: RTS pulls the pc, low byte first, and adds 1. -/
def Obligations.RtsPullsPcPlusOne : Prop :=
  form .rts [0x60] 6 ∧
  ∀ s : State, ∃ t, exec .rts s = .next t ∧
    leaves s s
      { s.cpu with
        sp := s.cpu.sp + 2
        pc := hiLo (ramAt s (0x100 + (s.cpu.sp + 2).toNat)) (ramAt s (0x100 + (s.cpu.sp + 1).toNat)) + 1 } t ∧
    t.cpu.cycles = 6

/-- R602, R603: RTS after JSR resumes at the instruction after the JSR with SP as before, whatever SP is. -/
def Obligations.RtsReturnsFromJsr : Prop :=
  ∀ (s t u : State) (w : Word), exec (.jsr w) s = .next t → exec .rts t = .next u →
    u.cpu.pc = s.cpu.pc ∧ u.cpu.sp = s.cpu.sp ∧ u.cpu.a = s.cpu.a ∧ u.cpu.x = s.cpu.x ∧ u.cpu.y = s.cpu.y ∧
    u.cpu.p = s.cpu.p

/-- R610 to R618: the eight branches: the condition, the signed target mod 2^16, 2, 3 or 4 cycles, and nothing else
changed. -/
def Obligations.BranchesCommitWhenTaken : Prop :=
  (∀ off : Byte,
    form (.bcc off) [0x90, off] 2 ∧ form (.bcs off) [0xB0, off] 2 ∧ form (.beq off) [0xF0, off] 2 ∧
    form (.bmi off) [0x30, off] 2 ∧ form (.bne off) [0xD0, off] 2 ∧ form (.bpl off) [0x10, off] 2 ∧
    form (.bvc off) [0x50, off] 2 ∧ form (.bvs off) [0x70, off] 2) ∧
  ∀ (s : State) (off : Byte) (i : Instr) (f : Flag) (v : Bool),
    (i, f, v) ∈
      [(Instr.bcc off, Flag.c, false), (.bcs off, .c, true), (.beq off, .z, true), (.bmi off, .n, true),
       (.bne off, .z, false), (.bpl off, .n, false), (.bvc off, .v, false), (.bvs off, .v, true)] →
    let target : Word := BitVec.ofInt 16 ((s.cpu.pc.toNat : Int) + off.toInt)
    ∃ t, exec i s = .next t ∧
      leaves s s { s.cpu with pc := if getFlag f s.cpu.p = v then target else s.cpu.pc } t ∧
      t.cpu.cycles =
        if getFlag f s.cpu.p = v then (if target.toNat / 256 = s.cpu.pc.toNat / 256 then 3 else 4) else 2

/-- R605, R720: BRK pushes its address + 2 and P with bits 4 and 5 set, sets I, loads the pc from 0xFFFE, 7 cycles.
Given the state after the opcode fetch, its address + 2 is pc + 1. -/
def Obligations.BrkEntersThroughIrqVector : Prop :=
  form .brk [0x00] 7 ∧
  ∀ s : State, let ret := s.cpu.pc + 1
    ∃ t, exec .brk s = .next t ∧
      t.cpu = latched { s.cpu with
        sp := s.cpu.sp - 3, p := t.cpu.p, pc := hiLo (busValue s 0xFFFF) (busValue s 0xFFFE) } t.cpu ∧
      getFlag .i t.cpu.p = true ∧ flagsKeptBut [.i] s.cpu.p t.cpu.p ∧ t.cpu.cycles = 7 ∧
      { t with cpu := s.cpu, ram := s.ram } = s ∧
      ∀ k, ramAt t k =
        if k = 0x100 + (s.cpu.sp - 2).toNat then s.cpu.p ||| 0x30
        else if k = 0x100 + (s.cpu.sp - 1).toNat then loByte ret
        else if k = 0x100 + s.cpu.sp.toNat then hiByte ret else ramAt s k

/-- R604, R750: RTI pulls P, with B forced to 0 and U to 1, then the pc, low byte first, with no adjustment. -/
def Obligations.RtiRestoresStatusAndPc : Prop :=
  form .rti [0x40] 6 ∧
  ∀ s : State, ∃ t, exec .rti s = .next t ∧
    leaves s s
      { s.cpu with
        sp := s.cpu.sp + 3
        p := t.cpu.p
        pc := hiLo (ramAt s (0x100 + (s.cpu.sp + 3).toNat)) (ramAt s (0x100 + (s.cpu.sp + 2).toNat)) } t ∧
    (∀ f, getFlag f t.cpu.p =
      if f = .b then false else if f = .u then true else getFlag f (ramAt s (0x100 + (s.cpu.sp + 1).toNat))) ∧
    t.cpu.cycles = 6

/-! ## Flags and no-ops -/

/-- R651 to R657: each flag instruction writes its one flag and nothing else. -/
def Obligations.FlagInstructionsWriteOneFlag : Prop :=
  form .clc [0x18] 2 ∧ form .sec [0x38] 2 ∧ form .cli [0x58] 2 ∧ form .sei [0x78] 2 ∧ form .cld [0xD8] 2 ∧
  form .sed [0xF8] 2 ∧ form .clv [0xB8] 2 ∧
  ∀ (s : State) (i : Instr) (f : Flag) (v : Bool),
    (i, f, v) ∈
      [(Instr.clc, Flag.c, false), (.sec, .c, true), (.cli, .i, false), (.sei, .i, true), (.cld, .d, false),
       (.sed, .d, true), (.clv, .v, false)] →
    ∃ t, exec i s = .next t ∧ leaves s s { s.cpu with p := t.cpu.p } t ∧ getFlag f t.cpu.p = v ∧
      flagsKeptBut [f] s.cpu.p t.cpu.p ∧ t.cpu.cycles = 2

/-- R658, R390: NOP and every illegal opcode change no register, no flag and no memory; NOP costs 2 cycles, an
illegal opcode the count that the parameter ILLEGAL_CYCLES gives its byte. -/
def Obligations.NoOpsChangeNothing : Prop :=
  form .nop [0xEA] 2 ∧
  ∀ s : State,
    (∃ t, exec .nop s = .next t ∧ leaves s s s.cpu t ∧ t.cpu.cycles = 2) ∧
    ∀ op : Byte, ∃ t, exec (.illegal op) s = .next t ∧ leaves s s s.cpu t ∧ t.cpu.cycles = s.params.illegalCount op

/-! ## Interrupts -/

/-- R720: the entry of NMI and IRQ: the pc pushed high byte first, then P with bit 4 clear and bit 5 set, I set, the
pc from the vector, `cycles` 7; A, X, Y, the other flags and every other byte of RAM unchanged. -/
def Obligations.InterruptEntryFrame : Prop :=
  ∀ (s : State) (vector : Word), vector = nmiVector ∨ vector = irqVector →
    let t := enterInterrupt vector s
    t.cpu = { s.cpu with
      sp := s.cpu.sp - 3, p := t.cpu.p, cycles := 7, pc := hiLo (busValue s (vector + 1)) (busValue s vector) } ∧
    getFlag .i t.cpu.p = true ∧ flagsKeptBut [.i] s.cpu.p t.cpu.p ∧ { t with cpu := s.cpu, ram := s.ram } = s ∧
    ∀ k, ramAt t k =
      if k = 0x100 + (s.cpu.sp - 2).toNat then (s.cpu.p &&& 0xEF) ||| 0x20
      else if k = 0x100 + (s.cpu.sp - 1).toNat then loByte s.cpu.pc
      else if k = 0x100 + s.cpu.sp.toNat then hiByte s.cpu.pc else ramAt s k

/-- R720, R750: RTI undoes an entry: pc, P and SP are those from before it, whatever SP is. -/
def Obligations.RtiUndoesInterruptEntry : Prop :=
  ∀ (s t : State) (vector : Word), vector = nmiVector ∨ vector = irqVector → statusOk s.cpu.p = true →
    exec .rti (enterInterrupt vector s) = .next t →
    t.cpu.pc = s.cpu.pc ∧ t.cpu.p = s.cpu.p ∧ t.cpu.sp = s.cpu.sp ∧ t.cpu.a = s.cpu.a ∧ t.cpu.x = s.cpu.x ∧
    t.cpu.y = s.cpu.y

/-- R710, R715, R740: at the end of a tick an NMI is serviced exactly when it is pending, no DMA runs and the CPU is
between instructions; it wins over an IRQ; an IRQ is serviced exactly under the same conditions with the line
asserted and I clear; otherwise only the tick count changes. -/
def Obligations.InterruptServiceConditions : Prop :=
  ∀ s : State,
    endTick s =
      if s.nmiPending = true ∧ s.dma.active = false ∧ s.cpu.cycles = 0 then
        { enterInterrupt nmiVector s with nmiPending := false, masterTick := s.masterTick + 1 }
      else if s.irqLine = true ∧ s.dma.active = false ∧ s.cpu.cycles = 0 ∧ getFlag .i s.cpu.p = false then
        { enterInterrupt irqVector s with masterTick := s.masterTick + 1 }
      else { s with masterTick := s.masterTick + 1 }

/-- R710, R870: over a step the NMI latch becomes set only by the dot at scanline 241, dot 1 with PPUCTRL bit 7, and
a latch that was set or raised stays set unless the CPU enters with `cycles = 7`. -/
def Obligations.NmiLatchSetOnlyAtVblank : Prop :=
  ∀ s t : State, step s = .next t →
    (t.nmiPending = true → s.nmiPending = true ∨ (s.ppu.scanline = 241 ∧ s.ppu.dot = 1 ∧ s.ppu.ctrl.getLsbD 7 = true)) ∧
    (s.nmiPending = true ∨ (s.ppu.scanline = 241 ∧ s.ppu.dot = 1 ∧ s.ppu.ctrl.getLsbD 7 = true) →
      t.nmiPending = true ∨ (t.cpu.cycles = 7 ∧ getFlag .i t.cpu.p = true))

/-! ## OAM-DMA -/

/-- R1024: while DMA is active and does not end in this step, no step changes a CPU register, `cycles`, CPU RAM or a
pending NMI. -/
def Obligations.DmaSuspendsCpu : Prop :=
  ∀ s t : State, s.dma.active = true → step s = .next t → t.dma.active = true →
    t.cpu = s.cpu ∧ t.ram = s.ram ∧ (s.nmiPending = true → t.nmiPending = true)

/-- R1020 to R1022: from its first read cycle, 512 DMA steps copy the 256 bytes of a page into OAM in order and
end the transfer. The page is one whose reads have no side effect (R211): CPU RAM, or above the devices. -/
def Obligations.DmaCopiesPageInOrder : Prop :=
  ∀ s : State, s.dma.active = true → s.dma.dummy = false → s.dma.addr = 0 → s.cpuCycle % 2 = 0 →
    (s.dma.page.toNat < 0x20 ∨ 0x40 < s.dma.page.toNat) →
    (dmaRun 512 s).dma.active = false ∧
    (∀ i, i < 256 → oamAt (dmaRun 512 s).ppu i = busValue s (BitVec.ofNat 16 (s.dma.page.toNat * 256 + i))) ∧
    (dmaRun 512 s).cpu = s.cpu ∧ (dmaRun 512 s).ram = s.ram

/-- R1023: a transfer started by a 0x4014 write in cycle c0 occupies the steps from c0 + 1: 513 when c0 is even, 514
when it is odd. It is active in every one of them and over after the last. -/
def Obligations.DmaTakes513Or514Cycles : Prop :=
  ∀ (s : State) (page : Byte), s.dma.active = false →
    let s1 : State := { busWrite s 0x4014 page with cpuCycle := s.cpuCycle + 1 }
    let n := if s.cpuCycle % 2 = 0 then 513 else 514
    (∀ k, k < n → (dmaRun k s1).dma.active = true) ∧ (dmaRun n s1).dma.active = false

/-! ## PPU -/

/-- R873 to R875: over n steps the raster position advances by n dots modulo 89342, whatever is executed. -/
def Obligations.RasterAdvancesOneDotPerStep : Prop :=
  ∀ (n : Nat) (s t : State), rasterOk s.ppu = true → Host.Core.run Sys2Proof.core n s = .next t →
    rasterIndex t.ppu = (rasterIndex s.ppu + n) % 89342

/-- R814: a PPUSTATUS read. -/
def Obligations.PpuStatusReadClearsVblankAndToggle : Prop :=
  ∀ (s : State) (a : Word), 0x2000 ≤ a.toNat → a.toNat ≤ 0x3FFF → a.toNat % 8 = 2 →
    ∃ q : Ppu, busRead s a = ((s.ppu.status &&& 0xE0) ||| (s.ppu.readBuffer &&& 0x1F), { s with ppu := q }) ∧
      q = { s.ppu with status := q.status, w := false } ∧
      ∀ k, k < 8 → q.status.getLsbD k = (decide (k ≠ 7) && s.ppu.status.getLsbD k)

/-- R817, R818: the two-write registers share the toggle: PPUSCROLL's two writes and PPUADDR's two writes, bit field
by bit field, from a clear toggle; v changes only at PPUADDR's second write. -/
def Obligations.ScrollAndAddressWritePairs : Prop :=
  ∀ (c : Cart) (p : Ppu) (d1 d2 : Byte), p.w = false →
    let s2 := (ppuCpuWrite c (ppuCpuWrite c p 5 d1).2 5 d2).2
    let a2 := (ppuCpuWrite c (ppuCpuWrite c p 6 d1).2 6 d2).2
    (s2 = { p with t := s2.t, fineX := BitVec.ofNat 3 d1.toNat } ∧
      s2.t.toNat = d2.toNat % 8 * 4096 + p.t.toNat / 1024 % 4 * 1024 + d2.toNat / 8 * 32 + d1.toNat / 8) ∧
    (a2 = { p with t := a2.t, v := a2.t } ∧ a2.t.toNat = d1.toNat % 64 * 256 + d2.toNat)

/-- R819, R831: after a nametable byte is written through PPUDATA, a PPUDATA read at its address answers the old
buffer and puts the byte into the buffer, which the next read answers unless v has moved on into the palette; v
steps by 1 or 32 mod 2^15 at each access. -/
def Obligations.PpuDataReadsOneBehind : Prop :=
  ∀ (c : Cart) (p : Ppu) (d : Byte), 0x2000 ≤ p.v.toNat % 0x4000 → p.v.toNat % 0x4000 ≤ 0x3EFF →
    let inc : Nat := if p.ctrl.getLsbD 2 then 32 else 1
    let w := ppuCpuWrite c p 7 d
    let r1 := ppuCpuRead w.1 { w.2 with v := p.v } 7
    let r2 := ppuCpuRead w.1 r1.2 7
    w.1 = c ∧ w.2.v = BitVec.ofNat 15 (p.v.toNat + inc) ∧ r1.1 = p.readBuffer ∧ r1.2.v = w.2.v ∧
    r1.2.readBuffer = d ∧ r1.2.nt = w.2.nt ∧ (ppuDataAddr r1.2 < 0x3F00 → r2.1 = d)

/-- R832, R819: a palette write is read back six bits wide at its address and at its mirror, and changes no other
palette cell. Through PPUDATA, at any two palette addresses in v: the write changes the palette and steps v; the read
answers the cell at once, with bits 7:6 clear, leaves it in the read buffer, and steps v. -/
def Obligations.PaletteWritesMirror : Prop :=
  (∀ (p : Ppu) (a b : Nat) (d : Byte), 0x3F00 ≤ a → a ≤ 0x3FFF → 0x3F00 ≤ b → b ≤ 0x3FFF →
    palRead (palWrite p a d) b =
      if a % 32 = b % 32 ∨ (a % 4 = 0 ∧ a % 16 = b % 16) then d.setWidth 6 else palRead p b) ∧
  ∀ (cart : Cart) (p : Ppu) (v : BitVec 15) (d : Byte),
    let a := p.v.toNat % 0x4000
    let b := v.toNat % 0x4000
    let inc : Nat := if p.ctrl.getLsbD 2 then 32 else 1
    let w := ppuCpuWrite cart p 7 d
    let r := ppuCpuRead w.1 { w.2 with v := v } 7
    0x3F00 ≤ a → 0x3F00 ≤ b →
      w = (cart, { p with palette := w.2.palette, v := BitVec.ofNat 15 (p.v.toNat + inc) }) ∧
      r.1 = (if a % 32 = b % 32 ∨ (a % 4 = 0 ∧ a % 16 = b % 16) then d &&& 0x3F else (palRead p b).setWidth 8) ∧
      r.2 = { w.2 with readBuffer := r.1, v := BitVec.ofNat 15 (v.toNat + inc) }

/-- R850: evaluation selects the first eight OAM entries in range of the line, in OAM order, sets the overflow flag
exactly when there is a ninth and clears no flag, and notes whether entry 0 is selected. -/
def Obligations.SpriteEvaluationTakesFirstEight : Prop :=
  ∀ p : Ppu, let hits := (List.range 64).filter (spriteInRange p); let q := evaluateSprites p
    q.spriteCount = min hits.length 8 ∧ q.slots.take q.spriteCount = (hits.take 8).map (spriteCopy p) ∧
    q.slots.length = 8 ∧ q.spriteZeroPossible = decide (0 ∈ hits) ∧
    (∀ k, k < 8 → q.status.getLsbD k = (p.status.getLsbD k || (decide (k = 5) && decide (8 < hits.length)))) ∧
    q.oam = p.oam

/-- R822, R813: the Y increment changes v alone, and only when PPUMASK bit 3 or 4 is set; as numbers, fine Y counts 0
to 7, then coarse Y; coarse Y 29 wraps to 0 with the vertical nametable bit toggled, 31 wraps to 0 without; coarse X
and the horizontal bit stay. -/
def Obligations.YIncrementCountsRows : Prop :=
  ∀ p : Ppu,
    let v := p.v.toNat
    let fine := v / 4096; let ny := v / 2048 % 2; let nx := v / 1024 % 2; let cy := v / 32 % 32; let cx := v % 32
    incY p = { p with v := (incY p).v } ∧
    (incY p).v.toNat =
      if p.mask.getLsbD 3 = false ∧ p.mask.getLsbD 4 = false then v
      else if fine < 7 then (fine + 1) * 4096 + ny * 2048 + nx * 1024 + cy * 32 + cx
      else if cy = 29 then (1 - ny) * 2048 + nx * 1024 + cx
      else if cy = 31 then ny * 2048 + nx * 1024 + cx
      else ny * 2048 + nx * 1024 + (cy + 1) * 32 + cx

/-! ## APU -/

/-- R909, R910: the 0x4015 read answers which of the four length counters are not 0 and the frame flag, and clears
that flag; the 0x4015 write sets the enables and zeroes the length of each of the four channels whose bit is 0; neither
changes anything else. -/
def Obligations.ApuStatusReflectsLengths : Prop :=
  ∀ (s : State) (d : Byte),
    let r := busRead s 0x4015
    let t := busWrite s 0x4015 d
    let kept (k : Nat) (length : Byte) : Byte := if d.getLsbD k then length else 0
    r.1.getLsbD 0 = decide (s.apu.pulse1.length ≠ 0) ∧ r.1.getLsbD 1 = decide (s.apu.pulse2.length ≠ 0) ∧
    r.1.getLsbD 2 = decide (s.apu.triangle.length ≠ 0) ∧ r.1.getLsbD 3 = decide (s.apu.noise.length ≠ 0) ∧
    r.1.getLsbD 4 = false ∧ r.1.getLsbD 5 = false ∧ r.1.getLsbD 6 = s.apu.frameIrq ∧ r.1.getLsbD 7 = false ∧
    r.2 = { s with apu := { s.apu with frameIrq := false } } ∧
    t = { s with apu := { s.apu with
      enPulse1 := d.getLsbD 0
      enPulse2 := d.getLsbD 1
      enTriangle := d.getLsbD 2
      enNoise := d.getLsbD 3
      enDmc := d.getLsbD 4
      pulse1 := { s.apu.pulse1 with length := kept 0 s.apu.pulse1.length }
      pulse2 := { s.apu.pulse2 with length := kept 1 s.apu.pulse2.length }
      triangle := { s.apu.triangle with length := kept 2 s.apu.triangle.length }
      noise := { s.apu.noise with length := kept 3 s.apu.noise.length } } } ∧
    ∀ k, k < 4 → d.getLsbD k = false → (busRead t 0x4015).1.getLsbD k = false

/-! ## Ports and mapper 1 -/

/-- R1030: a strobe of 1 then 0 loads the host's buttons; the next eight reads answer them from bit 7 (A) to bit 0
(Right), each in bit 0, and every later read answers 0. -/
def Obligations.ControllerShiftsOutButtons : Prop :=
  ∀ (q : Ports) (d1 d0 : Byte) (n : Nat), d1.getLsbD 0 = true → d0.getLsbD 0 = false →
    portReads n (portsWrite d0 (portsWrite d1 q)) =
      (List.range n).map (fun k => if k < 8 ∧ q.host0.getLsbD (7 - k) = true then 0x01 else 0x00)

/-- R1042: from an empty shift register, four writes with bit 7 clear change the shift register and its count alone;
the fifth, once, stores the five low bits, in order of arrival from bit 0, into the one register that address bits
14:13 choose, empties the shift register and changes nothing else. -/
def Obligations.FiveSerialWritesCommit : Prop :=
  ∀ (m : Mapper1) (d : Fin 5 → Byte) (a : Nat), m.srCount = 0 → m.sr = 0 → (∀ k, (d k).getLsbD 7 = false) →
    let w (k : Fin 5) (m : Mapper1) : Mapper1 := mapper1Serial m a (d k)
    let m4 := w 3 (w 2 (w 1 (w 0 m)))
    let register := a / 0x2000 % 4
    m4 = { m with sr := m4.sr, srCount := 4 } ∧
    ∃ v : BitVec 5, (∀ k : Fin 5, v.getLsbD k = (d k).getLsbD 0) ∧
      w 4 m4 =
        if register = 0 then { m with sr := 0, srCount := 0, control := v }
        else if register = 1 then { m with sr := 0, srCount := 0, chr0 := v }
        else if register = 2 then { m with sr := 0, srCount := 0, chr1 := v }
        else { m with sr := 0, srCount := 0, prgBank := v }
end

