-- ==== Sys2Proof/Laws/Apu.lean ====
section
/-! SUPPORT. The APU's operations keep its ranges. -/

namespace Sys2Proof.Machine

/-! ## The noise register -/

/-- A shift of the noise register that holds a 1 leaves a 1 in it, in either mode (R951). -/
theorem lfsrNext_ne_zero (mode : Bool) {r : BitVec 15} (h : r ≠ 0) : lfsrNext mode r ≠ 0 := by
  intro h0
  have bit (k : Nat) : (lfsrNext mode r).getLsbD k = false := by rw [h0]; simp
  have high (k : Nat) (hk : k < 14) : r.getLsbD (k + 1) = false := by
    have hb := bit k
    simp only [lfsrNext, BitVec.getLsbD_or, BitVec.getLsbD_ushiftRight, Bool.or_eq_false_iff] at hb
    rw [Nat.add_comm]
    exact hb.1
  have low : r.getLsbD 0 = false := by
    have hb := bit 14
    simp only [lfsrNext, high 5 (by omega), high 0 (by omega), BitVec.getLsbD_or, Bool.or_eq_false_iff, ite_self,
      Bool.xor_false] at hb
    by_contra hne
    rw [Bool.not_eq_false] at hne
    rw [hne] at hb
    exact absurd hb.2 (by decide)
  apply h
  apply BitVec.eq_of_getLsbD_eq
  intro k hk
  rw [show (0 : BitVec 15).getLsbD k = false by simp]
  cases k with
  | zero => exact low
  | succ k => exact high k (by omega)

/-! ## The length counters -/

theorem lengthOk_iff (b : Byte) : lengthOk b = true ↔ b.toNat ≤ 254 := by simp [lengthOk]

theorem lengthOk_load (d : Byte) : lengthOk (lengthLoad d) = true := by
  have key : ∀ k, k < 32 → lengthOk (BitVec.ofNat 8 (lengthTable.getD k 0)) = true := by decide
  have hd := d.isLt
  exact key _ (by omega)

theorem lengthOk_clock (halt : Bool) {b : Byte} (h : lengthOk b = true) : lengthOk (lengthClock halt b) = true := by
  rw [lengthOk_iff] at h ⊢
  unfold lengthClock
  split
  · next hne =>
    have h0 : b.toNat ≠ 0 := fun h0 => hne.1 (BitVec.eq_of_toNat_eq h0)
    have hb := b.isLt
    have h1 : (b - 1).toNat = (256 - 1 + b.toNat) % 256 := by simp [BitVec.toNat_sub]
    omega
  · exact h

theorem lengthOk_gate (e : Bool) {b : Byte} (h : lengthOk b = true) : lengthOk (lengthGate e b) = true := by
  unfold lengthGate
  split
  · exact h
  · rfl

theorem sweepClock_length (one : Bool) (p : Pulse) : (sweepClock one p).length = p.length := by
  unfold sweepClock
  dsimp only
  split <;> split <;> rfl

theorem pulseTimer_length (p : Pulse) : (pulseTimer p).length = p.length := by
  unfold pulseTimer
  split <;> rfl

theorem triangleTimer_length (c : Triangle) : (triangleTimer c).length = c.length := by
  unfold triangleTimer
  split <;> rfl

theorem noiseTimer_length (c : Noise) : (noiseTimer c).length = c.length := by
  unfold noiseTimer
  split <;> rfl

theorem noiseTimer_lfsr {c : Noise} (h : c.lfsr ≠ 0) : (noiseTimer c).lfsr ≠ 0 := by
  unfold noiseTimer
  split
  · exact lfsrNext_ne_zero _ h
  · exact h

/-- The DMC stays silent, with 1 to 8 bits left: nothing refills its buffer (R956). -/
theorem dmcTimer_ok {c : Dmc} (hs : c.silence = true) (h1 : 1 ≤ c.bitsLeft) (h8 : c.bitsLeft ≤ 8) :
    (dmcTimer c).silence = true ∧ 1 ≤ (dmcTimer c).bitsLeft ∧ (dmcTimer c).bitsLeft ≤ 8 ∧
      (dmcTimer c).level = c.level := by
  unfold dmcTimer
  split
  · dsimp only
    split
    · refine ⟨rfl, ?_, ?_, ?_⟩
      · dsimp only
        decide
      · dsimp only
        decide
      · rfl
    · refine ⟨hs, ?_, ?_, ?_⟩
      · dsimp only at *
        omega
      · dsimp only at *
        omega
      · rfl
  · exact ⟨hs, h1, h8, rfl⟩

/-! ## The whole APU -/

/-- `APU_FRAME_DIV` is not 0 (spec/00 R10). -/
theorem calls_pos (div : FrameDiv) : 0 < div.calls := by cases div <;> decide

/-- `apuOk`, part by part. -/
theorem apuOk_iff (div : FrameDiv) (s : Apu) :
    apuOk div s = true ↔
      (lengthOk s.pulse1.length = true ∧ lengthOk s.pulse2.length = true ∧ lengthOk s.triangle.length = true ∧
        lengthOk s.noise.length = true) ∧
      s.noise.lfsr ≠ 0 ∧ (1 ≤ s.dmc.bitsLeft ∧ s.dmc.bitsLeft ≤ 8 ∧ s.dmc.silence = true) ∧
      s.fc < (if s.fcMode then 18640 else 14914) ∧ s.fcPhase < div.calls := by
  simp only [apuOk, Bool.and_eq_true, bne_iff_ne, decide_eq_true_eq]
  tauto

/-- A quarter-frame clock changes only the envelopes and the linear counter. -/
theorem quarterFrame_frame (s : Apu) :
    (quarterFrame s).pulse1.length = s.pulse1.length ∧ (quarterFrame s).pulse2.length = s.pulse2.length ∧
      (quarterFrame s).triangle.length = s.triangle.length ∧ (quarterFrame s).noise.length = s.noise.length ∧
      (quarterFrame s).noise.lfsr = s.noise.lfsr ∧ (quarterFrame s).dmc = s.dmc ∧ (quarterFrame s).fc = s.fc ∧
      (quarterFrame s).fcMode = s.fcMode ∧ (quarterFrame s).fcPhase = s.fcPhase :=
  ⟨rfl, rfl, rfl, rfl, rfl, rfl, rfl, rfl, rfl⟩

theorem fcStart (mode : Bool) : 0 < (if mode = true then 18640 else 14914) := by
  split <;> decide

/-- The parts of `apuOk` that the frame clocks touch. -/
def channelsOk (s : Apu) : Prop :=
  (lengthOk s.pulse1.length = true ∧ lengthOk s.pulse2.length = true ∧ lengthOk s.triangle.length = true ∧
    lengthOk s.noise.length = true) ∧
  s.noise.lfsr ≠ 0 ∧ (1 ≤ s.dmc.bitsLeft ∧ s.dmc.bitsLeft ≤ 8 ∧ s.dmc.silence = true)

theorem halfFrame_channelsOk {s : Apu} (h : channelsOk s) : channelsOk (halfFrame s) := by
  obtain ⟨⟨h1, h2, h3, h4⟩, h5⟩ := h
  refine ⟨⟨?_, ?_, lengthOk_clock _ h3, lengthOk_clock _ h4⟩, h5⟩
  · simpa only [halfFrame, pulseHalfFrame, sweepClock_length] using lengthOk_clock _ h1
  · simpa only [halfFrame, pulseHalfFrame, sweepClock_length] using lengthOk_clock _ h2

theorem frameStep_ok {div : FrameDiv} {s : Apu} (h : apuOk div s = true) : apuOk div (frameStep div s) = true := by
  rw [apuOk_iff] at h ⊢
  obtain ⟨h1, h2, h3, h4, h5⟩ := h
  have hc : channelsOk s := ⟨h1, h2, h3⟩
  have hq : ∀ n ph, channelsOk (quarterFrame { s with fcPhase := ph, fc := n }) := fun _ _ => hc
  have hh : ∀ n ph, channelsOk (halfFrame (quarterFrame { s with fcPhase := ph, fc := n })) :=
    fun n ph => halfFrame_channelsOk (hq n ph)
  have hphase : (s.fcPhase + 1) % div.calls < div.calls := Nat.mod_lt _ (calls_pos div)
  unfold frameStep
  dsimp only
  split
  · exact ⟨h1, h2, h3, h4, hphase⟩
  · split
    · next hm =>
      rw [hm] at h4
      simp only [if_true] at h4
      unfold fiveStep
      dsimp only
      split
      · next he => exact ⟨(hq _ _).1, (hq _ _).2.1, (hq _ _).2.2, by simp [quarterFrame, he, hm], hphase⟩
      · split
        · next he =>
          exact ⟨(hh _ _).1, (hh _ _).2.1, (hh _ _).2.2, by simp [halfFrame, quarterFrame, he, hm], hphase⟩
        · split
          · next he => exact ⟨(hq _ _).1, (hq _ _).2.1, (hq _ _).2.2, by simp [quarterFrame, he, hm], hphase⟩
          · split
            · exact ⟨(hh (s.fc + 1) ((s.fcPhase + 1) % div.calls)).1,
                (hh (s.fc + 1) ((s.fcPhase + 1) % div.calls)).2.1,
                (hh (s.fc + 1) ((s.fcPhase + 1) % div.calls)).2.2,
                by simp [halfFrame, quarterFrame, hm], hphase⟩
            · exact ⟨h1, h2, h3, by dsimp only; omega, hphase⟩
    · next hm =>
      rw [Bool.not_eq_true] at hm
      rw [hm] at h4
      simp only [Bool.false_eq_true, if_false] at h4
      unfold fourStep
      dsimp only
      split
      · next he => exact ⟨(hq _ _).1, (hq _ _).2.1, (hq _ _).2.2, by simp [quarterFrame, he, hm], hphase⟩
      · split
        · next he =>
          exact ⟨(hh _ _).1, (hh _ _).2.1, (hh _ _).2.2, by simp [halfFrame, quarterFrame, he, hm], hphase⟩
        · split
          · next he => exact ⟨(hq _ _).1, (hq _ _).2.1, (hq _ _).2.2, by simp [quarterFrame, he, hm], hphase⟩
          · split
            · exact ⟨(hh (s.fc + 1) ((s.fcPhase + 1) % div.calls)).1,
                (hh (s.fc + 1) ((s.fcPhase + 1) % div.calls)).2.1,
                (hh (s.fc + 1) ((s.fcPhase + 1) % div.calls)).2.2,
                by simp [halfFrame, quarterFrame, hm], hphase⟩
            · exact ⟨h1, h2, h3, by simp only [hm, Bool.false_eq_true, if_false]; omega, hphase⟩

/-- One APU clock keeps every range. -/
theorem apuClock_ok {div : FrameDiv} {s : Apu} (h : apuOk div s = true) : apuOk div (apuClock div s) = true := by
  have h' := frameStep_ok h
  rw [apuOk_iff] at h' ⊢
  obtain ⟨⟨h1, h2, h3, h4⟩, h5, ⟨h6, h7, h8⟩, h9⟩ := h'
  obtain ⟨d1, d2, d3, -⟩ := dmcTimer_ok h8 h6 h7
  refine ⟨⟨?_, ?_, ?_, ?_⟩, noiseTimer_lfsr h5, ⟨d2, d3, d1⟩, h9⟩
  · simpa only [apuClock, pulseTimer_length] using h1
  · simpa only [apuClock, pulseTimer_length] using h2
  · simpa only [apuClock, triangleTimer_length] using h3
  · simpa only [apuClock, noiseTimer_length] using h4

theorem pulseWrite_length (e : Bool) (r : Nat) (d : Byte) {p : Pulse} (h : lengthOk p.length = true) :
    lengthOk (pulseWrite e r d p).length = true := by
  unfold pulseWrite
  split
  · exact h
  · exact h
  · exact h
  · dsimp only
    split
    · exact lengthOk_load d
    · exact h

theorem triangleWrite_length (e : Bool) (r : Nat) (d : Byte) {p : Triangle} (h : lengthOk p.length = true) :
    lengthOk (triangleWrite e r d p).length = true := by
  unfold triangleWrite
  split
  · exact h
  · exact h
  · exact h
  · dsimp only
    split
    · exact lengthOk_load d
    · exact h

theorem noiseWrite_ok (e : Bool) (r : Nat) (d : Byte) {p : Noise} (h : lengthOk p.length = true) :
    lengthOk (noiseWrite e r d p).length = true ∧ (noiseWrite e r d p).lfsr = p.lfsr := by
  unfold noiseWrite
  split
  · exact ⟨h, rfl⟩
  · exact ⟨h, rfl⟩
  · exact ⟨h, rfl⟩
  · refine ⟨?_, rfl⟩
    dsimp only
    split
    · exact lengthOk_load d
    · exact h

theorem dmcWrite_ok (r : Nat) (d : Byte) (c : Dmc) :
    (dmcWrite r d c).bitsLeft = c.bitsLeft ∧ (dmcWrite r d c).silence = c.silence := by
  unfold dmcWrite
  split <;> exact ⟨rfl, rfl⟩

/-- An APU register write keeps every range. -/
theorem apuWrite_ok (addr : Nat) (d : Byte) {div : FrameDiv} {s : Apu} (h : apuOk div s = true) :
    apuOk div (apuWrite addr d s) = true := by
  rw [apuOk_iff] at h ⊢
  obtain ⟨⟨h1, h2, h3, h4⟩, h5, ⟨h6, h7, h8⟩, h9, h10⟩ := h
  unfold apuWrite
  split
  · exact ⟨⟨pulseWrite_length _ _ _ h1, h2, h3, h4⟩, h5, ⟨h6, h7, h8⟩, h9, h10⟩
  · split
    · exact ⟨⟨h1, pulseWrite_length _ _ _ h2, h3, h4⟩, h5, ⟨h6, h7, h8⟩, h9, h10⟩
    · split
      · exact ⟨⟨h1, h2, triangleWrite_length _ _ _ h3, h4⟩, h5, ⟨h6, h7, h8⟩, h9, h10⟩
      · split
        · obtain ⟨n1, n2⟩ := noiseWrite_ok s.enNoise (addr % 4) d h4
          exact ⟨⟨h1, h2, h3, n1⟩, by simpa only [n2] using h5, ⟨h6, h7, h8⟩, h9, h10⟩
        · split
          · obtain ⟨d1, d2⟩ := dmcWrite_ok (addr % 4) d s.dmc
            exact ⟨⟨h1, h2, h3, h4⟩, h5, by simpa only [d1, d2] using ⟨h6, h7, h8⟩, h9, h10⟩
          · split
            · exact ⟨⟨lengthOk_gate _ h1, lengthOk_gate _ h2, lengthOk_gate _ h3, lengthOk_gate _ h4⟩, h5,
                ⟨h6, h7, h8⟩, h9, h10⟩
            · unfold writeFrameCounter
              dsimp only
              split
              · have hc : channelsOk (halfFrame (quarterFrame { s with
                    fcMode := d.getLsbD 7, fcInhibit := d.getLsbD 6, fc := 0, fcPhase := 0
                    frameIrq := if d.getLsbD 6 then false else s.frameIrq })) :=
                  halfFrame_channelsOk ⟨⟨h1, h2, h3, h4⟩, h5, ⟨h6, h7, h8⟩⟩
                exact ⟨hc.1, hc.2.1, hc.2.2, fcStart _, calls_pos div⟩
              · refine ⟨⟨h1, h2, h3, h4⟩, h5, ⟨h6, h7, h8⟩, ?_, calls_pos div⟩
                dsimp only
                decide

end Sys2Proof.Machine
end

