-- ==== Sys2Proof/Laws/Cells.lean ====
section
/-! SUPPORT. The laws of a memory held as cells: read after write, and the canonical form. -/

namespace Sys2Proof.Machine

variable {w : Nat}

@[simp] theorem cellGet_cellSet_same (c : Cells w) (k : Nat) (v : BitVec w) :
    cellGet (cellSet c k v) k = some v := by
  induction c with
  | nil => simp [cellSet, cellGet]
  | cons e rest ih =>
    obtain ⟨a, u⟩ := e
    simp only [cellSet]
    split
    · simp [cellGet]
    · split
      · simp [cellGet]
      · simp only [cellGet, ih]
        split
        · omega
        · rfl

theorem cellGet_cellSet_other (c : Cells w) {k j : Nat} (v : BitVec w) (h : j ≠ k) :
    cellGet (cellSet c k v) j = cellGet c j := by
  induction c with
  | nil => simp [cellSet, cellGet, Ne.symm h]
  | cons e rest ih =>
    obtain ⟨a, u⟩ := e
    simp only [cellSet]
    split
    · simp [cellGet, Ne.symm h]
    · split
      · next hk => subst hk; simp [cellGet, Ne.symm h]
      · simp only [cellGet, ih]

theorem risingFrom_mono {lo lo' size : Nat} {c : Cells w} (h : lo ≤ lo') (hc : risingFrom lo' size c = true) :
    risingFrom lo size c = true := by
  cases c with
  | nil => rfl
  | cons e rest =>
    obtain ⟨a, u⟩ := e
    simp only [risingFrom, Bool.and_eq_true, decide_eq_true_eq] at hc ⊢
    exact ⟨⟨by omega, hc.1.2⟩, hc.2⟩

theorem risingFrom_cellSet {lo size k : Nat} {c : Cells w} (v : BitVec w) (hlo : lo ≤ k) (hk : k < size)
    (hc : risingFrom lo size c = true) : risingFrom lo size (cellSet c k v) = true := by
  induction c generalizing lo with
  | nil => simp [cellSet, risingFrom, hlo, hk]
  | cons e rest ih =>
    obtain ⟨a, u⟩ := e
    simp only [risingFrom, Bool.and_eq_true, decide_eq_true_eq] at hc
    obtain ⟨⟨h1, h2⟩, h3⟩ := hc
    simp only [cellSet]
    split
    · next hka => simp [risingFrom, hlo, hk, h2, h3]; omega
    · split
      · next hka => subst hka; simp [risingFrom, h1, h2, h3]
      · simp only [risingFrom, Bool.and_eq_true, decide_eq_true_eq]
        exact ⟨⟨h1, h2⟩, ih (by omega) h3⟩

/-- A write of a cell within a memory's size keeps the memory's canonical form. -/
theorem cellsWf_cellSet {size k : Nat} {c : Cells w} (v : BitVec w) (hk : k < size) (hc : cellsWf size c = true) :
    cellsWf size (cellSet c k v) = true :=
  risingFrom_cellSet v (Nat.zero_le k) hk hc

@[simp] theorem cellsWf_nil (size : Nat) : cellsWf size ([] : Cells w) = true := rfl

/-- The cells below a smaller size are a memory of that size. -/
theorem risingFrom_filter {lo size size' : Nat} {c : Cells w} (h : risingFrom lo size c = true) :
    risingFrom lo size' (c.filter (fun e => decide (e.1 < size'))) = true := by
  induction c generalizing lo with
  | nil => rfl
  | cons e rest ih =>
    obtain ⟨a, u⟩ := e
    simp only [risingFrom, Bool.and_eq_true, decide_eq_true_eq] at h
    by_cases ha : a < size'
    · simp [ha, risingFrom, h.1.1, ih h.2]
    · simp only [List.filter, ha, decide_false]
      exact risingFrom_mono (by omega) (ih h.2)

/-- Two memories in canonical form that list the same values are the same list. -/
theorem risingFrom_ext {lo size : Nat} {c d : Cells w} (hc : risingFrom lo size c = true)
    (hd : risingFrom lo size d = true) (h : ∀ k, cellGet c k = cellGet d k) : c = d := by
  have none_below : ∀ (e : Cells w) (l k : Nat), risingFrom l size e = true → k < l → cellGet e k = none := by
    intro e
    induction e with
    | nil => intros; rfl
    | cons p rest ih =>
      obtain ⟨a, u⟩ := p
      intro l k he hk
      simp only [risingFrom, Bool.and_eq_true, decide_eq_true_eq] at he
      simp only [cellGet]
      split
      · omega
      · exact ih (a + 1) k he.2 (by omega)
  induction c generalizing lo d with
  | nil =>
    cases d with
    | nil => rfl
    | cons p rest =>
      obtain ⟨a, u⟩ := p
      have := h a
      simp [cellGet] at this
  | cons p rest ih =>
    obtain ⟨a, u⟩ := p
    cases d with
    | nil =>
      have := h a
      simp [cellGet] at this
    | cons q rest' =>
      obtain ⟨b, v⟩ := q
      simp only [risingFrom, Bool.and_eq_true, decide_eq_true_eq] at hc hd
      have hab : a = b := by
        rcases Nat.lt_trichotomy a b with hl | he | hg
        · have h1 := h a
          simp only [cellGet, if_true] at h1
          rw [if_neg (by omega), none_below rest' (b + 1) a hd.2 (by omega)] at h1
          cases h1
        · exact he
        · have h1 := h b
          simp only [cellGet, if_true] at h1
          rw [if_neg (by omega), none_below rest (a + 1) b hc.2 (by omega)] at h1
          cases h1
      subst hab
      have huv : u = v := by
        have h1 := h a
        simpa [cellGet] using h1
      subst huv
      rw [ih hc.2 hd.2]
      intro k
      by_cases hk : k = a
      · subst hk
        rw [none_below rest (k + 1) k hc.2 (by omega), none_below rest' (k + 1) k hd.2 (by omega)]
      · have h1 := h k
        simpa [cellGet, Ne.symm hk] using h1

theorem byteAt_cellSet_same (sp : MemSpace) (c : Cells 8) (k : Nat) (v : Byte) : byteAt sp (cellSet c k v) k = v := by
  simp [byteAt]

theorem byteAt_cellSet_other (sp : MemSpace) (c : Cells 8) {k j : Nat} (v : Byte) (h : j ≠ k) :
    byteAt sp (cellSet c k v) j = byteAt sp c j := by
  simp [byteAt, cellGet_cellSet_other c v h]

/-- A byte of a memory after one cell is written. -/
theorem byteAt_cellSet (sp : MemSpace) (c : Cells 8) (k j : Nat) (v : Byte) :
    byteAt sp (cellSet c k v) j = if j = k then v else byteAt sp c j := by
  split
  · next h => rw [h, byteAt_cellSet_same]
  · next h => exact byteAt_cellSet_other sp c v h

end Sys2Proof.Machine
end

