-- ==== Sys2Proof/Laws/State.lean ====
section
/-! SUPPORT. What the parameters can be, and one lemma per field per update of State, each true by rfl. -/

namespace Sys2Proof

/-! ## The parameters -/

/-- At the defaults every illegal byte costs 2 (spec/92 D5). -/
@[simp] theorem illegalCount_default (op : Byte) : Params.default.illegalCount op = 2 := rfl

/-- A listed byte's count is the one of its first entry; an unlisted byte's is 2. -/
theorem illegalCount_cons (op b : Byte) (n resetCycles : Nat) (rest : List (Byte × Nat)) (div : FrameDiv) :
    Params.illegalCount ⟨(b, n) :: rest, resetCycles, div⟩ op =
      if op = b then n else Params.illegalCount ⟨rest, resetCycles, div⟩ op := by
  by_cases h : op = b
  · simp [Params.illegalCount, h]
  · simp [Params.illegalCount, List.lookup_cons, h, beq_false_of_ne h]

/-- Every table of counts is one that the parameters can hold (spec/92 D5: `Byte -> Nat`). -/
theorem illegalCount_any (f : Byte → Nat) (resetCycles : Nat) (div : FrameDiv) :
    ∃ table, ∀ op, Params.illegalCount ⟨table, resetCycles, div⟩ op = f op := by
  have key : ∀ ops : List Byte, ∃ table, ∀ op ∈ ops, Params.illegalCount ⟨table, resetCycles, div⟩ op = f op := by
    intro ops
    induction ops with
    | nil => exact ⟨[], by simp⟩
    | cons b ops ih =>
      obtain ⟨table, h⟩ := ih
      refine ⟨(b, f b) :: table, fun op hop => ?_⟩
      rw [illegalCount_cons]
      split
      · next hb => rw [hb]
      · next hb => exact h op ((List.mem_cons.mp hop).resolve_left hb)
  obtain ⟨table, h⟩ := key ((List.finRange 256).map BitVec.ofFin)
  exact ⟨table, fun op => h op (List.mem_map.mpr ⟨op.toFin, List.mem_finRange _, rfl⟩)⟩

/-- A bound on every listed count, at least the default's, bounds the count of every byte. -/
theorem illegalCount_le {bound : Nat} (h2 : 2 ≤ bound) {q : Params} (h : ∀ e ∈ q.illegalCycles, e.2 ≤ bound)
    (op : Byte) : q.illegalCount op ≤ bound := by
  obtain ⟨table, resetCycles, div⟩ := q
  dsimp only at h
  induction table with
  | nil => exact h2
  | cons e rest ih =>
    obtain ⟨b, n⟩ := e
    rw [illegalCount_cons]
    split
    · exact h (b, n) (List.mem_cons_self ..)
    · exact ih fun e he => h e (List.mem_cons_of_mem _ he)

end Sys2Proof

namespace Sys2Proof.Machine

/-! ## The updates of State -/

section setA

variable (s : State) (v : Byte)

@[simp] theorem setA_cpu_a : (s.setA v).cpu.a = v := rfl
@[simp] theorem setA_cpu_x : (s.setA v).cpu.x = s.cpu.x := rfl
@[simp] theorem setA_cpu_y : (s.setA v).cpu.y = s.cpu.y := rfl
@[simp] theorem setA_cpu_sp : (s.setA v).cpu.sp = s.cpu.sp := rfl
@[simp] theorem setA_cpu_pc : (s.setA v).cpu.pc = s.cpu.pc := rfl
@[simp] theorem setA_cpu_p : (s.setA v).cpu.p = s.cpu.p := rfl
@[simp] theorem setA_cpu_cycles : (s.setA v).cpu.cycles = s.cpu.cycles := rfl
@[simp] theorem setA_cpu_opcode : (s.setA v).cpu.opcode = s.cpu.opcode := rfl
@[simp] theorem setA_cpu_ea : (s.setA v).cpu.ea = s.cpu.ea := rfl
@[simp] theorem setA_cpu_m : (s.setA v).cpu.m = s.cpu.m := rfl
@[simp] theorem setA_cpu_modeExtra : (s.setA v).cpu.modeExtra = s.cpu.modeExtra := rfl
@[simp] theorem setA_cpu_opExtra : (s.setA v).cpu.opExtra = s.cpu.opExtra := rfl
@[simp] theorem setA_cpu_latchDraws : (s.setA v).cpu.latchDraws = s.cpu.latchDraws := rfl
@[simp] theorem setA_params : (s.setA v).params = s.params := rfl
@[simp] theorem setA_ram : (s.setA v).ram = s.ram := rfl
@[simp] theorem setA_ppu : (s.setA v).ppu = s.ppu := rfl
@[simp] theorem setA_apu : (s.setA v).apu = s.apu := rfl
@[simp] theorem setA_dma : (s.setA v).dma = s.dma := rfl
@[simp] theorem setA_ports : (s.setA v).ports = s.ports := rfl
@[simp] theorem setA_cart : (s.setA v).cart = s.cart := rfl
@[simp] theorem setA_nmiPending : (s.setA v).nmiPending = s.nmiPending := rfl
@[simp] theorem setA_irqLine : (s.setA v).irqLine = s.irqLine := rfl
@[simp] theorem setA_masterTick : (s.setA v).masterTick = s.masterTick := rfl
@[simp] theorem setA_cpuCycle : (s.setA v).cpuCycle = s.cpuCycle := rfl

end setA

section setX

variable (s : State) (v : Byte)

@[simp] theorem setX_cpu_a : (s.setX v).cpu.a = s.cpu.a := rfl
@[simp] theorem setX_cpu_x : (s.setX v).cpu.x = v := rfl
@[simp] theorem setX_cpu_y : (s.setX v).cpu.y = s.cpu.y := rfl
@[simp] theorem setX_cpu_sp : (s.setX v).cpu.sp = s.cpu.sp := rfl
@[simp] theorem setX_cpu_pc : (s.setX v).cpu.pc = s.cpu.pc := rfl
@[simp] theorem setX_cpu_p : (s.setX v).cpu.p = s.cpu.p := rfl
@[simp] theorem setX_cpu_cycles : (s.setX v).cpu.cycles = s.cpu.cycles := rfl
@[simp] theorem setX_cpu_opcode : (s.setX v).cpu.opcode = s.cpu.opcode := rfl
@[simp] theorem setX_cpu_ea : (s.setX v).cpu.ea = s.cpu.ea := rfl
@[simp] theorem setX_cpu_m : (s.setX v).cpu.m = s.cpu.m := rfl
@[simp] theorem setX_cpu_modeExtra : (s.setX v).cpu.modeExtra = s.cpu.modeExtra := rfl
@[simp] theorem setX_cpu_opExtra : (s.setX v).cpu.opExtra = s.cpu.opExtra := rfl
@[simp] theorem setX_cpu_latchDraws : (s.setX v).cpu.latchDraws = s.cpu.latchDraws := rfl
@[simp] theorem setX_params : (s.setX v).params = s.params := rfl
@[simp] theorem setX_ram : (s.setX v).ram = s.ram := rfl
@[simp] theorem setX_ppu : (s.setX v).ppu = s.ppu := rfl
@[simp] theorem setX_apu : (s.setX v).apu = s.apu := rfl
@[simp] theorem setX_dma : (s.setX v).dma = s.dma := rfl
@[simp] theorem setX_ports : (s.setX v).ports = s.ports := rfl
@[simp] theorem setX_cart : (s.setX v).cart = s.cart := rfl
@[simp] theorem setX_nmiPending : (s.setX v).nmiPending = s.nmiPending := rfl
@[simp] theorem setX_irqLine : (s.setX v).irqLine = s.irqLine := rfl
@[simp] theorem setX_masterTick : (s.setX v).masterTick = s.masterTick := rfl
@[simp] theorem setX_cpuCycle : (s.setX v).cpuCycle = s.cpuCycle := rfl

end setX

section setY

variable (s : State) (v : Byte)

@[simp] theorem setY_cpu_a : (s.setY v).cpu.a = s.cpu.a := rfl
@[simp] theorem setY_cpu_x : (s.setY v).cpu.x = s.cpu.x := rfl
@[simp] theorem setY_cpu_y : (s.setY v).cpu.y = v := rfl
@[simp] theorem setY_cpu_sp : (s.setY v).cpu.sp = s.cpu.sp := rfl
@[simp] theorem setY_cpu_pc : (s.setY v).cpu.pc = s.cpu.pc := rfl
@[simp] theorem setY_cpu_p : (s.setY v).cpu.p = s.cpu.p := rfl
@[simp] theorem setY_cpu_cycles : (s.setY v).cpu.cycles = s.cpu.cycles := rfl
@[simp] theorem setY_cpu_opcode : (s.setY v).cpu.opcode = s.cpu.opcode := rfl
@[simp] theorem setY_cpu_ea : (s.setY v).cpu.ea = s.cpu.ea := rfl
@[simp] theorem setY_cpu_m : (s.setY v).cpu.m = s.cpu.m := rfl
@[simp] theorem setY_cpu_modeExtra : (s.setY v).cpu.modeExtra = s.cpu.modeExtra := rfl
@[simp] theorem setY_cpu_opExtra : (s.setY v).cpu.opExtra = s.cpu.opExtra := rfl
@[simp] theorem setY_cpu_latchDraws : (s.setY v).cpu.latchDraws = s.cpu.latchDraws := rfl
@[simp] theorem setY_params : (s.setY v).params = s.params := rfl
@[simp] theorem setY_ram : (s.setY v).ram = s.ram := rfl
@[simp] theorem setY_ppu : (s.setY v).ppu = s.ppu := rfl
@[simp] theorem setY_apu : (s.setY v).apu = s.apu := rfl
@[simp] theorem setY_dma : (s.setY v).dma = s.dma := rfl
@[simp] theorem setY_ports : (s.setY v).ports = s.ports := rfl
@[simp] theorem setY_cart : (s.setY v).cart = s.cart := rfl
@[simp] theorem setY_nmiPending : (s.setY v).nmiPending = s.nmiPending := rfl
@[simp] theorem setY_irqLine : (s.setY v).irqLine = s.irqLine := rfl
@[simp] theorem setY_masterTick : (s.setY v).masterTick = s.masterTick := rfl
@[simp] theorem setY_cpuCycle : (s.setY v).cpuCycle = s.cpuCycle := rfl

end setY

section setSp

variable (s : State) (v : Byte)

@[simp] theorem setSp_cpu_a : (s.setSp v).cpu.a = s.cpu.a := rfl
@[simp] theorem setSp_cpu_x : (s.setSp v).cpu.x = s.cpu.x := rfl
@[simp] theorem setSp_cpu_y : (s.setSp v).cpu.y = s.cpu.y := rfl
@[simp] theorem setSp_cpu_sp : (s.setSp v).cpu.sp = v := rfl
@[simp] theorem setSp_cpu_pc : (s.setSp v).cpu.pc = s.cpu.pc := rfl
@[simp] theorem setSp_cpu_p : (s.setSp v).cpu.p = s.cpu.p := rfl
@[simp] theorem setSp_cpu_cycles : (s.setSp v).cpu.cycles = s.cpu.cycles := rfl
@[simp] theorem setSp_cpu_opcode : (s.setSp v).cpu.opcode = s.cpu.opcode := rfl
@[simp] theorem setSp_cpu_ea : (s.setSp v).cpu.ea = s.cpu.ea := rfl
@[simp] theorem setSp_cpu_m : (s.setSp v).cpu.m = s.cpu.m := rfl
@[simp] theorem setSp_cpu_modeExtra : (s.setSp v).cpu.modeExtra = s.cpu.modeExtra := rfl
@[simp] theorem setSp_cpu_opExtra : (s.setSp v).cpu.opExtra = s.cpu.opExtra := rfl
@[simp] theorem setSp_cpu_latchDraws : (s.setSp v).cpu.latchDraws = s.cpu.latchDraws := rfl
@[simp] theorem setSp_params : (s.setSp v).params = s.params := rfl
@[simp] theorem setSp_ram : (s.setSp v).ram = s.ram := rfl
@[simp] theorem setSp_ppu : (s.setSp v).ppu = s.ppu := rfl
@[simp] theorem setSp_apu : (s.setSp v).apu = s.apu := rfl
@[simp] theorem setSp_dma : (s.setSp v).dma = s.dma := rfl
@[simp] theorem setSp_ports : (s.setSp v).ports = s.ports := rfl
@[simp] theorem setSp_cart : (s.setSp v).cart = s.cart := rfl
@[simp] theorem setSp_nmiPending : (s.setSp v).nmiPending = s.nmiPending := rfl
@[simp] theorem setSp_irqLine : (s.setSp v).irqLine = s.irqLine := rfl
@[simp] theorem setSp_masterTick : (s.setSp v).masterTick = s.masterTick := rfl
@[simp] theorem setSp_cpuCycle : (s.setSp v).cpuCycle = s.cpuCycle := rfl

end setSp

section setPc

variable (s : State) (v : Word)

@[simp] theorem setPc_cpu_a : (s.setPc v).cpu.a = s.cpu.a := rfl
@[simp] theorem setPc_cpu_x : (s.setPc v).cpu.x = s.cpu.x := rfl
@[simp] theorem setPc_cpu_y : (s.setPc v).cpu.y = s.cpu.y := rfl
@[simp] theorem setPc_cpu_sp : (s.setPc v).cpu.sp = s.cpu.sp := rfl
@[simp] theorem setPc_cpu_pc : (s.setPc v).cpu.pc = v := rfl
@[simp] theorem setPc_cpu_p : (s.setPc v).cpu.p = s.cpu.p := rfl
@[simp] theorem setPc_cpu_cycles : (s.setPc v).cpu.cycles = s.cpu.cycles := rfl
@[simp] theorem setPc_cpu_opcode : (s.setPc v).cpu.opcode = s.cpu.opcode := rfl
@[simp] theorem setPc_cpu_ea : (s.setPc v).cpu.ea = s.cpu.ea := rfl
@[simp] theorem setPc_cpu_m : (s.setPc v).cpu.m = s.cpu.m := rfl
@[simp] theorem setPc_cpu_modeExtra : (s.setPc v).cpu.modeExtra = s.cpu.modeExtra := rfl
@[simp] theorem setPc_cpu_opExtra : (s.setPc v).cpu.opExtra = s.cpu.opExtra := rfl
@[simp] theorem setPc_cpu_latchDraws : (s.setPc v).cpu.latchDraws = s.cpu.latchDraws := rfl
@[simp] theorem setPc_params : (s.setPc v).params = s.params := rfl
@[simp] theorem setPc_ram : (s.setPc v).ram = s.ram := rfl
@[simp] theorem setPc_ppu : (s.setPc v).ppu = s.ppu := rfl
@[simp] theorem setPc_apu : (s.setPc v).apu = s.apu := rfl
@[simp] theorem setPc_dma : (s.setPc v).dma = s.dma := rfl
@[simp] theorem setPc_ports : (s.setPc v).ports = s.ports := rfl
@[simp] theorem setPc_cart : (s.setPc v).cart = s.cart := rfl
@[simp] theorem setPc_nmiPending : (s.setPc v).nmiPending = s.nmiPending := rfl
@[simp] theorem setPc_irqLine : (s.setPc v).irqLine = s.irqLine := rfl
@[simp] theorem setPc_masterTick : (s.setPc v).masterTick = s.masterTick := rfl
@[simp] theorem setPc_cpuCycle : (s.setPc v).cpuCycle = s.cpuCycle := rfl

end setPc

section setP

variable (s : State) (v : Byte)

@[simp] theorem setP_cpu_a : (s.setP v).cpu.a = s.cpu.a := rfl
@[simp] theorem setP_cpu_x : (s.setP v).cpu.x = s.cpu.x := rfl
@[simp] theorem setP_cpu_y : (s.setP v).cpu.y = s.cpu.y := rfl
@[simp] theorem setP_cpu_sp : (s.setP v).cpu.sp = s.cpu.sp := rfl
@[simp] theorem setP_cpu_pc : (s.setP v).cpu.pc = s.cpu.pc := rfl
@[simp] theorem setP_cpu_p : (s.setP v).cpu.p = v := rfl
@[simp] theorem setP_cpu_cycles : (s.setP v).cpu.cycles = s.cpu.cycles := rfl
@[simp] theorem setP_cpu_opcode : (s.setP v).cpu.opcode = s.cpu.opcode := rfl
@[simp] theorem setP_cpu_ea : (s.setP v).cpu.ea = s.cpu.ea := rfl
@[simp] theorem setP_cpu_m : (s.setP v).cpu.m = s.cpu.m := rfl
@[simp] theorem setP_cpu_modeExtra : (s.setP v).cpu.modeExtra = s.cpu.modeExtra := rfl
@[simp] theorem setP_cpu_opExtra : (s.setP v).cpu.opExtra = s.cpu.opExtra := rfl
@[simp] theorem setP_cpu_latchDraws : (s.setP v).cpu.latchDraws = s.cpu.latchDraws := rfl
@[simp] theorem setP_params : (s.setP v).params = s.params := rfl
@[simp] theorem setP_ram : (s.setP v).ram = s.ram := rfl
@[simp] theorem setP_ppu : (s.setP v).ppu = s.ppu := rfl
@[simp] theorem setP_apu : (s.setP v).apu = s.apu := rfl
@[simp] theorem setP_dma : (s.setP v).dma = s.dma := rfl
@[simp] theorem setP_ports : (s.setP v).ports = s.ports := rfl
@[simp] theorem setP_cart : (s.setP v).cart = s.cart := rfl
@[simp] theorem setP_nmiPending : (s.setP v).nmiPending = s.nmiPending := rfl
@[simp] theorem setP_irqLine : (s.setP v).irqLine = s.irqLine := rfl
@[simp] theorem setP_masterTick : (s.setP v).masterTick = s.masterTick := rfl
@[simp] theorem setP_cpuCycle : (s.setP v).cpuCycle = s.cpuCycle := rfl

end setP

section setCycles

variable (s : State) (n : Nat)

@[simp] theorem setCycles_cpu_a : (s.setCycles n).cpu.a = s.cpu.a := rfl
@[simp] theorem setCycles_cpu_x : (s.setCycles n).cpu.x = s.cpu.x := rfl
@[simp] theorem setCycles_cpu_y : (s.setCycles n).cpu.y = s.cpu.y := rfl
@[simp] theorem setCycles_cpu_sp : (s.setCycles n).cpu.sp = s.cpu.sp := rfl
@[simp] theorem setCycles_cpu_pc : (s.setCycles n).cpu.pc = s.cpu.pc := rfl
@[simp] theorem setCycles_cpu_p : (s.setCycles n).cpu.p = s.cpu.p := rfl
@[simp] theorem setCycles_cpu_cycles : (s.setCycles n).cpu.cycles = n := rfl
@[simp] theorem setCycles_cpu_opcode : (s.setCycles n).cpu.opcode = s.cpu.opcode := rfl
@[simp] theorem setCycles_cpu_ea : (s.setCycles n).cpu.ea = s.cpu.ea := rfl
@[simp] theorem setCycles_cpu_m : (s.setCycles n).cpu.m = s.cpu.m := rfl
@[simp] theorem setCycles_cpu_modeExtra : (s.setCycles n).cpu.modeExtra = s.cpu.modeExtra := rfl
@[simp] theorem setCycles_cpu_opExtra : (s.setCycles n).cpu.opExtra = s.cpu.opExtra := rfl
@[simp] theorem setCycles_cpu_latchDraws : (s.setCycles n).cpu.latchDraws = s.cpu.latchDraws := rfl
@[simp] theorem setCycles_params : (s.setCycles n).params = s.params := rfl
@[simp] theorem setCycles_ram : (s.setCycles n).ram = s.ram := rfl
@[simp] theorem setCycles_ppu : (s.setCycles n).ppu = s.ppu := rfl
@[simp] theorem setCycles_apu : (s.setCycles n).apu = s.apu := rfl
@[simp] theorem setCycles_dma : (s.setCycles n).dma = s.dma := rfl
@[simp] theorem setCycles_ports : (s.setCycles n).ports = s.ports := rfl
@[simp] theorem setCycles_cart : (s.setCycles n).cart = s.cart := rfl
@[simp] theorem setCycles_nmiPending : (s.setCycles n).nmiPending = s.nmiPending := rfl
@[simp] theorem setCycles_irqLine : (s.setCycles n).irqLine = s.irqLine := rfl
@[simp] theorem setCycles_masterTick : (s.setCycles n).masterTick = s.masterTick := rfl
@[simp] theorem setCycles_cpuCycle : (s.setCycles n).cpuCycle = s.cpuCycle := rfl

end setCycles

section setM

variable (s : State) (v : Byte)

@[simp] theorem setM_cpu_a : (s.setM v).cpu.a = s.cpu.a := rfl
@[simp] theorem setM_cpu_x : (s.setM v).cpu.x = s.cpu.x := rfl
@[simp] theorem setM_cpu_y : (s.setM v).cpu.y = s.cpu.y := rfl
@[simp] theorem setM_cpu_sp : (s.setM v).cpu.sp = s.cpu.sp := rfl
@[simp] theorem setM_cpu_pc : (s.setM v).cpu.pc = s.cpu.pc := rfl
@[simp] theorem setM_cpu_p : (s.setM v).cpu.p = s.cpu.p := rfl
@[simp] theorem setM_cpu_cycles : (s.setM v).cpu.cycles = s.cpu.cycles := rfl
@[simp] theorem setM_cpu_opcode : (s.setM v).cpu.opcode = s.cpu.opcode := rfl
@[simp] theorem setM_cpu_ea : (s.setM v).cpu.ea = s.cpu.ea := rfl
@[simp] theorem setM_cpu_m : (s.setM v).cpu.m = v := rfl
@[simp] theorem setM_cpu_modeExtra : (s.setM v).cpu.modeExtra = s.cpu.modeExtra := rfl
@[simp] theorem setM_cpu_opExtra : (s.setM v).cpu.opExtra = s.cpu.opExtra := rfl
@[simp] theorem setM_cpu_latchDraws : (s.setM v).cpu.latchDraws = s.cpu.latchDraws := rfl
@[simp] theorem setM_params : (s.setM v).params = s.params := rfl
@[simp] theorem setM_ram : (s.setM v).ram = s.ram := rfl
@[simp] theorem setM_ppu : (s.setM v).ppu = s.ppu := rfl
@[simp] theorem setM_apu : (s.setM v).apu = s.apu := rfl
@[simp] theorem setM_dma : (s.setM v).dma = s.dma := rfl
@[simp] theorem setM_ports : (s.setM v).ports = s.ports := rfl
@[simp] theorem setM_cart : (s.setM v).cart = s.cart := rfl
@[simp] theorem setM_nmiPending : (s.setM v).nmiPending = s.nmiPending := rfl
@[simp] theorem setM_irqLine : (s.setM v).irqLine = s.irqLine := rfl
@[simp] theorem setM_masterTick : (s.setM v).masterTick = s.masterTick := rfl
@[simp] theorem setM_cpuCycle : (s.setM v).cpuCycle = s.cpuCycle := rfl

end setM

section setOpcode

variable (s : State) (v : Byte)

@[simp] theorem setOpcode_cpu_a : (s.setOpcode v).cpu.a = s.cpu.a := rfl
@[simp] theorem setOpcode_cpu_x : (s.setOpcode v).cpu.x = s.cpu.x := rfl
@[simp] theorem setOpcode_cpu_y : (s.setOpcode v).cpu.y = s.cpu.y := rfl
@[simp] theorem setOpcode_cpu_sp : (s.setOpcode v).cpu.sp = s.cpu.sp := rfl
@[simp] theorem setOpcode_cpu_pc : (s.setOpcode v).cpu.pc = s.cpu.pc := rfl
@[simp] theorem setOpcode_cpu_p : (s.setOpcode v).cpu.p = s.cpu.p := rfl
@[simp] theorem setOpcode_cpu_cycles : (s.setOpcode v).cpu.cycles = s.cpu.cycles := rfl
@[simp] theorem setOpcode_cpu_opcode : (s.setOpcode v).cpu.opcode = v := rfl
@[simp] theorem setOpcode_cpu_ea : (s.setOpcode v).cpu.ea = s.cpu.ea := rfl
@[simp] theorem setOpcode_cpu_m : (s.setOpcode v).cpu.m = s.cpu.m := rfl
@[simp] theorem setOpcode_cpu_modeExtra : (s.setOpcode v).cpu.modeExtra = s.cpu.modeExtra := rfl
@[simp] theorem setOpcode_cpu_opExtra : (s.setOpcode v).cpu.opExtra = s.cpu.opExtra := rfl
@[simp] theorem setOpcode_cpu_latchDraws : (s.setOpcode v).cpu.latchDraws = s.cpu.latchDraws := rfl
@[simp] theorem setOpcode_params : (s.setOpcode v).params = s.params := rfl
@[simp] theorem setOpcode_ram : (s.setOpcode v).ram = s.ram := rfl
@[simp] theorem setOpcode_ppu : (s.setOpcode v).ppu = s.ppu := rfl
@[simp] theorem setOpcode_apu : (s.setOpcode v).apu = s.apu := rfl
@[simp] theorem setOpcode_dma : (s.setOpcode v).dma = s.dma := rfl
@[simp] theorem setOpcode_ports : (s.setOpcode v).ports = s.ports := rfl
@[simp] theorem setOpcode_cart : (s.setOpcode v).cart = s.cart := rfl
@[simp] theorem setOpcode_nmiPending : (s.setOpcode v).nmiPending = s.nmiPending := rfl
@[simp] theorem setOpcode_irqLine : (s.setOpcode v).irqLine = s.irqLine := rfl
@[simp] theorem setOpcode_masterTick : (s.setOpcode v).masterTick = s.masterTick := rfl
@[simp] theorem setOpcode_cpuCycle : (s.setOpcode v).cpuCycle = s.cpuCycle := rfl

end setOpcode

section setEa

variable (s : State) (ea : Word) (extra : Bool)

@[simp] theorem setEa_cpu_a : (s.setEa ea extra).cpu.a = s.cpu.a := rfl
@[simp] theorem setEa_cpu_x : (s.setEa ea extra).cpu.x = s.cpu.x := rfl
@[simp] theorem setEa_cpu_y : (s.setEa ea extra).cpu.y = s.cpu.y := rfl
@[simp] theorem setEa_cpu_sp : (s.setEa ea extra).cpu.sp = s.cpu.sp := rfl
@[simp] theorem setEa_cpu_pc : (s.setEa ea extra).cpu.pc = s.cpu.pc := rfl
@[simp] theorem setEa_cpu_p : (s.setEa ea extra).cpu.p = s.cpu.p := rfl
@[simp] theorem setEa_cpu_cycles : (s.setEa ea extra).cpu.cycles = s.cpu.cycles := rfl
@[simp] theorem setEa_cpu_opcode : (s.setEa ea extra).cpu.opcode = s.cpu.opcode := rfl
@[simp] theorem setEa_cpu_ea : (s.setEa ea extra).cpu.ea = ea := rfl
@[simp] theorem setEa_cpu_m : (s.setEa ea extra).cpu.m = s.cpu.m := rfl
@[simp] theorem setEa_cpu_modeExtra : (s.setEa ea extra).cpu.modeExtra = extra := rfl
@[simp] theorem setEa_cpu_opExtra : (s.setEa ea extra).cpu.opExtra = s.cpu.opExtra := rfl
@[simp] theorem setEa_cpu_latchDraws : (s.setEa ea extra).cpu.latchDraws = s.cpu.latchDraws := rfl
@[simp] theorem setEa_params : (s.setEa ea extra).params = s.params := rfl
@[simp] theorem setEa_ram : (s.setEa ea extra).ram = s.ram := rfl
@[simp] theorem setEa_ppu : (s.setEa ea extra).ppu = s.ppu := rfl
@[simp] theorem setEa_apu : (s.setEa ea extra).apu = s.apu := rfl
@[simp] theorem setEa_dma : (s.setEa ea extra).dma = s.dma := rfl
@[simp] theorem setEa_ports : (s.setEa ea extra).ports = s.ports := rfl
@[simp] theorem setEa_cart : (s.setEa ea extra).cart = s.cart := rfl
@[simp] theorem setEa_nmiPending : (s.setEa ea extra).nmiPending = s.nmiPending := rfl
@[simp] theorem setEa_irqLine : (s.setEa ea extra).irqLine = s.irqLine := rfl
@[simp] theorem setEa_masterTick : (s.setEa ea extra).masterTick = s.masterTick := rfl
@[simp] theorem setEa_cpuCycle : (s.setEa ea extra).cpuCycle = s.cpuCycle := rfl

end setEa

section dropLatches

variable (s : State)

@[simp] theorem dropLatches_cpu_a : s.dropLatches.cpu.a = s.cpu.a := rfl
@[simp] theorem dropLatches_cpu_x : s.dropLatches.cpu.x = s.cpu.x := rfl
@[simp] theorem dropLatches_cpu_y : s.dropLatches.cpu.y = s.cpu.y := rfl
@[simp] theorem dropLatches_cpu_sp : s.dropLatches.cpu.sp = s.cpu.sp := rfl
@[simp] theorem dropLatches_cpu_pc : s.dropLatches.cpu.pc = s.cpu.pc := rfl
@[simp] theorem dropLatches_cpu_p : s.dropLatches.cpu.p = s.cpu.p := rfl
@[simp] theorem dropLatches_cpu_cycles : s.dropLatches.cpu.cycles = s.cpu.cycles := rfl
@[simp] theorem dropLatches_cpu_opcode : s.dropLatches.cpu.opcode = (Config.latchDraw s.cpu.latchDraws).opcode := rfl
@[simp] theorem dropLatches_cpu_ea : s.dropLatches.cpu.ea = (Config.latchDraw s.cpu.latchDraws).ea := rfl
@[simp] theorem dropLatches_cpu_m : s.dropLatches.cpu.m = (Config.latchDraw s.cpu.latchDraws).m := rfl
@[simp] theorem dropLatches_cpu_modeExtra : s.dropLatches.cpu.modeExtra = (Config.latchDraw s.cpu.latchDraws).modeExtra := rfl
@[simp] theorem dropLatches_cpu_opExtra : s.dropLatches.cpu.opExtra = (Config.latchDraw s.cpu.latchDraws).opExtra := rfl
@[simp] theorem dropLatches_cpu_latchDraws : s.dropLatches.cpu.latchDraws = s.cpu.latchDraws + 1 := rfl
@[simp] theorem dropLatches_params : s.dropLatches.params = s.params := rfl
@[simp] theorem dropLatches_ram : s.dropLatches.ram = s.ram := rfl
@[simp] theorem dropLatches_ppu : s.dropLatches.ppu = s.ppu := rfl
@[simp] theorem dropLatches_apu : s.dropLatches.apu = s.apu := rfl
@[simp] theorem dropLatches_dma : s.dropLatches.dma = s.dma := rfl
@[simp] theorem dropLatches_ports : s.dropLatches.ports = s.ports := rfl
@[simp] theorem dropLatches_cart : s.dropLatches.cart = s.cart := rfl
@[simp] theorem dropLatches_nmiPending : s.dropLatches.nmiPending = s.nmiPending := rfl
@[simp] theorem dropLatches_irqLine : s.dropLatches.irqLine = s.irqLine := rfl
@[simp] theorem dropLatches_masterTick : s.dropLatches.masterTick = s.masterTick := rfl
@[simp] theorem dropLatches_cpuCycle : s.dropLatches.cpuCycle = s.cpuCycle := rfl

end dropLatches

section charge

variable (i : Instr) (extra : Nat) (s : State)

@[simp] theorem charge_cpu_a : (charge i extra s).cpu.a = s.cpu.a := rfl
@[simp] theorem charge_cpu_x : (charge i extra s).cpu.x = s.cpu.x := rfl
@[simp] theorem charge_cpu_y : (charge i extra s).cpu.y = s.cpu.y := rfl
@[simp] theorem charge_cpu_sp : (charge i extra s).cpu.sp = s.cpu.sp := rfl
@[simp] theorem charge_cpu_pc : (charge i extra s).cpu.pc = s.cpu.pc := rfl
@[simp] theorem charge_cpu_p : (charge i extra s).cpu.p = s.cpu.p := rfl
@[simp] theorem charge_cpu_cycles : (charge i extra s).cpu.cycles = i.baseCycles s.params + (if s.cpu.modeExtra && i.opExtra then 1 else 0) + extra := rfl
@[simp] theorem charge_cpu_opcode : (charge i extra s).cpu.opcode = s.cpu.opcode := rfl
@[simp] theorem charge_cpu_ea : (charge i extra s).cpu.ea = s.cpu.ea := rfl
@[simp] theorem charge_cpu_m : (charge i extra s).cpu.m = s.cpu.m := rfl
@[simp] theorem charge_cpu_modeExtra : (charge i extra s).cpu.modeExtra = s.cpu.modeExtra := rfl
@[simp] theorem charge_cpu_opExtra : (charge i extra s).cpu.opExtra = i.opExtra := rfl
@[simp] theorem charge_cpu_latchDraws : (charge i extra s).cpu.latchDraws = s.cpu.latchDraws := rfl
@[simp] theorem charge_params : (charge i extra s).params = s.params := rfl
@[simp] theorem charge_ram : (charge i extra s).ram = s.ram := rfl
@[simp] theorem charge_ppu : (charge i extra s).ppu = s.ppu := rfl
@[simp] theorem charge_apu : (charge i extra s).apu = s.apu := rfl
@[simp] theorem charge_dma : (charge i extra s).dma = s.dma := rfl
@[simp] theorem charge_ports : (charge i extra s).ports = s.ports := rfl
@[simp] theorem charge_cart : (charge i extra s).cart = s.cart := rfl
@[simp] theorem charge_nmiPending : (charge i extra s).nmiPending = s.nmiPending := rfl
@[simp] theorem charge_irqLine : (charge i extra s).irqLine = s.irqLine := rfl
@[simp] theorem charge_masterTick : (charge i extra s).masterTick = s.masterTick := rfl
@[simp] theorem charge_cpuCycle : (charge i extra s).cpuCycle = s.cpuCycle := rfl

end charge

end Sys2Proof.Machine
end

