-- ==== Sys2Proof/Laws/Bus.lean ====
section
/-! SUPPORT. What one bus access, the stack operations and the vector reads can do. -/

namespace Sys2Proof.Machine

/-! ## The cartridge -/

/-- No cartridge claims an address below 0x6000. -/
theorem cartCpuRead_low (c : Cart) {n : Nat} (h : n < 0x6000) : cartCpuRead c n = none := by
  cases c with
  | empty _ => rfl
  | fixed m => simp [cartCpuRead, show ¬ 0x8000 ≤ n by omega]
  | serial m => simp [cartCpuRead, show ¬ 0x8000 ≤ n by omega, show ¬ 0x6000 ≤ n by omega]

theorem cartCpuWrite_low (c : Cart) {n : Nat} (d : Byte) (h : n < 0x6000) : cartCpuWrite c n d = none := by
  cases c with
  | empty _ => rfl
  | fixed m => simp [cartCpuWrite, show ¬ 0x8000 ≤ n by omega]
  | serial m => simp [cartCpuWrite, show ¬ 0x8000 ≤ n by omega, show ¬ 0x6000 ≤ n by omega]

/-! ## One read -/

/-- Everything a bus read can do: it leaves the state, or changes only the PPU, only the APU's frame flag, or
only the controller ports. -/
theorem busRead_cases (s : State) (addr : Word) :
    (busRead s addr).2 = s ∨
    (0x2000 ≤ addr.toNat ∧ addr.toNat ≤ 0x3FFF ∧
      busRead s addr = ((ppuCpuRead s.cart s.ppu (addr.toNat % 8)).1,
        { s with ppu := (ppuCpuRead s.cart s.ppu (addr.toNat % 8)).2 })) ∨
    (addr.toNat = 0x4015 ∧ busRead s addr = (apuStatus s.apu, { s with apu := { s.apu with frameIrq := false } })) ∨
    (addr.toNat = 0x4016 ∧ busRead s addr = ((portsRead0 s.ports).1, { s with ports := (portsRead0 s.ports).2 })) ∨
    (addr.toNat = 0x4017 ∧ busRead s addr = ((portsRead1 s.ports).1, { s with ports := (portsRead1 s.ports).2 })) := by
  unfold busRead
  dsimp only
  split
  · exact .inl rfl
  · split
    · exact .inl rfl
    · split
      · exact .inr (.inl ⟨by omega, by omega, rfl⟩)
      · split
        · exact .inr (.inr (.inl ⟨by omega, rfl⟩))
        · split
          · exact .inr (.inr (.inr (.inl ⟨by omega, rfl⟩)))
          · split
            · exact .inr (.inr (.inr (.inr ⟨by omega, rfl⟩)))
            · exact .inl rfl

/-- A read of CPU RAM: the byte of its cell, and nothing else (R203). -/
theorem busRead_ram (s : State) {addr : Word} (h : addr.toNat ≤ 0x1FFF) :
    busRead s addr = (ramAt s (addr.toNat % 0x0800), s) := by
  unfold busRead
  dsimp only
  rw [cartCpuRead_low s.cart (by omega)]
  simp [h]

section busRead

variable (s : State) (addr : Word)

@[simp] theorem busRead_cpu : (busRead s addr).2.cpu = s.cpu := by
  rcases busRead_cases s addr with h | ⟨-, -, h⟩ | ⟨-, h⟩ | ⟨-, h⟩ | ⟨-, h⟩ <;> simp [h]

@[simp] theorem busRead_ram_kept : (busRead s addr).2.ram = s.ram := by
  rcases busRead_cases s addr with h | ⟨-, -, h⟩ | ⟨-, h⟩ | ⟨-, h⟩ | ⟨-, h⟩ <;> simp [h]

@[simp] theorem busRead_dma : (busRead s addr).2.dma = s.dma := by
  rcases busRead_cases s addr with h | ⟨-, -, h⟩ | ⟨-, h⟩ | ⟨-, h⟩ | ⟨-, h⟩ <;> simp [h]

@[simp] theorem busRead_cart : (busRead s addr).2.cart = s.cart := by
  rcases busRead_cases s addr with h | ⟨-, -, h⟩ | ⟨-, h⟩ | ⟨-, h⟩ | ⟨-, h⟩ <;> simp [h]

@[simp] theorem busRead_nmiPending : (busRead s addr).2.nmiPending = s.nmiPending := by
  rcases busRead_cases s addr with h | ⟨-, -, h⟩ | ⟨-, h⟩ | ⟨-, h⟩ | ⟨-, h⟩ <;> simp [h]

@[simp] theorem busRead_params : (busRead s addr).2.params = s.params := by
  rcases busRead_cases s addr with h | ⟨-, -, h⟩ | ⟨-, h⟩ | ⟨-, h⟩ | ⟨-, h⟩ <;> simp [h]

@[simp] theorem busRead_irqLine : (busRead s addr).2.irqLine = s.irqLine := by
  rcases busRead_cases s addr with h | ⟨-, -, h⟩ | ⟨-, h⟩ | ⟨-, h⟩ | ⟨-, h⟩ <;> simp [h]

@[simp] theorem busRead_masterTick : (busRead s addr).2.masterTick = s.masterTick := by
  rcases busRead_cases s addr with h | ⟨-, -, h⟩ | ⟨-, h⟩ | ⟨-, h⟩ | ⟨-, h⟩ <;> simp [h]

@[simp] theorem busRead_cpuCycle : (busRead s addr).2.cpuCycle = s.cpuCycle := by
  rcases busRead_cases s addr with h | ⟨-, -, h⟩ | ⟨-, h⟩ | ⟨-, h⟩ | ⟨-, h⟩ <;> simp [h]

end busRead

/-- A bus access does not see the CPU: the same read in a state whose CPU differs. -/
theorem busRead_of_cpu (s : State) (c : Cpu) (addr : Word) :
    busRead { s with cpu := c } addr = ((busRead s addr).1, { (busRead s addr).2 with cpu := c }) := by
  unfold busRead ramAt
  dsimp only
  split
  · rfl
  · split
    · rfl
    · split
      · rfl
      · split
        · rfl
        · split
          · rfl
          · split <;> rfl

/-! ## One write -/

/-- A write to CPU RAM: one cell, and nothing else (R203). -/
theorem busWrite_ram (s : State) {addr : Word} (v : Byte) (h : addr.toNat ≤ 0x1FFF) :
    busWrite s addr v = { s with ram := cellSet s.ram (addr.toNat % 0x0800) v } := by
  unfold busWrite
  dsimp only
  rw [cartCpuWrite_low s.cart v (by omega)]
  simp [h]

/-- Everything a bus write can do. -/
theorem busWrite_cases (s : State) (addr : Word) (v : Byte) :
    busWrite s addr v = s ∨
    (∃ c, 0x6000 ≤ addr.toNat ∧ cartCpuWrite s.cart addr.toNat v = some c ∧ busWrite s addr v = { s with cart := c }) ∨
    (addr.toNat ≤ 0x1FFF ∧ busWrite s addr v = { s with ram := cellSet s.ram (addr.toNat % 0x0800) v }) ∨
    (0x2000 ≤ addr.toNat ∧ addr.toNat ≤ 0x3FFF ∧
      busWrite s addr v = { s with
        cart := (ppuCpuWrite s.cart s.ppu (addr.toNat % 8) v).1
        ppu := (ppuCpuWrite s.cart s.ppu (addr.toNat % 8) v).2 }) ∨
    (((0x4000 ≤ addr.toNat ∧ addr.toNat ≤ 0x4013) ∨ addr.toNat = 0x4015 ∨ addr.toNat = 0x4017) ∧
      busWrite s addr v = { s with apu := apuWrite addr.toNat v s.apu }) ∨
    (addr.toNat = 0x4014 ∧ busWrite s addr v = { s with dma := dmaStart v s.dma }) ∨
    (addr.toNat = 0x4016 ∧ busWrite s addr v = { s with ports := portsWrite v s.ports }) := by
  unfold busWrite
  dsimp only
  split
  · next c hc =>
    refine .inr (.inl ⟨c, ?_, hc, rfl⟩)
    by_contra hlt
    rw [cartCpuWrite_low s.cart v (by omega)] at hc
    cases hc
  · split
    · next h1 => exact .inr (.inr (.inl ⟨h1, rfl⟩))
    · split
      · exact .inr (.inr (.inr (.inl ⟨by omega, by omega, rfl⟩)))
      · split
        · exact .inr (.inr (.inr (.inr (.inl ⟨by omega, rfl⟩))))
        · split
          · exact .inr (.inr (.inr (.inr (.inr (.inl ⟨by omega, rfl⟩)))))
          · split
            · exact .inr (.inr (.inr (.inr (.inr (.inr ⟨by omega, rfl⟩)))))
            · exact .inl rfl

section busWrite

variable (s : State) (addr : Word) (v : Byte)

@[simp] theorem busWrite_cpu : (busWrite s addr v).cpu = s.cpu := by
  rcases busWrite_cases s addr v with h | ⟨c, -, -, h⟩ | ⟨-, h⟩ | ⟨-, -, h⟩ | ⟨-, h⟩ | ⟨-, h⟩ | ⟨-, h⟩ <;> simp [h]

@[simp] theorem busWrite_nmiPending : (busWrite s addr v).nmiPending = s.nmiPending := by
  rcases busWrite_cases s addr v with h | ⟨c, -, -, h⟩ | ⟨-, h⟩ | ⟨-, -, h⟩ | ⟨-, h⟩ | ⟨-, h⟩ | ⟨-, h⟩ <;> simp [h]

@[simp] theorem busWrite_params : (busWrite s addr v).params = s.params := by
  rcases busWrite_cases s addr v with h | ⟨c, -, -, h⟩ | ⟨-, h⟩ | ⟨-, -, h⟩ | ⟨-, h⟩ | ⟨-, h⟩ | ⟨-, h⟩ <;> simp [h]

@[simp] theorem busWrite_irqLine : (busWrite s addr v).irqLine = s.irqLine := by
  rcases busWrite_cases s addr v with h | ⟨c, -, -, h⟩ | ⟨-, h⟩ | ⟨-, -, h⟩ | ⟨-, h⟩ | ⟨-, h⟩ | ⟨-, h⟩ <;> simp [h]

@[simp] theorem busWrite_masterTick : (busWrite s addr v).masterTick = s.masterTick := by
  rcases busWrite_cases s addr v with h | ⟨c, -, -, h⟩ | ⟨-, h⟩ | ⟨-, -, h⟩ | ⟨-, h⟩ | ⟨-, h⟩ | ⟨-, h⟩ <;> simp [h]

@[simp] theorem busWrite_cpuCycle : (busWrite s addr v).cpuCycle = s.cpuCycle := by
  rcases busWrite_cases s addr v with h | ⟨c, -, -, h⟩ | ⟨-, h⟩ | ⟨-, -, h⟩ | ⟨-, h⟩ | ⟨-, h⟩ | ⟨-, h⟩ <;> simp [h]

end busWrite

/-- The same write in a state whose CPU differs. -/
theorem busWrite_of_cpu (s : State) (c : Cpu) (addr : Word) (v : Byte) :
    busWrite { s with cpu := c } addr v = { busWrite s addr v with cpu := c } := by
  unfold busWrite
  dsimp only
  split
  · rfl
  · split
    · rfl
    · split
      · rfl
      · split
        · rfl
        · split
          · rfl
          · split <;> rfl

/-! ## The stack -/

@[simp] theorem hiLo_toNat (hi lo : Byte) : (hiLo hi lo).toNat = hi.toNat * 256 + lo.toNat := by
  have hs : hi.toNat <<< 8 = 2 ^ 8 * hi.toNat := by rw [Nat.shiftLeft_eq]; ring
  rw [hiLo, BitVec.toNat_append, hs, ← Nat.two_pow_add_eq_or_of_lt (by simpa using lo.isLt)]
  ring

@[simp] theorem hiByte_hiLo (hi lo : Byte) : hiByte (hiLo hi lo) = hi := by
  apply BitVec.eq_of_toNat_eq
  have h : (hiLo hi lo).toNat / 256 = hi.toNat := by rw [hiLo_toNat]; omega
  simp only [hiByte, BitVec.toNat_setWidth, BitVec.toNat_ushiftRight, Nat.shiftRight_eq_div_pow]
  omega

@[simp] theorem loByte_hiLo (hi lo : Byte) : loByte (hiLo hi lo) = lo := by
  apply BitVec.eq_of_toNat_eq
  have h : (hiLo hi lo).toNat % 256 = lo.toNat := by rw [hiLo_toNat]; omega
  simpa [loByte] using h

@[simp] theorem hiLo_hiByte_loByte (w : Word) : hiLo (hiByte w) (loByte w) = w := by
  apply BitVec.eq_of_toNat_eq
  rw [hiLo_toNat]
  simp only [hiByte, loByte, BitVec.toNat_setWidth, BitVec.toNat_ushiftRight, Nat.shiftRight_eq_div_pow]
  omega

theorem stackAddr_toNat (sp : Byte) : (stackAddr sp).toNat = 0x100 + sp.toNat := by
  simp [stackAddr]

/-- A push writes one RAM cell of page 1 and decrements SP (R450). -/
theorem push_eq (s : State) (v : Byte) :
    push s v =
      { s with ram := cellSet s.ram (0x100 + s.cpu.sp.toNat) v, cpu := { s.cpu with sp := s.cpu.sp - 1 } } := by
  have h := stackAddr_toNat s.cpu.sp
  have hlt := s.cpu.sp.isLt
  rw [push, busWrite_ram s v (by omega), h, Nat.mod_eq_of_lt (by omega)]
  rfl

/-- A pull increments SP and reads one RAM cell of page 1 (R450). -/
theorem pull_eq (s : State) :
    pull s = (ramAt s (0x100 + (s.cpu.sp + 1).toNat), { s with cpu := { s.cpu with sp := s.cpu.sp + 1 } }) := by
  have h := stackAddr_toNat (s.cpu.sp + 1)
  have hlt := (s.cpu.sp + 1).isLt
  unfold pull
  dsimp only [setSp_cpu_sp]
  rw [busRead_ram _ (by omega), h, Nat.mod_eq_of_lt (by omega)]
  rfl

theorem ramAt_of_ram {s t : State} (h : t.ram = s.ram) (k : Nat) : ramAt t k = ramAt s k := by
  simp [ramAt, h]

/-! ## Addresses in page 0 -/

theorem zext16_toNat (b : Byte) : (zext16 b).toNat = b.toNat := by
  have := b.isLt
  simp only [zext16, BitVec.toNat_setWidth]
  omega

/-- A read in page 0 is a read of CPU RAM. -/
theorem busRead_zeroPage (s : State) (b : Byte) : busRead s (zext16 b) = (ramAt s b.toNat, s) := by
  have h := zext16_toNat b
  have hlt := b.isLt
  rw [busRead_ram s (by omega), h, Nat.mod_eq_of_lt (by omega)]

end Sys2Proof.Machine
end

