-- ==== Sys2Proof/Laws/Flags.lean ====
section
/-! SUPPORT. What the flag computations do, flag by flag. -/

namespace Sys2Proof.Machine

@[simp] theorem getFlag_setFlag_same (f : Flag) (v : Bool) (p : Byte) : getFlag f (setFlag f v p) = v := by
  cases f <;> cases v <;> simp [getFlag, setFlag, flagMask, flagBit]

theorem getFlag_setFlag_other {f g : Flag} (v : Bool) (p : Byte) (h : g ≠ f) :
    getFlag g (setFlag f v p) = getFlag g p := by
  cases f <;> cases g <;> first | exact absurd rfl h | (cases v <;> simp [getFlag, setFlag, flagMask, flagBit])

/-- Every flag of a status byte after one is written. -/
theorem getFlag_setFlag (f g : Flag) (v : Bool) (p : Byte) :
    getFlag g (setFlag f v p) = if g = f then v else getFlag g p := by
  split
  · next h => subst h; simp
  · next h => exact getFlag_setFlag_other v p h

/-- Every flag after `NZ(v)`. -/
theorem getFlag_setNZ (g : Flag) (v p : Byte) :
    getFlag g (setNZ v p) = if g = .z then v == 0 else if g = .n then v.getLsbD 7 else getFlag g p := by
  simp only [setNZ, getFlag_setFlag]

/-- Every flag of a live P made from a pulled byte. -/
theorem getFlag_livePulled (g : Flag) (v : Byte) :
    getFlag g (livePulled v) = if g = .b then false else if g = .u then true else getFlag g v := by
  cases g <;> simp [getFlag, livePulled, flagBit]

/-- Every flag of a pushed status byte. -/
theorem getFlag_pushedStatus (g : Flag) (b : Bool) (p : Byte) :
    getFlag g (pushedStatus b p) = if g = .b then b else if g = .u then true else getFlag g p := by
  cases g <;> cases b <;> simp [getFlag, pushedStatus, flagBit]

/-- Every flag after `AddCore`. -/
theorem getFlag_addFlags (g : Flag) (a m p : Byte) :
    getFlag g (addFlags a m p) =
      if g = .z then addResult a m (getFlag .c p) == 0
      else if g = .n then (addResult a m (getFlag .c p)).getLsbD 7
      else if g = .v then addOverflow a m (getFlag .c p)
      else if g = .c then addCarry a m (getFlag .c p)
      else getFlag g p := by
  simp only [addFlags, getFlag_setNZ, getFlag_setFlag]

/-- Every flag after a compare. -/
theorem getFlag_compareFlags (g : Flag) (r m p : Byte) :
    getFlag g (compareFlags r m p) =
      if g = .n then (r - m).getLsbD 7
      else if g = .z then r == m
      else if g = .c then decide (m.toNat ≤ r.toNat)
      else getFlag g p := by
  simp only [compareFlags, getFlag_setFlag]

/-- Every flag after BIT. -/
theorem getFlag_bitFlags (g : Flag) (a m p : Byte) :
    getFlag g (bitFlags a m p) =
      if g = .v then m.getLsbD 6
      else if g = .n then m.getLsbD 7
      else if g = .z then a &&& m == 0
      else getFlag g p := by
  simp only [bitFlags, getFlag_setFlag]

/-- Every flag after a shift or a rotate. -/
theorem getFlag_shiftFlags (g : Flag) (out : Bool) (r p : Byte) :
    getFlag g (shiftFlags out r p) =
      if g = .z then r == 0 else if g = .n then r.getLsbD 7 else if g = .c then out else getFlag g p := by
  simp only [shiftFlags, getFlag_setNZ, getFlag_setFlag]

/-- Two status bytes with the same eight flags are the same byte. -/
theorem status_ext {p q : Byte} (h : ∀ g, getFlag g p = getFlag g q) : p = q := by
  apply BitVec.eq_of_getLsbD_eq
  intro i hi
  have hc := h .c; have hz := h .z; have hi' := h .i; have hd := h .d
  have hb := h .b; have hu := h .u; have hv := h .v; have hn := h .n
  simp only [getFlag, flagBit] at hc hz hi' hd hb hu hv hn
  interval_cases i <;> assumption

end Sys2Proof.Machine
end

