-- ==== Sys2Proof/Laws/Operands.lean ====
section
/-! SUPPORT. What the addressing modes, the operand fetch, the interrupt entry and the return can do. -/

namespace Sys2Proof.Machine

/-! ## Addressing modes -/

/-- A page-0 pointer, both bytes of CPU RAM (R330, R331). -/
theorem pointer_eq (p : Byte) (s : State) :
    pointer p s = (hiLo (ramAt s (p + 1).toNat) (ramAt s p.toNat), s) := by
  simp only [pointer, busRead_zeroPage]

/-- The effective address of a memory mode as a function of the state (R322 to R331). -/
def eaOf (m : Mem) (s : State) : Word :=
  match m with
  | .zp a => zext16 a
  | .zpX a => zext16 (a + s.cpu.x)
  | .zpY a => zext16 (a + s.cpu.y)
  | .abs a => a
  | .absX a => a + zext16 s.cpu.x
  | .absY a => a + zext16 s.cpu.y
  | .indX a => hiLo (ramAt s (a + s.cpu.x + 1).toNat) (ramAt s (a + s.cpu.x).toNat)
  | .indY a => hiLo (ramAt s (a + 1).toNat) (ramAt s a.toNat) + zext16 s.cpu.y

/-- The page-cross hint of a memory mode as a function of the state. -/
def eaCross (m : Mem) (s : State) : Bool :=
  match m with
  | .absX a | .absY a => pageCross a (eaOf m s)
  | .indY a => pageCross (hiLo (ramAt s (a + 1).toNat) (ramAt s a.toNat)) (eaOf m s)
  | _ => false

/-- An addressing mode sets EA and its hint, and changes nothing else. -/
theorem address_eq (m : Mem) (s : State) : address m s = s.setEa (eaOf m s) (eaCross m s) := by
  cases m <;> simp only [address, pointer_eq] <;> rfl

/-- The operand fetch from memory: one bus read at EA, then the latches. -/
theorem readMemory_eq (m : Mem) (s : State) :
    readMemory m s =
      { (busRead s (eaOf m s)).2 with
        cpu := { s.cpu with ea := eaOf m s, modeExtra := eaCross m s, m := (busRead s (eaOf m s)).1 } } := by
  simp only [readMemory, loadM, address_eq, State.setEa, busRead_of_cpu, State.setM]

theorem readOperand_mem (m : Mem) (s : State) : readOperand (.mem m) s = readMemory m s := rfl

theorem readOperand_imm (b : Byte) (s : State) :
    readOperand (.imm b) s = { s with cpu := { s.cpu with ea := s.cpu.pc - 1, modeExtra := false, m := b } } := rfl

section readOperand

variable (o : Src) (s : State)

@[simp] theorem readOperand_ram : (readOperand o s).ram = s.ram := by
  cases o <;> simp [readOperand_imm, readOperand_mem, readMemory_eq]

@[simp] theorem readOperand_cart : (readOperand o s).cart = s.cart := by
  cases o <;> simp [readOperand_imm, readOperand_mem, readMemory_eq]

@[simp] theorem readOperand_dma : (readOperand o s).dma = s.dma := by
  cases o <;> simp [readOperand_imm, readOperand_mem, readMemory_eq]

@[simp] theorem readOperand_nmiPending : (readOperand o s).nmiPending = s.nmiPending := by
  cases o <;> simp [readOperand_imm, readOperand_mem, readMemory_eq]

@[simp] theorem readOperand_params : (readOperand o s).params = s.params := by
  cases o <;> simp [readOperand_imm, readOperand_mem, readMemory_eq]

@[simp] theorem readOperand_irqLine : (readOperand o s).irqLine = s.irqLine := by
  cases o <;> simp [readOperand_imm, readOperand_mem, readMemory_eq]

@[simp] theorem readOperand_masterTick : (readOperand o s).masterTick = s.masterTick := by
  cases o <;> simp [readOperand_imm, readOperand_mem, readMemory_eq]

@[simp] theorem readOperand_cpuCycle : (readOperand o s).cpuCycle = s.cpuCycle := by
  cases o <;> simp [readOperand_imm, readOperand_mem, readMemory_eq]

/-- The operand fetch changes no register: only EA, its hint and M. -/
theorem readOperand_cpu :
    ∃ ea extra m, (readOperand o s).cpu = { s.cpu with ea := ea, modeExtra := extra, m := m } := by
  cases o with
  | imm b => exact ⟨_, _, _, by rw [readOperand_imm]⟩
  | mem m => exact ⟨_, _, _, by rw [readOperand_mem, readMemory_eq]⟩

end readOperand

/-! ## The stack by words -/

/-- Two pushes: the high byte at SP, the low byte below it, SP two lower. -/
theorem pushWord_eq (s : State) (w : Word) :
    pushWord s w =
      { s with
        ram := cellSet (cellSet s.ram (0x100 + s.cpu.sp.toNat) (hiByte w)) (0x100 + (s.cpu.sp - 1).toNat) (loByte w)
        cpu := { s.cpu with sp := s.cpu.sp - 1 - 1 } } := by
  simp only [pushWord, push_eq]

/-- Two pulls: the low byte, then the high byte, SP two higher. -/
theorem pullWord_eq (s : State) :
    pullWord s =
      (hiLo (ramAt s (0x100 + (s.cpu.sp + 1 + 1).toNat)) (ramAt s (0x100 + (s.cpu.sp + 1).toNat)),
        { s with cpu := { s.cpu with sp := s.cpu.sp + 1 + 1 } }) := by
  simp only [pullWord, pull_eq, ramAt]

/-! ## Interrupt entry and return -/

/-- The vectors lie where no read has a side effect. -/
theorem busRead_high (s : State) {addr : Word} (h : 0x4018 ≤ addr.toNat) : (busRead s addr).2 = s := by
  rcases busRead_cases s addr with h' | ⟨-, h', -⟩ | ⟨h', -⟩ | ⟨h', -⟩ | ⟨h', -⟩
  · exact h'
  all_goals omega

/-- The word a vector holds, as the cartridge gives it. -/
def vectorWord (s : State) (vector : Word) : Word := hiLo (busRead s (vector + 1)).1 (busRead s vector).1

theorem read16_high (s : State) {addr : Word} (h : 0x4018 ≤ addr.toNat) (h' : 0x4018 ≤ (addr + 1).toNat) :
    read16 s addr = (vectorWord s addr, s) := by
  simp only [read16, busRead_high s h, busRead_high s h', vectorWord]

/-- Above the device registers a read answers what the cartridge gives, 0x00 where it claims nothing (R201). -/
theorem busRead_high_value (s : State) {addr : Word} (h : 0x4018 ≤ addr.toNat) :
    (busRead s addr).1 = (cartCpuRead s.cart addr.toNat).getD 0x00 := by
  have hram : ¬ addr.toNat ≤ 0x1FFF := by omega
  have hppu : ¬ addr.toNat ≤ 0x3FFF := by omega
  have hports : addr.toNat ≠ 0x4015 ∧ addr.toNat ≠ 0x4016 ∧ addr.toNat ≠ 0x4017 := by omega
  unfold busRead
  cases hc : cartCpuRead s.cart addr.toNat <;> simp [hc, hram, hppu, hports]

/-- So it sees only the cartridge. -/
theorem busRead_high_of_cart {s t : State} {addr : Word} (h : 0x4018 ≤ addr.toNat) (hc : t.cart = s.cart) :
    (busRead t addr).1 = (busRead s addr).1 := by rw [busRead_high_value t h, busRead_high_value s h, hc]

theorem vectorWord_of_cart {s t : State} {vector : Word} (h : 0x4018 ≤ vector.toNat)
    (h' : 0x4018 ≤ (vector + 1).toNat) (hc : t.cart = s.cart) : vectorWord t vector = vectorWord s vector := by
  simp only [vectorWord, busRead_high_of_cart h hc, busRead_high_of_cart h' hc]

/-- The steps NMI, IRQ and BRK share, all at once (R720): three bytes pushed, I set, the pc from the vector. -/
theorem enterFrom_eq (ret vector : Word) (b : Bool) (s : State) (h : 0x4018 ≤ vector.toNat)
    (h' : 0x4018 ≤ (vector + 1).toNat) :
    enterFrom ret vector b s =
      { s with
        ram :=
          cellSet
            (cellSet (cellSet s.ram (0x100 + s.cpu.sp.toNat) (hiByte ret)) (0x100 + (s.cpu.sp - 1).toNat) (loByte ret))
            (0x100 + (s.cpu.sp - 1 - 1).toNat) (pushedStatus b s.cpu.p)
        cpu :=
          { s.cpu with
            sp := s.cpu.sp - 1 - 1 - 1
            p := setFlag .i true s.cpu.p
            pc := vectorWord s vector } } := by
  simp only [enterFrom, push_eq, pushWord_eq, State.setP, State.setPc]
  rw [read16_high _ h h']
  simp only
  have hv := fun (t : State) (hc : t.cart = s.cart) => vectorWord_of_cart h h' hc
  rw [hv]
  rfl

/-- The return from an interrupt, all at once (R604, R750). -/
theorem interruptReturn_eq (s : State) :
    interruptReturn s =
      { s with
        cpu :=
          { s.cpu with
            sp := s.cpu.sp + 1 + 1 + 1
            p := livePulled (ramAt s (0x100 + (s.cpu.sp + 1).toNat))
            pc :=
              hiLo (ramAt s (0x100 + (s.cpu.sp + 1 + 1 + 1).toNat)) (ramAt s (0x100 + (s.cpu.sp + 1 + 1).toNat)) } } := by
  simp only [interruptReturn, pull_eq, pullWord_eq, State.setP, State.setPc, ramAt]

end Sys2Proof.Machine
end

