-- ==== Sys2Proof/Laws/Exec.lean ====
section
/-! SUPPORT. What an instruction and a step can do to the state: an instruction is a sequence of CPU updates, bus
reads and bus writes, so that what those keep, every instruction keeps. -/

namespace Sys2Proof.Machine

/-- `Reach s t`: the state t comes from s by updates of the CPU, bus reads and bus writes. -/
inductive Reach (s : State) : State → Prop where
  | refl : Reach s s
  | cpu (t : State) (c : Cpu) : Reach s t → Reach s { t with cpu := c }
  | read (t : State) (addr : Word) : Reach s t → Reach s (busRead t addr).2
  | write (t : State) (addr : Word) (v : Byte) : Reach s t → Reach s (busWrite t addr v)

/-- What the three kinds of update keep, `Reach` keeps. -/
theorem Reach.keeps {P : State → Prop} (hcpu : ∀ s c, P s → P { s with cpu := c })
    (hread : ∀ s addr, P s → P (busRead s addr).2) (hwrite : ∀ s addr v, P s → P (busWrite s addr v))
    {s t : State} (h : Reach s t) (hs : P s) : P t := by
  induction h with
  | refl => exact hs
  | cpu t c _ ih => exact hcpu t c ih
  | read t addr _ ih => exact hread t addr ih
  | write t addr v _ ih => exact hwrite t addr v ih

theorem Reach.trans {s t u : State} (h : Reach s t) (h' : Reach t u) : Reach s u := by
  induction h' with
  | refl => exact h
  | cpu t c _ ih => exact .cpu _ _ ih
  | read t addr _ ih => exact .read _ _ ih
  | write t addr v _ ih => exact .write _ _ _ ih

section steps

variable {s t : State}

theorem Reach.setA (v : Byte) (h : Reach s t) : Reach s (t.setA v) := .cpu _ _ h

theorem Reach.setX (v : Byte) (h : Reach s t) : Reach s (t.setX v) := .cpu _ _ h

theorem Reach.setY (v : Byte) (h : Reach s t) : Reach s (t.setY v) := .cpu _ _ h

theorem Reach.setSp (v : Byte) (h : Reach s t) : Reach s (t.setSp v) := .cpu _ _ h

theorem Reach.setPc (v : Word) (h : Reach s t) : Reach s (t.setPc v) := .cpu _ _ h

theorem Reach.setP (v : Byte) (h : Reach s t) : Reach s (t.setP v) := .cpu _ _ h

theorem Reach.setCycles (n : Nat) (h : Reach s t) : Reach s (t.setCycles n) := .cpu _ _ h

theorem Reach.setOpcode (v : Byte) (h : Reach s t) : Reach s (t.setOpcode v) := .cpu _ _ h

theorem Reach.setEa (ea : Word) (extra : Bool) (h : Reach s t) : Reach s (t.setEa ea extra) := .cpu _ _ h

theorem Reach.countDown (h : Reach s t) : Reach s (countDown t) := .cpu _ _ (h.setCycles _)

theorem Reach.charge (i : Instr) (extra : Nat) (h : Reach s t) : Reach s (charge i extra t) := .cpu _ _ h

theorem Reach.implied (h : Reach s t) : Reach s (implied t) := .cpu _ _ h

theorem Reach.address (m : Mem) (h : Reach s t) : Reach s (address m t) := by
  rw [address_eq]
  exact h.setEa _ _

theorem Reach.readMemory (m : Mem) (h : Reach s t) : Reach s (readMemory m t) := by
  rw [readMemory_eq]
  exact .cpu _ _ (.read _ _ h)

theorem Reach.readOperand (o : Src) (h : Reach s t) : Reach s (readOperand o t) := by
  cases o with
  | imm b => exact .cpu _ _ (h.setEa _ _)
  | mem m => exact h.readMemory m

theorem Reach.shiftOperand (o : Rmw) (h : Reach s t) : Reach s (shiftOperand o t) := by
  cases o with
  | acc => exact h.implied
  | mem m => exact h.readMemory m

theorem Reach.storeResult (o : Rmw) (r : Byte) (h : Reach s t) : Reach s (storeResult o r t) := by
  cases o with
  | acc => exact h.setA r
  | mem m => exact .write _ _ _ h

theorem Reach.push (v : Byte) (h : Reach s t) : Reach s (push t v) := .cpu _ _ (.write _ _ _ h)

theorem Reach.pull (h : Reach s t) : Reach s (pull t).2 := .read _ _ (.cpu _ _ h)

theorem Reach.pushWord (w : Word) (h : Reach s t) : Reach s (pushWord t w) := (h.push _).push _

theorem Reach.pullWord (h : Reach s t) : Reach s (pullWord t).2 := h.pull.pull

theorem Reach.read16 (addr : Word) (h : Reach s t) : Reach s (read16 t addr).2 := .read _ _ (.read _ _ h)

theorem Reach.enterFrom (ret vector : Word) (b : Bool) (h : Reach s t) : Reach s (enterFrom ret vector b t) :=
  .cpu _ _ (.read16 _ (.cpu _ _ ((h.pushWord _).push _)))

theorem Reach.interruptReturn (h : Reach s t) : Reach s (interruptReturn t) :=
  .cpu _ _ (.pullWord (.cpu _ _ h.pull))

theorem Reach.jumpTarget (j : JmpTarget) (h : Reach s t) : Reach s (jumpTarget j t) := by
  cases j with
  | abs a => exact h.setEa _ _
  | ind p => exact .setEa _ _ (.read _ _ (.read _ _ h))

theorem Reach.branch (i : Instr) (taken : Bool) (off : Byte) (h : Reach s t) : Reach s (branch i taken off t) := by
  refine .charge _ _ ?_
  split
  · exact .cpu _ _ (.cpu _ _ h)
  · exact .cpu _ _ h

theorem Reach.fetch (h : Reach s t) : Reach s (fetch t).2 := .cpu _ _ (.read _ _ h)

theorem Reach.fetchInstr (h : Reach s t) : Reach s (fetchInstr t).after := by
  unfold Machine.fetchInstr
  dsimp only
  split
  · exact h.fetch.setOpcode _
  · exact (h.fetch.setOpcode _).fetch
  · exact (h.fetch.setOpcode _).fetch.fetch

end steps

/-- A fetch from an address whose read has no side effect. -/
theorem fetch_plain {s : State} {b : Byte} {addr : Word} (hp : s.cpu.pc = addr) (h : busRead s addr = (b, s)) :
    fetch s = (b, s.setPc (addr + 1)) := by
  unfold Machine.fetch
  rw [hp, h]

/-- Every instruction answers a next state, reached by CPU updates and bus accesses alone. -/
theorem exec_reach (i : Instr) (s : State) : ∃ t, exec i s = .next t ∧ Reach s t := by
  have h : Reach s s := .refl
  cases i with
  | lda o => exact ⟨_, rfl, .charge _ _ (.setP _ (.setA _ (h.readOperand o)))⟩
  | ldx o => exact ⟨_, rfl, .charge _ _ (.setP _ (.setX _ (h.readOperand o)))⟩
  | ldy o => exact ⟨_, rfl, .charge _ _ (.setP _ (.setY _ (h.readOperand o)))⟩
  | sta m => exact ⟨_, rfl, .charge _ _ (.write _ _ _ (h.address m))⟩
  | stx m => exact ⟨_, rfl, .charge _ _ (.write _ _ _ (h.address m))⟩
  | sty m => exact ⟨_, rfl, .charge _ _ (.write _ _ _ (h.address m))⟩
  | tax => exact ⟨_, rfl, .charge _ _ (.setP _ (.setX _ h.implied))⟩
  | tay => exact ⟨_, rfl, .charge _ _ (.setP _ (.setY _ h.implied))⟩
  | txa => exact ⟨_, rfl, .charge _ _ (.setP _ (.setA _ h.implied))⟩
  | tya => exact ⟨_, rfl, .charge _ _ (.setP _ (.setA _ h.implied))⟩
  | tsx => exact ⟨_, rfl, .charge _ _ (.setP _ (.setX _ h.implied))⟩
  | txs => exact ⟨_, rfl, .charge _ _ (.setSp _ h.implied)⟩
  | pha => exact ⟨_, rfl, .charge _ _ (.push _ h.implied)⟩
  | php => exact ⟨_, rfl, .charge _ _ (.push _ h.implied)⟩
  | pla => exact ⟨_, rfl, .charge _ _ (.setP _ (.setA _ h.implied.pull))⟩
  | plp => exact ⟨_, rfl, .charge _ _ (.setP _ h.implied.pull)⟩
  | adc o => exact ⟨_, rfl, .charge _ _ (.setP _ (.setA _ (h.readOperand o)))⟩
  | sbc o => exact ⟨_, rfl, .charge _ _ (.setP _ (.setA _ (h.readOperand o)))⟩
  | cmp o => exact ⟨_, rfl, .charge _ _ (.setP _ (h.readOperand o))⟩
  | cpx o => exact ⟨_, rfl, .charge _ _ (.setP _ (h.readOperand o))⟩
  | cpy o => exact ⟨_, rfl, .charge _ _ (.setP _ (h.readOperand o))⟩
  | inc m => exact ⟨_, rfl, .charge _ _ (.setP _ (.write _ _ _ (h.readMemory m)))⟩
  | inx => exact ⟨_, rfl, .charge _ _ (.setP _ (.setX _ h.implied))⟩
  | iny => exact ⟨_, rfl, .charge _ _ (.setP _ (.setY _ h.implied))⟩
  | dec m => exact ⟨_, rfl, .charge _ _ (.setP _ (.write _ _ _ (h.readMemory m)))⟩
  | dex => exact ⟨_, rfl, .charge _ _ (.setP _ (.setX _ h.implied))⟩
  | dey => exact ⟨_, rfl, .charge _ _ (.setP _ (.setY _ h.implied))⟩
  | and o => exact ⟨_, rfl, .charge _ _ (.setP _ (.setA _ (h.readOperand o)))⟩
  | ora o => exact ⟨_, rfl, .charge _ _ (.setP _ (.setA _ (h.readOperand o)))⟩
  | eor o => exact ⟨_, rfl, .charge _ _ (.setP _ (.setA _ (h.readOperand o)))⟩
  | bit m => exact ⟨_, rfl, .charge _ _ (.setP _ (h.readMemory m))⟩
  | asl o => exact ⟨_, rfl, .charge _ _ (.setP _ (.storeResult o _ (h.shiftOperand o)))⟩
  | lsr o => exact ⟨_, rfl, .charge _ _ (.setP _ (.storeResult o _ (h.shiftOperand o)))⟩
  | rol o => exact ⟨_, rfl, .charge _ _ (.setP _ (.storeResult o _ (h.shiftOperand o)))⟩
  | ror o => exact ⟨_, rfl, .charge _ _ (.setP _ (.storeResult o _ (h.shiftOperand o)))⟩
  | jmp j => exact ⟨_, rfl, .charge _ _ (.setPc _ (h.jumpTarget j))⟩
  | jsr a => exact ⟨_, rfl, .charge _ _ (.setPc _ (.pushWord _ (h.setEa a false)))⟩
  | rts => exact ⟨_, rfl, .charge _ _ (.setPc _ h.implied.pullWord)⟩
  | rti => exact ⟨_, rfl, .charge _ _ h.implied.interruptReturn⟩
  | brk => exact ⟨_, rfl, .charge _ _ (.enterFrom _ _ _ h.implied)⟩
  | bcc off => exact ⟨_, rfl, h.branch _ _ off⟩
  | bcs off => exact ⟨_, rfl, h.branch _ _ off⟩
  | beq off => exact ⟨_, rfl, h.branch _ _ off⟩
  | bmi off => exact ⟨_, rfl, h.branch _ _ off⟩
  | bne off => exact ⟨_, rfl, h.branch _ _ off⟩
  | bpl off => exact ⟨_, rfl, h.branch _ _ off⟩
  | bvc off => exact ⟨_, rfl, h.branch _ _ off⟩
  | bvs off => exact ⟨_, rfl, h.branch _ _ off⟩
  | clc => exact ⟨_, rfl, .charge _ _ (.setP _ h.implied)⟩
  | sec => exact ⟨_, rfl, .charge _ _ (.setP _ h.implied)⟩
  | cli => exact ⟨_, rfl, .charge _ _ (.setP _ h.implied)⟩
  | sei => exact ⟨_, rfl, .charge _ _ (.setP _ h.implied)⟩
  | cld => exact ⟨_, rfl, .charge _ _ (.setP _ h.implied)⟩
  | sed => exact ⟨_, rfl, .charge _ _ (.setP _ h.implied)⟩
  | clv => exact ⟨_, rfl, .charge _ _ (.setP _ h.implied)⟩
  | nop => exact ⟨_, rfl, .charge _ _ h.implied⟩
  | illegal op => exact ⟨_, rfl, .charge _ _ h.implied⟩

/-- The CPU clock answers a next state, reached by CPU updates and bus accesses alone. -/
theorem cpuClock_reach (s : State) : ∃ t, cpuClock s = .next t ∧ Reach s t := by
  unfold cpuClock
  split
  · obtain ⟨t, ht, hr⟩ := exec_reach (fetchedInstr (fetchInstr s)) (fetchInstr s).after
    exact ⟨countDown t, by simp only [runInstr, ht, thenDo], .countDown (Reach.fetchInstr (.refl : Reach s s) |>.trans hr)⟩
  · exact ⟨_, rfl, .countDown .refl⟩

/-- The CPU-domain step answers the DMA step or the CPU clock, then the APU's clock and the cycle count. -/
theorem cpuDomainStep_cases (s : State) :
    (s.dma.active = true ∧ cpuDomainStep s = .next (afterCpuDomain (dmaStep s))) ∨
    (s.dma.active = false ∧ ∃ t, cpuClock s = .next t ∧ Reach s t ∧ cpuDomainStep s = .next (afterCpuDomain t)) := by
  unfold cpuDomainStep
  cases hd : s.dma.active with
  | true => exact .inl ⟨rfl, by simp [thenDo]⟩
  | false =>
    obtain ⟨t, ht, hr⟩ := cpuClock_reach s
    exact .inr ⟨rfl, t, ht, hr, by simp [ht, thenDo]⟩

/-- Everything a step can do: the PPU's dot; on every third tick the DMA step or the CPU clock, with the APU's
clock; the interrupt checks and the tick count. A step always answers a next state. -/
theorem step_cases (s : State) :
    (s.masterTick % 3 ≠ 0 ∧ step s = .next (endTick (ppuTick s))) ∨
    (s.masterTick % 3 = 0 ∧ s.dma.active = true ∧ step s = .next (endTick (afterCpuDomain (dmaStep (ppuTick s))))) ∨
    (s.masterTick % 3 = 0 ∧ s.dma.active = false ∧
      ∃ t, cpuClock (ppuTick s) = .next t ∧ Reach (ppuTick s) t ∧ step s = .next (endTick (afterCpuDomain t))) := by
  unfold step masterStep
  dsimp only
  by_cases h3 : s.masterTick % 3 = 0
  · rw [if_pos (show (ppuTick s).masterTick % 3 = 0 from h3)]
    rcases cpuDomainStep_cases (ppuTick s) with ⟨hd, h⟩ | ⟨hd, t, ht, hr, h⟩
    · exact .inr (.inl ⟨h3, hd, by simp [h, thenDo]⟩)
    · exact .inr (.inr ⟨h3, hd, t, ht, hr, by simp [h, thenDo]⟩)
  · rw [if_neg (show ¬ (ppuTick s).masterTick % 3 = 0 from h3)]
    exact .inl ⟨h3, rfl⟩

theorem step_next (s : State) : ∃ t, step s = .next t := by
  rcases step_cases s with ⟨-, h⟩ | ⟨-, -, h⟩ | ⟨-, -, t, -, -, h⟩
  exacts [⟨_, h⟩, ⟨_, h⟩, ⟨_, h⟩]

/-- The entry of NMI and IRQ, all at once (R720). -/
theorem enterInterrupt_eq (s : State) {vector : Word} (h : vector = nmiVector ∨ vector = irqVector) :
    enterInterrupt vector s =
      { s with
        ram :=
          cellSet
            (cellSet (cellSet s.ram (0x100 + s.cpu.sp.toNat) (hiByte s.cpu.pc)) (0x100 + (s.cpu.sp - 1).toNat)
              (loByte s.cpu.pc))
            (0x100 + (s.cpu.sp - 1 - 1).toNat) (pushedStatus false s.cpu.p)
        cpu :=
          { s.cpu with
            sp := s.cpu.sp - 1 - 1 - 1
            p := setFlag .i true s.cpu.p
            pc := vectorWord s vector
            cycles := 7 } } := by
  have hv : 0x4018 ≤ vector.toNat ∧ 0x4018 ≤ (vector + 1).toNat := by
    rcases h with rfl | rfl <;> decide
  unfold enterInterrupt
  rw [enterFrom_eq _ _ _ _ hv.1 hv.2]
  rfl

/-- What ends a tick changes the CPU, CPU RAM, the NMI latch and the tick count alone. -/
theorem endTick_frame (s : State) :
    (endTick s).ppu = s.ppu ∧ (endTick s).apu = s.apu ∧ (endTick s).dma = s.dma ∧ (endTick s).ports = s.ports ∧
      (endTick s).cart = s.cart ∧ (endTick s).irqLine = s.irqLine ∧ (endTick s).params = s.params ∧
      (endTick s).cpuCycle = s.cpuCycle ∧
      (endTick s).masterTick = s.masterTick + 1 := by
  have hn := fun u => enterInterrupt_eq u (Or.inl rfl : nmiVector = nmiVector ∨ nmiVector = irqVector)
  have hi := fun u => enterInterrupt_eq u (Or.inr rfl : irqVector = nmiVector ∨ irqVector = irqVector)
  unfold endTick nmiCheck irqCheck
  dsimp only
  split <;> split
  all_goals simp only [hn, hi, and_self]

/-- While DMA runs, what ends a tick only counts it. -/
theorem endTick_dma {s : State} (h : s.dma.active = true) : endTick s = { s with masterTick := s.masterTick + 1 } := by
  simp [endTick, nmiCheck, irqCheck, atBoundary, h]

/-- A DMA step changes OAM, the DMA coordinator and what its read changes, and never the CPU or CPU RAM. -/
theorem dmaStep_frame (s : State) :
    (dmaStep s).cpu = s.cpu ∧ (dmaStep s).ram = s.ram ∧ (dmaStep s).cart = s.cart ∧
      (dmaStep s).nmiPending = s.nmiPending ∧ (dmaStep s).irqLine = s.irqLine ∧ (dmaStep s).params = s.params ∧
      (dmaStep s).masterTick = s.masterTick ∧ (dmaStep s).cpuCycle = s.cpuCycle := by
  unfold dmaStep
  split
  · split <;> exact ⟨rfl, rfl, rfl, rfl, rfl, rfl, rfl, rfl⟩
  · split
    · simp only [busRead_cpu, busRead_ram_kept, busRead_cart, busRead_nmiPending, busRead_irqLine,
        busRead_params, busRead_masterTick, busRead_cpuCycle, and_self]
    · exact ⟨rfl, rfl, rfl, rfl, rfl, rfl, rfl, rfl⟩

/-- What a bus access, a CPU update and each other part of the master tick keep, a step keeps. -/
theorem step_keeps {P : State → Prop} (hcpu : ∀ s c, P s → P { s with cpu := c })
    (hread : ∀ s addr, P s → P (busRead s addr).2) (hwrite : ∀ s addr v, P s → P (busWrite s addr v))
    (hppu : ∀ s, P s → P (ppuTick s)) (hdma : ∀ s d, P s → P { s with dma := d })
    (hoam : ∀ s i d, P s → P { s with ppu := oamWrite s.ppu i d }) (hapu : ∀ s, P s → P (afterCpuDomain s))
    (hnmi : ∀ s b, P s → P { s with nmiPending := b }) (htick : ∀ s n, P s → P { s with masterTick := n })
    {s t : State} (h : step s = .next t) (hs : P s) : P t := by
  have hreach : ∀ {a b : State}, Reach a b → P a → P b := fun hr ha => hr.keeps hcpu hread hwrite ha
  have henter : ∀ v u, P u → P (enterInterrupt v u) := fun v u hu =>
    hreach (.setCycles _ (.enterFrom _ _ _ .refl)) hu
  have hend : ∀ u, P u → P (endTick u) := by
    intro u hu
    have h1 : P (nmiCheck u) := by
      unfold nmiCheck
      split
      · exact hnmi _ _ (henter _ _ hu)
      · exact hu
    have h2 : P (irqCheck (nmiCheck u)) := by
      unfold irqCheck
      split
      · exact henter _ _ h1
      · exact h1
    exact htick _ _ h2
  have hdmaStep : ∀ u, P u → P (dmaStep u) := by
    intro u hu
    unfold dmaStep
    split
    · split
      · exact hdma _ _ hu
      · exact hu
    · split
      · exact hdma _ _ (hread _ _ hu)
      · exact hdma _ _ (hoam _ _ _ hu)
  rcases step_cases s with ⟨-, h'⟩ | ⟨-, -, h'⟩ | ⟨-, -, u, -, hr, h'⟩
  all_goals
    rw [h'] at h
    cases h
  · exact hend _ (hppu _ hs)
  · exact hend _ (hapu _ (hdmaStep _ (hppu _ hs)))
  · exact hend _ (hapu _ (hreach hr (hppu _ hs)))

end Sys2Proof.Machine
end

