-- ==== Sys2Proof/Laws/Memory.lean ====
section
/-! SUPPORT. Every memory operation keeps the memories' canonical form: the cells an operation writes lie within
their memory. -/

namespace Sys2Proof.Machine

/-! ## The cells written lie within their memory -/

theorem ntCell_lt (m : Mirroring) (a : Nat) : ntCell m a < 2048 := by
  unfold ntCell
  cases m <;> dsimp only <;> omega

theorem paletteCell_lt (a : Nat) : paletteCell a < 32 := by
  unfold paletteCell
  dsimp only
  split <;> omega

theorem mapper1ChrSize_pos (m : Mapper1) : 0 < mapper1ChrSize m := by
  unfold mapper1ChrSize
  split <;> omega

theorem mapper1Chr_lt (m : Mapper1) (a : Nat) : mapper1Chr m a < mapper1ChrSize m :=
  Nat.mod_lt _ (mapper1ChrSize_pos m)

/-! ## The cartridge -/

/-- A serial write changes only mapper registers. -/
theorem mapper1Serial_eq (m : Mapper1) (addr : Nat) (d : Byte) :
    ∃ sr n control chr0 chr1 prgBank,
      mapper1Serial m addr d =
        { m with sr := sr, srCount := n, control := control, chr0 := chr0, chr1 := chr1, prgBank := prgBank } := by
  unfold mapper1Serial
  split
  · exact ⟨_, _, _, _, _, _, rfl⟩
  · dsimp only
    split
    · unfold mapper1Commit
      dsimp only
      split <;> exact ⟨_, _, _, _, _, _, rfl⟩
    · exact ⟨_, _, _, _, _, _, rfl⟩

theorem cartCpuWrite_wf {c c' : Cart} {n : Nat} {d : Byte} (h : cartCpuWrite c n d = some c')
    (hc : cartMemoryWf c = true) : cartMemoryWf c' = true := by
  cases c with
  | empty _ => cases h
  | fixed m =>
    simp only [cartCpuWrite] at h
    split at h
    · cases h; exact hc
    · cases h
  | serial m =>
    simp only [cartCpuWrite] at h
    split at h
    · cases h
      obtain ⟨_, _, _, _, _, _, he⟩ := mapper1Serial_eq m n d
      rw [he]
      exact hc
    · split at h
      · cases h
        simp only [cartMemoryWf, Bool.and_eq_true] at hc ⊢
        exact ⟨hc.1, cellsWf_cellSet d (by omega) hc.2⟩
      · cases h

theorem cartPpuWrite_wf {c c' : Cart} {n : Nat} {d : Byte} (h : cartPpuWrite c n d = some c')
    (hc : cartMemoryWf c = true) : cartMemoryWf c' = true := by
  cases c with
  | empty _ => cases h
  | fixed m =>
    simp only [cartPpuWrite] at h
    split at h
    · cases h; exact hc
    · cases h
  | serial m =>
    simp only [cartPpuWrite] at h
    split at h
    · cases h
      split
      · simp only [cartMemoryWf, Bool.and_eq_true] at hc ⊢
        exact ⟨⟨hc.1.1, cellsWf_cellSet d (mapper1Chr_lt m n) hc.1.2⟩, hc.2⟩
      · exact hc
    · cases h

theorem cartReset_wf {c : Cart} (hc : cartMemoryWf c = true) : cartMemoryWf (cartReset c) = true := by
  cases c <;> exact hc

/-- How many 16 KB PRG banks a cartridge has. -/
def cartPrgBanks : Cart → Option Nat
  | .empty _ => none
  | .fixed m => some m.prgBanks
  | .serial m => some m.prgBanks

/-! ## The PPU's memories -/

/-- The canonical form of OAM, the palette and the nametables. -/
def ppuMemoryWf (p : Ppu) : Bool := cellsWf 256 p.oam && cellsWf 32 p.palette && cellsWf 2048 p.nt

theorem oamWrite_wf {p : Ppu} (i d : Byte) (h : ppuMemoryWf p = true) : ppuMemoryWf (oamWrite p i d) = true := by
  simp only [ppuMemoryWf, Bool.and_eq_true] at h ⊢
  exact ⟨⟨cellsWf_cellSet d i.isLt h.1.1, h.1.2⟩, h.2⟩

theorem palWrite_wf {p : Ppu} (a : Nat) (d : Byte) (h : ppuMemoryWf p = true) :
    ppuMemoryWf (palWrite p a d) = true := by
  simp only [ppuMemoryWf, Bool.and_eq_true] at h ⊢
  exact ⟨⟨h.1.1, cellsWf_cellSet _ (paletteCell_lt a) h.1.2⟩, h.2⟩

/-- Everything a PPU-bus write can do: a cartridge write, nothing, one nametable cell, one palette cell. -/
theorem ppuBusWrite_cases (c : Cart) (p : Ppu) (a : Nat) (d : Byte) :
    (∃ c', cartPpuWrite c a d = some c' ∧ ppuBusWrite c p a d = (c', p)) ∨ ppuBusWrite c p a d = (c, p) ∨
    ppuBusWrite c p a d = (c, { p with nt := cellSet p.nt (ntCell (cartMirroring c) a) d }) ∨
    ppuBusWrite c p a d = (c, palWrite p a d) := by
  unfold ppuBusWrite
  split
  · next c' h => exact .inl ⟨c', h, rfl⟩
  · split
    · exact .inr (.inl rfl)
    · split
      · exact .inr (.inr (.inl rfl))
      · exact .inr (.inr (.inr rfl))

theorem ppuBusWrite_wf {c : Cart} {p : Ppu} (a : Nat) (d : Byte) (hc : cartMemoryWf c = true)
    (hp : ppuMemoryWf p = true) :
    cartMemoryWf (ppuBusWrite c p a d).1 = true ∧ ppuMemoryWf (ppuBusWrite c p a d).2 = true := by
  rcases ppuBusWrite_cases c p a d with ⟨c', h, he⟩ | he | he | he <;> rw [he]
  · exact ⟨cartPpuWrite_wf h hc, hp⟩
  · exact ⟨hc, hp⟩
  · refine ⟨hc, ?_⟩
    simp only [ppuMemoryWf, Bool.and_eq_true] at hp ⊢
    exact ⟨hp.1, cellsWf_cellSet d (ntCell_lt _ a) hp.2⟩
  · exact ⟨hc, palWrite_wf a d hp⟩

/-- A register write keeps the canonical form of the cartridge's and the PPU's memories, and the frame. -/
theorem ppuCpuWrite_wf {c : Cart} {p : Ppu} (r : Nat) (d : Byte) (hc : cartMemoryWf c = true)
    (hp : ppuMemoryWf p = true) :
    cartMemoryWf (ppuCpuWrite c p r d).1 = true ∧ ppuMemoryWf (ppuCpuWrite c p r d).2 = true ∧
      (ppuCpuWrite c p r d).2.frame = p.frame := by
  unfold ppuCpuWrite
  split
  · exact ⟨hc, hp, rfl⟩
  · exact ⟨hc, hp, rfl⟩
  · exact ⟨hc, hp, rfl⟩
  · exact ⟨hc, oamWrite_wf _ _ hp, rfl⟩
  · unfold writePpuScroll
    split <;> exact ⟨hc, hp, rfl⟩
  · unfold writePpuAddr
    split <;> exact ⟨hc, hp, rfl⟩
  · have h := ppuBusWrite_wf (ppuDataAddr p) d hc hp
    refine ⟨h.1, h.2, ?_⟩
    unfold writePpuData
    dsimp only
    rcases ppuBusWrite_cases c p (ppuDataAddr p) d with ⟨c', -, he⟩ | he | he | he
    all_goals simp only [he, palWrite]
  · exact ⟨hc, hp, rfl⟩

/-- A register read changes no memory of the PPU. -/
theorem ppuCpuRead_memory (c : Cart) (p : Ppu) (r : Nat) :
    (ppuCpuRead c p r).2.oam = p.oam ∧ (ppuCpuRead c p r).2.palette = p.palette ∧ (ppuCpuRead c p r).2.nt = p.nt ∧
      (ppuCpuRead c p r).2.frame = p.frame := by
  unfold ppuCpuRead
  split
  · exact ⟨rfl, rfl, rfl, rfl⟩
  · exact ⟨rfl, rfl, rfl, rfl⟩
  · unfold readPpuData
    dsimp only
    split <;> exact ⟨rfl, rfl, rfl, rfl⟩
  · exact ⟨rfl, rfl, rfl, rfl⟩

/-! ## The whole machine's memories -/

theorem memory_wf_iff (s : State) :
    Memory.wf s = true ↔
      cellsWf 0x0800 s.ram = true ∧ ppuMemoryWf s.ppu = true ∧ cellsWf 61440 s.ppu.frame = true ∧
        cartMemoryWf s.cart = true := by
  simp only [Memory.wf, ppuMemoryWf, Bool.and_eq_true]
  tauto

/-- The memories of the machine after reset are in canonical form. -/
theorem reset_memory_wf : Memory.wf State.reset = true := by decide

section wholeMachine

variable {s : State}

/-- No bus read changes a memory of the PPU. -/
theorem busRead_ppuMemory (s : State) (addr : Word) :
    (busRead s addr).2.ppu.oam = s.ppu.oam ∧ (busRead s addr).2.ppu.palette = s.ppu.palette ∧
      (busRead s addr).2.ppu.nt = s.ppu.nt ∧ (busRead s addr).2.ppu.frame = s.ppu.frame := by
  rcases busRead_cases s addr with h | ⟨-, -, h⟩ | ⟨-, h⟩ | ⟨-, h⟩ | ⟨-, h⟩ <;> rw [h]
  · exact ⟨rfl, rfl, rfl, rfl⟩
  · exact ppuCpuRead_memory _ _ _
  all_goals exact ⟨rfl, rfl, rfl, rfl⟩

theorem busRead_wf (addr : Word) (h : Memory.wf s = true) : Memory.wf (busRead s addr).2 = true := by
  obtain ⟨h1, h2, h3, h4⟩ := busRead_ppuMemory s addr
  simp only [Memory.wf] at h ⊢
  rw [h1, h2, h3, h4, busRead_ram_kept, busRead_cart]
  exact h

theorem busWrite_wf (addr : Word) (v : Byte) (h : Memory.wf s = true) : Memory.wf (busWrite s addr v) = true := by
  rw [memory_wf_iff] at h ⊢
  obtain ⟨hr, hp, hf, hc⟩ := h
  rcases busWrite_cases s addr v with he | ⟨c, -, hw, he⟩ | ⟨ha, he⟩ | ⟨-, -, he⟩ | ⟨-, he⟩ | ⟨-, he⟩ | ⟨-, he⟩ <;>
    rw [he]
  · exact ⟨hr, hp, hf, hc⟩
  · exact ⟨hr, hp, hf, cartCpuWrite_wf hw hc⟩
  · exact ⟨cellsWf_cellSet v (Nat.mod_lt _ (by omega)) hr, hp, hf, hc⟩
  · obtain ⟨h1, h2, h3⟩ := ppuCpuWrite_wf (addr.toNat % 8) v hc hp
    exact ⟨hr, h2, by simpa only [h3] using hf, h1⟩
  all_goals exact ⟨hr, hp, hf, hc⟩

/-- A multiplexer write keeps the frame's canonical form at a visible dot. -/
theorem pixel_frame_wf {p : Ppu} (h0 : 0 ≤ p.scanline) (h1 : p.scanline ≤ 239) (h2 : 1 ≤ p.dot) (h3 : p.dot ≤ 256)
    (hf : cellsWf 61440 p.frame = true) : cellsWf 61440 (pixel p).frame = true := by
  refine cellsWf_cellSet _ ?_ hf
  unfold pixelCell
  omega

/-- A PRG byte placed in a cartridge of at least one bank keeps the canonical form. -/
theorem cartWithPrgByte_wf {c : Cart} (addr : Nat) (b : Byte) (hb : cartPrgBanks c ≠ some 0)
    (h : cartMemoryWf c = true) : cartMemoryWf (cartWithPrgByte c addr b) = true := by
  cases c with
  | empty _ => rfl
  | fixed m =>
    have hb' : m.prgBanks ≠ 0 := fun e => hb (congrArg some e)
    simp only [cartMemoryWf, cartWithPrgByte, Bool.and_eq_true] at h ⊢
    refine ⟨cellsWf_cellSet b ?_ h.1, h.2⟩
    unfold mapper0Prg
    split <;> omega
  | serial m =>
    have hb' : m.prgBanks ≠ 0 := fun e => hb (congrArg some e)
    simp only [cartMemoryWf, cartWithPrgByte, Bool.and_eq_true] at h ⊢
    exact ⟨⟨cellsWf_cellSet b (Nat.mod_lt _ (by omega)) h.1.1, h.1.2⟩, h.2⟩

/-- Placing a byte in RAM, or in the PRG of a cartridge of at least one bank, keeps the canonical form. -/
theorem placeByte_wf (addr : Nat) (b : Byte) (hb : cartPrgBanks s.cart ≠ some 0) (h : Memory.wf s = true) :
    Memory.wf (placeByte s addr b) = true := by
  rw [memory_wf_iff] at h ⊢
  unfold placeByte
  split
  · exact ⟨cellsWf_cellSet b (Nat.mod_lt _ (by omega)) h.1, h.2⟩
  · exact ⟨h.1, h.2.1, h.2.2.1, cartWithPrgByte_wf addr b hb h.2.2.2⟩

/-- The system reset keeps every memory (R1100). -/
theorem systemReset_wf (h : Memory.wf s = true) : Memory.wf (systemReset s) = true := by
  have hr : Memory.wf (resetUnits s) = true := by
    rw [memory_wf_iff] at h ⊢
    exact ⟨h.1, h.2.1, h.2.2.1, cartReset_wf h.2.2.2⟩
  exact busRead_wf _ (busRead_wf _ hr)

theorem setControllerState_wf (player : Fin 2) (b : Byte) (h : Memory.wf s = true) :
    Memory.wf (setControllerState player b s) = true := by
  unfold setControllerState
  split <;> exact h

/-- A loaded cartridge's memories are in canonical form. -/
theorem loadCartridge_wf {t : State} {img : CartImage} (hl : loadCartridge img s = .next t) (h : Memory.wf s = true) :
    Memory.wf t = true := by
  unfold loadCartridge at hl
  split at hl
  · next c hi hc =>
    cases hl
    rw [memory_wf_iff] at h ⊢
    refine ⟨h.1, h.2.1, h.2.2.1, ?_⟩
    simp only [imageReadable, Bool.and_eq_true] at hi
    unfold cartOfImage at hc
    dsimp only at hc
    split at hc
    · cases hc
      simp only [cartMemoryWf, Bool.and_eq_true]
      refine ⟨hi.1, ?_⟩
      split
      · rfl
      · exact risingFrom_filter hi.2
    · cases hc
      simp only [cartMemoryWf, Bool.and_eq_true]
      refine ⟨⟨hi.1, ?_⟩, rfl⟩
      split
      · rfl
      · exact hi.2
    · cases hc
  · cases hl

end wholeMachine

end Sys2Proof.Machine
end

