-- ==== Sys2Proof/Laws/Claims.lean ====
section
/-! SUPPORT. How the vocabulary of claims (`leaves`, `wrote`, `nzFrom`, `flagsKeptBut`) follows from what the
operations do. -/

namespace Sys2Proof.Machine

/-! ## The parameters -/

/-- Parameters in range: every illegal byte's count is within the cycle counter's range (spec/10 R110). -/
theorem illegalCount_le_of_paramsOk {q : Params} (h : paramsOk q = true) (op : Byte) : q.illegalCount op ≤ 8 := by
  simp only [paramsOk, Bool.and_eq_true, List.all_eq_true, decide_eq_true_eq] at h
  exact illegalCount_le (by decide) h.2 op

/-! ## Flags -/

/-- N and Z after `NZ(v)` are those of v. -/
theorem nzFrom_setNZ (v p : Byte) : nzFrom v (setNZ v p) := by
  constructor
  · simp [getFlag_setNZ]
  · rw [getFlag_setNZ, if_pos rfl, Bool.eq_iff_iff]
    simp

/-- `NZ(v)` keeps every other flag. -/
theorem flagsKeptBut_setNZ (v p : Byte) : flagsKeptBut [.n, .z] p (setNZ v p) := by
  intro f hf
  simp only [List.mem_cons, List.not_mem_nil, or_false, not_or] at hf
  rw [getFlag_setNZ, if_neg hf.2, if_neg hf.1]

/-! ## What an operand fetch leaves -/

/-- An operand fetch keeps the PPU's memories. -/
theorem readOperand_ppuMemory (o : Src) (s : State) :
    (readOperand o s).ppu.oam = s.ppu.oam ∧ (readOperand o s).ppu.palette = s.ppu.palette ∧
      (readOperand o s).ppu.nt = s.ppu.nt := by
  cases o with
  | imm b => exact ⟨rfl, rfl, rfl⟩
  | mem m =>
    rw [readOperand_mem, readMemory_eq]
    obtain ⟨h1, h2, h3, -⟩ := busRead_ppuMemory s (eaOf m s)
    exact ⟨h1, h2, h3⟩

/-- `leaves` holds of a state that differs from `u` in the CPU alone, when `u` keeps the memories of `s`. -/
theorem leaves_of {s u t : State} {c : Cpu} (ht : t = { u with cpu := t.cpu }) (hr : u.ram = s.ram)
    (hc : u.cart = s.cart)
    (hp : u.ppu.oam = s.ppu.oam ∧ u.ppu.palette = s.ppu.palette ∧ u.ppu.nt = s.ppu.nt)
    (hcpu : t.cpu = latched c t.cpu) : leaves s u c t := by
  refine ⟨ht, ?_, ?_, ?_, ?_, ?_, hcpu⟩ <;> rw [ht]
  · exact fun k => ramAt_of_ram hr k
  · exact hc
  · exact hp.1
  · exact hp.2.1
  · exact hp.2.2

/-- `leaves` after an operand fetch. -/
theorem leaves_readOperand {o : Src} {s t : State} {c : Cpu} (ht : t = { readOperand o s with cpu := t.cpu })
    (hcpu : t.cpu = latched c t.cpu) : leaves s (readOperand o s) c t :=
  leaves_of ht (readOperand_ram o s) (readOperand_cart o s) (readOperand_ppuMemory o s) hcpu

/-- `leaves` of an instruction that touches the CPU alone. -/
theorem leaves_self {s t : State} {c : Cpu} (ht : t = { s with cpu := t.cpu }) (hcpu : t.cpu = latched c t.cpu) :
    leaves s s c t :=
  leaves_of ht rfl rfl ⟨rfl, rfl, rfl⟩ hcpu

/-! ## What one write leaves -/

/-- The value a PPU register read answers does not depend on the cartridge. -/
theorem ppuCpuRead_value (c c' : Cart) (p : Ppu) (r : Nat) : (ppuCpuRead c p r).1 = (ppuCpuRead c' p r).1 := by
  unfold ppuCpuRead
  split
  · rfl
  · rfl
  · unfold readPpuData
    dsimp only
    split <;> rfl
  · rfl

/-- Below the cartridge's window a read answers the same value whatever the cartridge is. -/
theorem busRead_low_value (s : State) (c : Cart) {a : Word} (h : a.toNat < 0x6000) :
    (busRead { s with cart := c } a).1 = (busRead s a).1 := by
  unfold busRead
  dsimp only
  rw [cartCpuRead_low c h, cartCpuRead_low s.cart h]
  dsimp only
  split
  · rfl
  · split
    · exact ppuCpuRead_value _ _ _ _
    · split
      · rfl
      · split
        · rfl
        · split <;> rfl

/-- Above CPU RAM a read answers the same value whatever CPU RAM holds. -/
theorem busRead_ram_value (s : State) (m : Cells 8) {a : Word} (h : 0x1FFF < a.toNat) :
    (busRead { s with ram := m } a).1 = (busRead s a).1 := by
  unfold busRead
  dsimp only
  split
  · rfl
  · have h' : ¬ a.toNat ≤ 0x1FFF := by omega
    simp only [h', if_false]
    split
    · rfl
    · split
      · rfl
      · split
        · rfl
        · split <;> rfl

/-- A claimed write below 0x8000 is a write of one cell of mapper 1's PRG-RAM. -/
theorem busWrite_prgRam {s : State} {ea : Word} {v : Byte} (hc : claimsWrite s ea v = true) (h : ea.toNat < 0x8000) :
    ∃ m, s.cart = .serial m ∧ 0x6000 ≤ ea.toNat ∧
      busWrite s ea v = { s with cart := .serial { m with prgRam := cellSet m.prgRam (ea.toNat % 0x2000) v } } := by
  have h8 : ¬ 0x8000 ≤ ea.toNat := by omega
  cases hcart : s.cart with
  | empty _ => simp [claimsWrite, cartCpuWrite, hcart] at hc
  | fixed m => simp [claimsWrite, cartCpuWrite, hcart, h8] at hc
  | serial m =>
    by_cases h6 : 0x6000 ≤ ea.toNat
    · refine ⟨m, rfl, h6, ?_⟩
      unfold busWrite
      simp [hcart, cartCpuWrite, h8, h6]
    · simp [claimsWrite, cartCpuWrite, hcart, h8, h6] at hc

/-- `wrote` holds of a state that differs from the one after a bus write in the CPU alone. -/
theorem wrote_of {u s t : State} {ea : Word} {v : Byte} (hs : ∃ c, s = { u with cpu := c })
    (ht : t = { busWrite s ea v with cpu := t.cpu }) : wrote u ea v t := by
  obtain ⟨c, rfl⟩ := hs
  rw [busWrite_of_cpu] at ht
  have hread : ∀ a, (busRead t a).1 = (busRead (busWrite u ea v) a).1 := by
    intro a
    rw [ht, busRead_of_cpu, busRead_of_cpu]
  have hram : t.ram = (busWrite u ea v).ram := by rw [ht]
  refine ⟨ht, ?_, ?_, ?_⟩
  · intro he a
    rw [hread, busWrite_ram _ _ he]
    by_cases hb : a.toNat ≤ 0x1FFF
    · rw [busRead_ram _ hb, busRead_ram _ hb]
      by_cases hh : a.toNat % 0x800 = ea.toNat % 0x800
      · rw [if_pos ⟨hb, hh⟩, hh]
        exact byteAt_cellSet_same _ _ _ _
      · rw [if_neg (fun x => hh x.2)]
        exact byteAt_cellSet_other _ _ _ hh
    · rw [if_neg (fun x => hb x.1)]
      exact busRead_ram_value u _ (by omega)
  · intro hc he a
    obtain ⟨m, hcart, h6, hw⟩ := busWrite_prgRam hc he
    rw [hread, hw]
    by_cases ha : 0x6000 ≤ a.toNat
    · unfold busRead
      simp only [cartCpuRead, ha, hcart, if_true]
      by_cases ha8 : 0x8000 ≤ a.toNat
      · simp only [ha8, if_true]
        rw [if_neg (by rintro rfl; omega)]
        rfl
      · simp only [ha8, if_false]
        by_cases hh : a = ea
        · subst hh
          simp [byteAt_cellSet_same]
        · rw [if_neg hh]
          refine byteAt_cellSet_other _ _ _ (fun x => hh ?_)
          apply BitVec.eq_of_toNat_eq
          omega
    · rw [if_neg (by rintro rfl; omega)]
      exact busRead_low_value u _ (by omega)
  · intro he k
    refine ramAt_of_ram ?_ k
    rw [hram]
    rcases busWrite_cases u ea v with h | ⟨c, -, -, h⟩ | ⟨ha, h⟩ | ⟨-, -, h⟩ | ⟨-, h⟩ | ⟨-, h⟩ | ⟨-, h⟩ <;> rw [h]
    omega

end Sys2Proof.Machine
end

