-- ==== Sys2Proof/Laws/PerInstr.lean ====
section
/-! SUPPORT. Statements made of every instruction as syntax, one lemma per constructor of Instr. Family
EncodedLength: the bytes of a well-formed instruction are its opcode byte and as many operand bytes as the
opcode's mode takes (spec/30 R301). -/

namespace Sys2Proof.Laws.EncodedLength

/-- A well-formed instruction has an opcode, and its encoding is as long as the opcode's mode says (R301). -/
def Statement (i : Instr) : Prop :=
  i.wf = true → ∃ op, i.opcode = some op ∧ (encode i).length = 1 + operandCount op

/-- No illegal opcode takes an operand byte (R390). -/
theorem illegal_operandCount : ∀ op : Byte, illegalByte op = true → operandCount op = 0 := by decide +revert

theorem lda (o : Src) : Statement (.lda o) := by
  intro h
  rcases o with b | m
  · exact ⟨_, rfl, rfl⟩
  · cases m <;> first | exact ⟨_, rfl, rfl⟩ | cases h

theorem ldx (o : Src) : Statement (.ldx o) := by
  intro h
  rcases o with b | m
  · exact ⟨_, rfl, rfl⟩
  · cases m <;> first | exact ⟨_, rfl, rfl⟩ | cases h

theorem ldy (o : Src) : Statement (.ldy o) := by
  intro h
  rcases o with b | m
  · exact ⟨_, rfl, rfl⟩
  · cases m <;> first | exact ⟨_, rfl, rfl⟩ | cases h

theorem sta (m : Mem) : Statement (.sta m) := by
  intro h
  cases m <;> first | exact ⟨_, rfl, rfl⟩ | cases h

theorem stx (m : Mem) : Statement (.stx m) := by
  intro h
  cases m <;> first | exact ⟨_, rfl, rfl⟩ | cases h

theorem sty (m : Mem) : Statement (.sty m) := by
  intro h
  cases m <;> first | exact ⟨_, rfl, rfl⟩ | cases h

theorem tax : Statement .tax := fun _ => ⟨_, rfl, rfl⟩

theorem tay : Statement .tay := fun _ => ⟨_, rfl, rfl⟩

theorem txa : Statement .txa := fun _ => ⟨_, rfl, rfl⟩

theorem tya : Statement .tya := fun _ => ⟨_, rfl, rfl⟩

theorem tsx : Statement .tsx := fun _ => ⟨_, rfl, rfl⟩

theorem txs : Statement .txs := fun _ => ⟨_, rfl, rfl⟩

theorem pha : Statement .pha := fun _ => ⟨_, rfl, rfl⟩

theorem php : Statement .php := fun _ => ⟨_, rfl, rfl⟩

theorem pla : Statement .pla := fun _ => ⟨_, rfl, rfl⟩

theorem plp : Statement .plp := fun _ => ⟨_, rfl, rfl⟩

theorem adc (o : Src) : Statement (.adc o) := by
  intro h
  rcases o with b | m
  · exact ⟨_, rfl, rfl⟩
  · cases m <;> first | exact ⟨_, rfl, rfl⟩ | cases h

theorem sbc (o : Src) : Statement (.sbc o) := by
  intro h
  rcases o with b | m
  · exact ⟨_, rfl, rfl⟩
  · cases m <;> first | exact ⟨_, rfl, rfl⟩ | cases h

theorem cmp (o : Src) : Statement (.cmp o) := by
  intro h
  rcases o with b | m
  · exact ⟨_, rfl, rfl⟩
  · cases m <;> first | exact ⟨_, rfl, rfl⟩ | cases h

theorem cpx (o : Src) : Statement (.cpx o) := by
  intro h
  rcases o with b | m
  · exact ⟨_, rfl, rfl⟩
  · cases m <;> first | exact ⟨_, rfl, rfl⟩ | cases h

theorem cpy (o : Src) : Statement (.cpy o) := by
  intro h
  rcases o with b | m
  · exact ⟨_, rfl, rfl⟩
  · cases m <;> first | exact ⟨_, rfl, rfl⟩ | cases h

theorem inc (m : Mem) : Statement (.inc m) := by
  intro h
  cases m <;> first | exact ⟨_, rfl, rfl⟩ | cases h

theorem inx : Statement .inx := fun _ => ⟨_, rfl, rfl⟩

theorem iny : Statement .iny := fun _ => ⟨_, rfl, rfl⟩

theorem dec (m : Mem) : Statement (.dec m) := by
  intro h
  cases m <;> first | exact ⟨_, rfl, rfl⟩ | cases h

theorem dex : Statement .dex := fun _ => ⟨_, rfl, rfl⟩

theorem dey : Statement .dey := fun _ => ⟨_, rfl, rfl⟩

theorem and (o : Src) : Statement (.and o) := by
  intro h
  rcases o with b | m
  · exact ⟨_, rfl, rfl⟩
  · cases m <;> first | exact ⟨_, rfl, rfl⟩ | cases h

theorem ora (o : Src) : Statement (.ora o) := by
  intro h
  rcases o with b | m
  · exact ⟨_, rfl, rfl⟩
  · cases m <;> first | exact ⟨_, rfl, rfl⟩ | cases h

theorem eor (o : Src) : Statement (.eor o) := by
  intro h
  rcases o with b | m
  · exact ⟨_, rfl, rfl⟩
  · cases m <;> first | exact ⟨_, rfl, rfl⟩ | cases h

theorem bit (m : Mem) : Statement (.bit m) := by
  intro h
  cases m <;> first | exact ⟨_, rfl, rfl⟩ | cases h

theorem asl (o : Rmw) : Statement (.asl o) := by
  intro h
  rcases o with _ | m
  · exact ⟨_, rfl, rfl⟩
  · cases m <;> first | exact ⟨_, rfl, rfl⟩ | cases h

theorem lsr (o : Rmw) : Statement (.lsr o) := by
  intro h
  rcases o with _ | m
  · exact ⟨_, rfl, rfl⟩
  · cases m <;> first | exact ⟨_, rfl, rfl⟩ | cases h

theorem rol (o : Rmw) : Statement (.rol o) := by
  intro h
  rcases o with _ | m
  · exact ⟨_, rfl, rfl⟩
  · cases m <;> first | exact ⟨_, rfl, rfl⟩ | cases h

theorem ror (o : Rmw) : Statement (.ror o) := by
  intro h
  rcases o with _ | m
  · exact ⟨_, rfl, rfl⟩
  · cases m <;> first | exact ⟨_, rfl, rfl⟩ | cases h

theorem jmp (t : JmpTarget) : Statement (.jmp t) := by
  intro _
  cases t <;> exact ⟨_, rfl, rfl⟩

theorem jsr (a : Word) : Statement (.jsr a) := fun _ => ⟨_, rfl, rfl⟩

theorem rts : Statement .rts := fun _ => ⟨_, rfl, rfl⟩

theorem rti : Statement .rti := fun _ => ⟨_, rfl, rfl⟩

theorem brk : Statement .brk := fun _ => ⟨_, rfl, rfl⟩

theorem bcc (off : Byte) : Statement (.bcc off) := fun _ => ⟨_, rfl, rfl⟩

theorem bcs (off : Byte) : Statement (.bcs off) := fun _ => ⟨_, rfl, rfl⟩

theorem beq (off : Byte) : Statement (.beq off) := fun _ => ⟨_, rfl, rfl⟩

theorem bmi (off : Byte) : Statement (.bmi off) := fun _ => ⟨_, rfl, rfl⟩

theorem bne (off : Byte) : Statement (.bne off) := fun _ => ⟨_, rfl, rfl⟩

theorem bpl (off : Byte) : Statement (.bpl off) := fun _ => ⟨_, rfl, rfl⟩

theorem bvc (off : Byte) : Statement (.bvc off) := fun _ => ⟨_, rfl, rfl⟩

theorem bvs (off : Byte) : Statement (.bvs off) := fun _ => ⟨_, rfl, rfl⟩

theorem clc : Statement .clc := fun _ => ⟨_, rfl, rfl⟩

theorem sec : Statement .sec := fun _ => ⟨_, rfl, rfl⟩

theorem cli : Statement .cli := fun _ => ⟨_, rfl, rfl⟩

theorem sei : Statement .sei := fun _ => ⟨_, rfl, rfl⟩

theorem cld : Statement .cld := fun _ => ⟨_, rfl, rfl⟩

theorem sed : Statement .sed := fun _ => ⟨_, rfl, rfl⟩

theorem clv : Statement .clv := fun _ => ⟨_, rfl, rfl⟩

theorem nop : Statement .nop := fun _ => ⟨_, rfl, rfl⟩

theorem illegal (op : Byte) : Statement (.illegal op) := by
  intro h
  refine ⟨op, rfl, ?_⟩
  rw [illegal_operandCount op h]
  rfl

end Sys2Proof.Laws.EncodedLength
end

