-- ==== Sys2Proof/Laws/Ppu.lean ====
section
/-! SUPPORT. What one dot of the PPU can do. -/

namespace Sys2Proof.Machine

theorem applyIf_keeps {α : Type} {P : α → Prop} {f : α → α} (b : Bool) {a : α} (hf : b = true → P a → P (f a))
    (h : P a) : P (applyIf b f a) := by
  cases b with
  | true => exact hf rfl h
  | false => exact h

/-! ## What each action writes -/

theorem incX_eq (p : Ppu) : ∃ v, incX p = { p with v := v } := by
  unfold incX applyIf
  split
  · exact ⟨_, rfl⟩
  · exact ⟨p.v, rfl⟩

theorem incY_eq (p : Ppu) : ∃ v, incY p = { p with v := v } := by
  unfold incY applyIf
  split
  · exact ⟨_, rfl⟩
  · exact ⟨p.v, rfl⟩

theorem transferX_eq (p : Ppu) : ∃ v, transferX p = { p with v := v } := by
  unfold transferX applyIf
  split
  · exact ⟨_, rfl⟩
  · exact ⟨p.v, rfl⟩

theorem transferY_eq (p : Ppu) : ∃ v, transferY p = { p with v := v } := by
  unfold transferY applyIf
  split
  · exact ⟨_, rfl⟩
  · exact ⟨p.v, rfl⟩

theorem mapFirst_length {α : Type} (f : α → α) (n : Nat) (l : List α) : (mapFirst f n l).length = l.length := by
  induction n generalizing l with
  | zero => rfl
  | succ n ih =>
    cases l with
    | nil => rfl
    | cons a l => simp [mapFirst, ih]

theorem shiftSprites_eq (p : Ppu) :
    ∃ l : List SpriteSlot, l.length = p.slots.length ∧ shiftSprites p = { p with slots := l } := by
  unfold shiftSprites applyIf
  split
  · exact ⟨_, mapFirst_length _ _ _, rfl⟩
  · exact ⟨p.slots, rfl, rfl⟩

/-- The background actions of a fetch dot, the shift included, write the pipeline's registers and v. -/
theorem fetchDot_eq (c : Cart) (p : Ppu) :
    ∃ (l : List SpriteSlot) (v : BitVec 15) (nt : Byte) (na : BitVec 2) (nl nh : Byte) (a b d e : Word),
      l.length = p.slots.length ∧
      fetchDot c p =
        { p with
          slots := l, v := v, nextTile := nt, nextAttr := na, nextLo := nl, nextHi := nh
          shPatLo := a, shPatHi := b, shAttrLo := d, shAttrHi := e } := by
  obtain ⟨a, b, d, e, h1⟩ : ∃ a b d e,
      shiftBackground p = { p with shPatLo := a, shPatHi := b, shAttrLo := d, shAttrHi := e } := by
    unfold shiftBackground applyIf
    split
    · exact ⟨_, _, _, _, rfl⟩
    · exact ⟨p.shPatLo, p.shPatHi, p.shAttrLo, p.shAttrHi, rfl⟩
  obtain ⟨l, hl, h2⟩ : ∃ l : List SpriteSlot, l.length = p.slots.length ∧
      shiftAll p = { p with slots := l, shPatLo := a, shPatHi := b, shAttrLo := d, shAttrHi := e } := by
    unfold shiftAll applyIf
    split
    · obtain ⟨l, hl, h⟩ := shiftSprites_eq (shiftBackground p)
      rw [h]
      rw [h1] at hl ⊢
      exact ⟨l, hl, rfl⟩
    · exact ⟨p.slots, rfl, h1⟩
  unfold fetchDot backgroundStep
  rw [h2]
  split
  · exact ⟨l, p.v, _, p.nextAttr, p.nextLo, p.nextHi, _, _, _, _, hl, rfl⟩
  · exact ⟨l, p.v, p.nextTile, _, p.nextLo, p.nextHi, a, b, d, e, hl, rfl⟩
  · exact ⟨l, p.v, p.nextTile, p.nextAttr, _, p.nextHi, a, b, d, e, hl, rfl⟩
  · exact ⟨l, p.v, p.nextTile, p.nextAttr, p.nextLo, _, a, b, d, e, hl, rfl⟩
  · obtain ⟨v, hv⟩ :=
      incX_eq { p with slots := l, shPatLo := a, shPatHi := b, shAttrLo := d, shAttrHi := e }
    exact ⟨l, v, p.nextTile, p.nextAttr, p.nextLo, p.nextHi, a, b, d, e, hl, hv⟩
  · exact ⟨l, p.v, p.nextTile, p.nextAttr, p.nextLo, p.nextHi, a, b, d, e, hl, rfl⟩

/-! ## What a dot keeps -/

/-- What every write of the dot's actions before the raster's advance keeps, the dot keeps up to that advance. The
pixel action runs only at a visible dot. -/
theorem ppuDot_cases {P : Ppu → Prop} (c : Cart) (hv : ∀ p v, P p → P { p with v := v })
    (hslots : ∀ (p : Ppu) (l : List SpriteSlot), l.length = p.slots.length → P p → P { p with slots := l })
    (hpipe : ∀ (p : Ppu) nt na nl nh a b d e, P p →
      P { p with
          nextTile := nt, nextAttr := na, nextLo := nl, nextHi := nh
          shPatLo := a, shPatHi := b, shAttrLo := d, shAttrHi := e })
    (hclear : ∀ p, P p → P (preRenderClear p)) (heval : ∀ p, P p → P (evaluateSprites p))
    (hvblank : ∀ p, P p → P (vblankStart p))
    (hpixel : ∀ p, 0 ≤ p.scanline → p.scanline ≤ 239 → 1 ≤ p.dot → p.dot ≤ 256 → P p → P (pixel p)) {p : Ppu}
    (h : P p) : ∃ q, P q ∧ ppuDot c p = advance q := by
  refine ⟨_, ?_, rfl⟩
  refine applyIf_keeps _ ?_ (applyIf_keeps _ (fun _ => hvblank _) (applyIf_keeps (a := p) _ ?_ h))
  · intro hb hp
    simp only [dotIn, Bool.and_eq_true, decide_eq_true_eq] at hb
    exact hpixel _ hb.1.1 hb.1.2 hb.2.1 hb.2.2 hp
  · intro _ hp
    refine applyIf_keeps (f := loadSprites c) _ (fun _ h => hslots _ _ (mapFirst_length _ _ _) h)
      (applyIf_keeps (f := evaluateSprites) _ (fun _ => heval _)
        (applyIf_keeps (f := transferY) _ (fun _ h => ?_) (applyIf_keeps (f := transferX) _ (fun _ h => ?_)
          (applyIf_keeps (f := incY) _ (fun _ h => ?_) (applyIf_keeps (f := fetchDot c) _ (fun _ h => ?_)
            (applyIf_keeps (f := preRenderClear) _ (fun _ => hclear _) hp))))))
    · obtain ⟨v, he⟩ := transferY_eq _
      rw [he]
      exact hv _ _ h
    · obtain ⟨v, he⟩ := transferX_eq _
      rw [he]
      exact hv _ _ h
    · obtain ⟨v, he⟩ := incY_eq _
      rw [he]
      exact hv _ _ h
    · obtain ⟨l, v, nt, na, nl, nh, a, b, d, e, hl, he⟩ := fetchDot_eq c _
      rw [he]
      exact hpipe _ nt na nl nh a b d e (hv _ v (hslots _ l hl h))

/-- `Advance()` as an equation: the raster's two fields and the frame-done flag (R873, R874). -/
theorem advance_eq (p : Ppu) :
    advance p =
      { p with
        dot := if p.dot + 1 = 341 then 0 else p.dot + 1
        scanline := if p.dot + 1 = 341 then (if p.scanline + 1 = 261 then -1 else p.scanline + 1) else p.scanline
        frameComplete := p.frameComplete || (decide (p.dot + 1 = 341) && decide (p.scanline + 1 = 261)) } := by
  unfold advance
  by_cases h1 : p.dot + 1 = 341
  · by_cases h2 : p.scanline + 1 = 261 <;> simp [h1, h2]
  · simp [h1]

/-- No dot changes OAM, the palette, the nametables, the registers a CPU write sets, or the read buffer. -/
theorem ppuDot_frame (c : Cart) (p : Ppu) :
    (ppuDot c p).oam = p.oam ∧ (ppuDot c p).palette = p.palette ∧ (ppuDot c p).nt = p.nt ∧
      (ppuDot c p).ctrl = p.ctrl ∧ (ppuDot c p).mask = p.mask ∧ (ppuDot c p).oamAddr = p.oamAddr ∧
      (ppuDot c p).t = p.t ∧ (ppuDot c p).fineX = p.fineX ∧ (ppuDot c p).w = p.w ∧
      (ppuDot c p).readBuffer = p.readBuffer := by
  obtain ⟨q, hq, he⟩ := ppuDot_cases (p := p)
    (P := fun q => q.oam = p.oam ∧ q.palette = p.palette ∧ q.nt = p.nt ∧ q.ctrl = p.ctrl ∧ q.mask = p.mask ∧
      q.oamAddr = p.oamAddr ∧ q.t = p.t ∧ q.fineX = p.fineX ∧ q.w = p.w ∧ q.readBuffer = p.readBuffer)
    c (fun _ _ h => h) (fun _ _ _ h => h) (fun _ _ _ _ _ _ _ _ _ h => h) (fun _ h => h) (fun _ h => h)
    (fun _ h => h) (fun _ _ _ _ _ h => h) ⟨rfl, rfl, rfl, rfl, rfl, rfl, rfl, rfl, rfl, rfl⟩
  rw [he, advance_eq]
  exact hq

/-- The raster moves one dot on, whatever else the dot does (R873). -/
theorem ppuDot_raster (c : Cart) (p : Ppu) :
    (ppuDot c p).dot = (if p.dot + 1 = 341 then 0 else p.dot + 1) ∧
      (ppuDot c p).scanline =
        (if p.dot + 1 = 341 then (if p.scanline + 1 = 261 then -1 else p.scanline + 1) else p.scanline) := by
  obtain ⟨q, hq, he⟩ := ppuDot_cases (p := p) (P := fun q => q.scanline = p.scanline ∧ q.dot = p.dot)
    c (fun _ _ h => h) (fun _ _ _ h => h) (fun _ _ _ _ _ _ _ _ _ h => h) (fun _ h => h) (fun _ h => h)
    (fun _ h => h) (fun _ _ _ _ _ h => h) ⟨rfl, rfl⟩
  rw [he, advance_eq, hq.1, hq.2]
  exact ⟨rfl, rfl⟩

/-! ## The invariants of the PPU -/

/-- The scan finds at most eight sprites. -/
theorem scanSprites_length (p : Ppu) (ns : List Nat) (acc : SpriteScan) (h : acc.found.length ≤ 8) :
    (scanSprites p ns acc).found.length ≤ 8 := by
  induction ns generalizing acc with
  | nil => exact h
  | cons n ns ih =>
    simp only [scanSprites]
    split
    · split
      · exact ih _ (by simp; omega)
      · exact h
    · exact ih _ h

theorem evaluateSprites_spritesOk (p : Ppu) : spritesOk (evaluateSprites p) = true := by
  have h := scanSprites_length p (List.range 64) ⟨[], false, false⟩ (by simp)
  simp only [spritesOk, evaluateSprites, Bool.and_eq_true, decide_eq_true_eq, List.length_append, List.length_replicate]
  exact ⟨by omega, decide_eq_true h⟩

/-- A dot keeps the sprite slots' ranges. -/
theorem ppuDot_spritesOk (c : Cart) {p : Ppu} (h : spritesOk p = true) : spritesOk (ppuDot c p) = true := by
  obtain ⟨q, hq, he⟩ := ppuDot_cases (P := fun q => spritesOk q = true) c (fun _ _ h => h)
    (fun _ _ hl h => by simpa only [spritesOk, hl] using h) (fun _ _ _ _ _ _ _ _ _ h => h) (fun _ h => h)
    (fun q _ => evaluateSprites_spritesOk q) (fun _ h => h) (fun _ _ _ _ _ h => h) h
  rw [he, advance_eq]
  exact hq

theorem ppuStatusOk_iff (p : Ppu) : ppuStatusOk p = true ↔ p.status &&& 0x1F = 0 := by
  simp [ppuStatusOk]

/-- Setting bits of 7 to 5 keeps bits 4 to 0. -/
theorem status_set {a m : Byte} (hm : m &&& 0x1F = 0) (ha : a &&& 0x1F = 0) : (a ||| m) &&& 0x1F = 0 := by
  have e : (a ||| m) &&& 0x1F = (a &&& 0x1F) ||| (m &&& 0x1F) := by
    apply BitVec.eq_of_getLsbD_eq
    intro i _
    simp [Bool.and_or_distrib_right]
  rw [e, ha, hm]
  rfl

/-- A dot keeps PPUSTATUS bits 4 to 0 at 0. -/
theorem ppuDot_statusOk (c : Cart) {p : Ppu} (h : ppuStatusOk p = true) : ppuStatusOk (ppuDot c p) = true := by
  rw [ppuStatusOk_iff] at h ⊢
  obtain ⟨q, hq, he⟩ := ppuDot_cases (P := fun q => q.status &&& 0x1F = 0) c (fun _ _ h => h) (fun _ _ _ h => h)
    (fun _ _ _ _ _ _ _ _ _ h => h)
    (fun q h => by
      simp only [preRenderClear, BitVec.and_assoc, BitVec.and_self]
      exact h)
    (fun q h => by
      simp only [evaluateSprites]
      split
      · exact status_set (by decide) h
      · exact h)
    (fun q h => status_set (by decide) h)
    (fun q _ _ _ _ h => by
      simp only [pixel]
      split
      · exact status_set (by decide) h
      · exact h)
    h
  rw [he, advance_eq]
  exact hq

/-- A dot keeps the frame buffer's canonical form. -/
theorem ppuDot_frame_wf (c : Cart) {p : Ppu} (h : cellsWf 61440 p.frame = true) :
    cellsWf 61440 (ppuDot c p).frame = true := by
  obtain ⟨q, hq, he⟩ := ppuDot_cases (P := fun q => cellsWf 61440 q.frame = true) c (fun _ _ h => h)
    (fun _ _ _ h => h) (fun _ _ _ _ _ _ _ _ _ h => h) (fun _ h => h) (fun _ h => h) (fun _ h => h)
    (fun q h0 h1 h2 h3 h => pixel_frame_wf h0 h1 h2 h3 h) h
  rw [he, advance_eq]
  exact hq

/-- A dot keeps the raster within its range. -/
theorem ppuDot_rasterOk (c : Cart) {p : Ppu} (h : rasterOk p = true) : rasterOk (ppuDot c p) = true := by
  obtain ⟨hd, hs⟩ := ppuDot_raster c p
  simp only [rasterOk, Bool.and_eq_true, decide_eq_true_eq] at h ⊢
  rw [hd, hs]
  obtain ⟨⟨h1, h2⟩, h3⟩ := h
  split
  · split <;> omega
  · omega

/-! ## The registers -/

/-- A register read keeps every range of the PPU, and its raster. -/
theorem ppuCpuRead_ok (c : Cart) (p : Ppu) (r : Nat) :
    (ppuCpuRead c p r).2.scanline = p.scanline ∧ (ppuCpuRead c p r).2.dot = p.dot ∧
      (ppuCpuRead c p r).2.slots = p.slots ∧ (ppuCpuRead c p r).2.spriteCount = p.spriteCount ∧
      (ppuStatusOk p = true → ppuStatusOk (ppuCpuRead c p r).2 = true) := by
  unfold ppuCpuRead
  split
  · refine ⟨rfl, rfl, rfl, rfl, fun h => ?_⟩
    rw [ppuStatusOk_iff] at h ⊢
    have e : p.status &&& 0x7F &&& 0x1F = p.status &&& 0x1F := by rw [BitVec.and_assoc]; rfl
    exact e.trans h
  · exact ⟨rfl, rfl, rfl, rfl, id⟩
  · unfold readPpuData
    dsimp only
    split <;> exact ⟨rfl, rfl, rfl, rfl, id⟩
  · exact ⟨rfl, rfl, rfl, rfl, id⟩

/-- A register write keeps the raster, the sprite slots and PPUSTATUS. -/
theorem ppuCpuWrite_ok (c : Cart) (p : Ppu) (r : Nat) (d : Byte) :
    (ppuCpuWrite c p r d).2.scanline = p.scanline ∧ (ppuCpuWrite c p r d).2.dot = p.dot ∧
      (ppuCpuWrite c p r d).2.slots = p.slots ∧ (ppuCpuWrite c p r d).2.spriteCount = p.spriteCount ∧
      (ppuCpuWrite c p r d).2.status = p.status := by
  unfold ppuCpuWrite
  split
  · exact ⟨rfl, rfl, rfl, rfl, rfl⟩
  · exact ⟨rfl, rfl, rfl, rfl, rfl⟩
  · exact ⟨rfl, rfl, rfl, rfl, rfl⟩
  · exact ⟨rfl, rfl, rfl, rfl, rfl⟩
  · unfold writePpuScroll
    split <;> exact ⟨rfl, rfl, rfl, rfl, rfl⟩
  · unfold writePpuAddr
    split <;> exact ⟨rfl, rfl, rfl, rfl, rfl⟩
  · unfold writePpuData
    dsimp only
    rcases ppuBusWrite_cases c p (ppuDataAddr p) d with ⟨c', -, he⟩ | he | he | he
    all_goals
      rw [he]
      exact ⟨rfl, rfl, rfl, rfl, rfl⟩
  · exact ⟨rfl, rfl, rfl, rfl, rfl⟩

end Sys2Proof.Machine
end

