-- ==== Sys2Proof/Tests/Slice0.lean ====
section
/-! SUPPORT. The model's own tests: ill-formed terms refused, words written bit by bit from spec/30 R350, one step
or one exec on a small state with results from spec/95 or from a rule's example, and a witness for the hypotheses
of every obligation that has some. -/

namespace Sys2Proof.Tests

open Sys2Proof Sys2Proof.Machine

/-! ## Helpers -/

/-- The state of the vectors of spec/95, section 2: after reset, mapper 0 with one PRG bank, the pc at 0x8000, the
CPU between instructions. -/
def nes : State :=
  { State.reset with
    cart := .fixed { prgBanks := 1, prg := [], chr := [], mirroring := .horizontal }
    cpu := { Cpu.reset Params.default with pc := 0x8000, cycles := 0 } }

/-- `nes` with other A, X, Y, SP and P. -/
def cpuWith (a x y sp p : Byte) : State := { nes with cpu := { nes.cpu with a := a, x := x, y := y, sp := sp, p := p } }

/-- A state with other CPU RAM. -/
def withRam (s : State) (ram : Cells 8) : State := { s with ram := ram }

/-- What a step answers, when it answers a next state. -/
def next? (r : Result) : Option State :=
  match r with
  | .next t => some t
  | .fault _ => none
  | .refused _ => none

/-- The state after a result, `s` where there is none. -/
def stateOf (s : State) (r : Result) : State := (next? r).getD s

/-- The state after the step that runs the instruction with table bits `w`. The step counts one cycle at once
(spec/60 R701), so `cycles` is one lower than the count the vectors give. -/
def after (s : State) (nbits w : Nat) : State := stateOf s (step (s.withFetchWord nbits w))

/-! ## Ill-formed terms -/

/-- One term for each check of `Instr.wf` that the check refuses, and one that it admits. -/
theorem test_illFormed_refused :
    (Instr.lda (.mem (.zpY 0x10))).wf = false ∧ (Instr.ldx (.mem (.zpX 0x10))).wf = false ∧
    (Instr.ldy (.mem (.zpY 0x10))).wf = false ∧ (Instr.cpx (.mem (.zpX 0x10))).wf = false ∧
    (Instr.sta (.zpY 0x10)).wf = false ∧ (Instr.stx (.absX 0x1000)).wf = false ∧ (Instr.sty (.zpY 0x10)).wf = false ∧
    (Instr.bit (.absX 0x1000)).wf = false ∧ (Instr.inc (.indX 0x10)).wf = false ∧
    (Instr.asl (.mem (.absY 0x1000))).wf = false ∧ (Instr.illegal 0xEA).wf = false ∧
    (Instr.asl .acc).wf = true ∧ (Instr.illegal 0x02).wf = true := by decide

/-- An ill-formed term has no bytes. -/
theorem test_illFormed_encode : encode (.lda (.mem (.zpY 0x10))) = [] := by decide

/-- The decoder refuses by name what is no whole instruction (spec/30 R301). -/
theorem test_decode_truncated :
    decode [] = .error .empty ∧ decode [0xA9] = .error (.truncated 0xA9) ∧
    decode [0x6C, 0xFF] = .error (.truncated 0x6C) := ⟨rfl, rfl, rfl⟩

/-! ## Decoding: words written bit by bit from spec/30 R350, byte 0 last -/

theorem test_decode_loadStore :
    decodeTableWord 16 0b01000000_10100001 = some (.lda (.mem (.indX 0x40))) ∧
    decodeTableWord 16 0b01000000_10110110 = some (.ldx (.mem (.zpY 0x40))) ∧
    decodeTableWord 24 0b00010010_11111111_10111100 = some (.ldy (.mem (.absX 0x12FF))) ∧
    decodeTableWord 24 0b00010000_11111111_10011001 = some (.sta (.absY 0x10FF)) ∧
    decodeTableWord 24 0b00000010_00000001_10001110 = some (.stx (.abs 0x0201)) ∧
    decodeTableWord 16 0b11111111_10010100 = some (.sty (.zpX 0xFF)) := by decide

theorem test_decode_transferStack :
    decodeTableWord 8 0b10101010 = some .tax ∧ decodeTableWord 8 0b10101000 = some .tay ∧
    decodeTableWord 8 0b10001010 = some .txa ∧ decodeTableWord 8 0b10011000 = some .tya ∧
    decodeTableWord 8 0b10111010 = some .tsx ∧ decodeTableWord 8 0b10011010 = some .txs ∧
    decodeTableWord 8 0b01001000 = some .pha ∧ decodeTableWord 8 0b00001000 = some .php ∧
    decodeTableWord 8 0b01101000 = some .pla ∧ decodeTableWord 8 0b00101000 = some .plp := by decide

theorem test_decode_arithmetic :
    decodeTableWord 16 0b01010000_01101001 = some (.adc (.imm 0x50)) ∧
    decodeTableWord 24 0b00010010_00110100_11111101 = some (.sbc (.mem (.absX 0x1234))) ∧
    decodeTableWord 16 0b00000111_11010001 = some (.cmp (.mem (.indY 0x07))) ∧
    decodeTableWord 16 0b00100000_11100000 = some (.cpx (.imm 0x20)) ∧
    decodeTableWord 24 0b00010010_00110100_11001100 = some (.cpy (.mem (.abs 0x1234))) ∧
    decodeTableWord 24 0b00010000_11111111_11111110 = some (.inc (.absX 0x10FF)) ∧
    decodeTableWord 16 0b00010000_11010110 = some (.dec (.zpX 0x10)) ∧
    decodeTableWord 8 0b11101000 = some .inx ∧ decodeTableWord 8 0b11001000 = some .iny ∧
    decodeTableWord 8 0b11001010 = some .dex ∧ decodeTableWord 8 0b10001000 = some .dey := by decide

theorem test_decode_logicShift :
    decodeTableWord 16 0b00111100_00101001 = some (.and (.imm 0x3C)) ∧
    decodeTableWord 16 0b00000111_00000001 = some (.ora (.mem (.indX 0x07))) ∧
    decodeTableWord 24 0b00010010_00110100_01011001 = some (.eor (.mem (.absY 0x1234))) ∧
    decodeTableWord 24 0b00100000_00000010_00101100 = some (.bit (.abs 0x2002)) ∧
    decodeTableWord 8 0b00001010 = some (.asl .acc) ∧
    decodeTableWord 16 0b00100000_01000110 = some (.lsr (.mem (.zp 0x20))) ∧
    decodeTableWord 24 0b00010010_00110100_00111110 = some (.rol (.mem (.absX 0x1234))) ∧
    decodeTableWord 8 0b01101010 = some (.ror .acc) := by decide

theorem test_decode_control :
    decodeTableWord 24 0b00010010_00110100_01001100 = some (.jmp (.abs 0x1234)) ∧
    decodeTableWord 24 0b00000010_11111111_01101100 = some (.jmp (.ind 0x02FF)) ∧
    decodeTableWord 24 0b10010000_00000000_00100000 = some (.jsr 0x9000) ∧
    decodeTableWord 8 0b01100000 = some .rts ∧ decodeTableWord 8 0b01000000 = some .rti ∧
    decodeTableWord 8 0b00000000 = some .brk ∧
    decodeTableWord 16 0b00000010_10010000 = some (.bcc 0x02) ∧
    decodeTableWord 16 0b00000010_10110000 = some (.bcs 0x02) ∧
    decodeTableWord 16 0b11111100_11110000 = some (.beq 0xFC) ∧
    decodeTableWord 16 0b10000000_00110000 = some (.bmi 0x80) ∧
    decodeTableWord 16 0b11111011_11010000 = some (.bne 0xFB) ∧
    decodeTableWord 16 0b11111011_00010000 = some (.bpl 0xFB) ∧
    decodeTableWord 16 0b00000000_01010000 = some (.bvc 0x00) ∧
    decodeTableWord 16 0b00010000_01110000 = some (.bvs 0x10) := by decide

theorem test_decode_flagsNop :
    decodeTableWord 8 0b00011000 = some .clc ∧ decodeTableWord 8 0b00111000 = some .sec ∧
    decodeTableWord 8 0b01011000 = some .cli ∧ decodeTableWord 8 0b01111000 = some .sei ∧
    decodeTableWord 8 0b11011000 = some .cld ∧ decodeTableWord 8 0b11111000 = some .sed ∧
    decodeTableWord 8 0b10111000 = some .clv ∧ decodeTableWord 8 0b11101010 = some .nop := by decide

/-- Illegal bytes next to official ones (spec/30 R390). -/
theorem test_decode_illegal :
    decodeTableWord 8 0b00000010 = some (.illegal 0x02) ∧ decodeTableWord 8 0b10001001 = some (.illegal 0x89) ∧
    decodeTableWord 8 0b00011010 = some (.illegal 0x1A) ∧ decodeTableWord 8 0b11111111 = some (.illegal 0xFF) := by decide

/-! ## Loads and stores (spec/95, section 2.1) -/

/-- `A9 80`: A = 0x80, P = 0xA4, PC = 0x8002, cycles 2. -/
theorem test_lda_immediate :
    let t := after nes 16 0x80A9
    t.cpu.a = 0x80 ∧ t.cpu.p = 0xA4 ∧ t.cpu.pc = 0x8002 ∧ t.cpu.cycles = 1 := by decide

/-- `B1 FF`, Y = 0x10: the pointer's high byte wraps to 0x0000, the page is crossed, cycles 6. -/
theorem test_lda_indirectIndexed :
    let t := after (withRam (cpuWith 0 0 0x10 0xFD 0x24) [(0x000, 0x02), (0x0FF, 0xF0), (0x300, 0x77)]) 16 0xFFB1
    t.cpu.a = 0x77 ∧ t.cpu.cycles = 5 := by decide

/-- `B6 FF`, Y = 3: EA = 0x0002. -/
theorem test_ldx_zeropageY :
    let s := withRam (cpuWith 0 0 3 0xFD 0x24) [(0x002, 0x44)]
    (after s 16 0xFFB6).cpu.x = 0x44 ∧ (address (.zpY 0xFF) s).cpu.ea = 0x0002 := by decide

/-- After a step the registers and the counter are known; the latches took one draw, which no proof can see (R110). -/
theorem test_latches_dropped :
    let t := after nes 16 0x80A9
    t.cpu.latchDraws = 1 ∧ t.cpu.opcode = (Config.latchDraw 0).opcode ∧ t.cpu.m = (Config.latchDraw 0).m :=
  ⟨rfl, rfl, rfl⟩

/-- `BC FF 12`, X = 1, reads 0x1300 and costs 5 cycles (R403). -/
theorem test_ldy_crosses :
    let t := after (withRam (cpuWith 0 1 0 0xFD 0x24) [(0x300, 0x9A)]) 24 0x12FFBC
    t.cpu.y = 0x9A ∧ t.cpu.cycles = 4 := by decide

/-- `8D 00 08`, A = 0x11: mem[0x0000] = 0x11. -/
theorem test_sta_mirror : busValue (after (cpuWith 0x11 0 0 0xFD 0x24) 24 0x08008D) 0x0000 = 0x11 := by decide

/-- `9D FF 10`, X = 1: mem[0x1100] = A, cycles 5. -/
theorem test_sta_indexed :
    let t := after (cpuWith 0x42 1 0 0xFD 0x24) 24 0x10FF9D
    busValue t 0x1100 = 0x42 ∧ t.cpu.cycles = 4 := by decide

/-- X = 7, `86 10` writes 7 to 0x0010 (R405). -/
theorem test_stx_zeropage : busValue (after (cpuWith 0 7 0 0xFD 0x24) 16 0x1086) 0x0010 = 7 := by decide

/-- Y = 9, `94 FF` with X = 1 writes 9 to 0x0000 (R406). -/
theorem test_sty_wraps : busValue (after (cpuWith 0 1 9 0xFD 0x24) 16 0xFF94) 0x0000 = 9 := by decide

/-! ## Transfers and the stack (spec/95, section 2.2) -/

theorem test_tax_zero :
    let t := after (cpuWith 0 0x55 0 0xFD 0x24) 8 0xAA
    t.cpu.x = 0 ∧ t.cpu.p = 0x26 := by decide

theorem test_tay_negative :
    let t := after (cpuWith 0x80 0 0 0xFD 0x24) 8 0xA8
    t.cpu.y = 0x80 ∧ t.cpu.p = 0xA4 := by decide

theorem test_txa : (after (cpuWith 0 0xFE 0 0xFD 0x24) 8 0x8A).cpu.a = 0xFE := by decide

theorem test_tya_zero :
    let t := after (cpuWith 5 0 0 0xFD 0x24) 8 0x98
    t.cpu.a = 0 ∧ t.cpu.p = 0x26 := by decide

theorem test_tsx :
    let t := after nes 8 0xBA
    t.cpu.x = 0xFD ∧ t.cpu.p = 0xA4 := by decide

theorem test_txs_no_flag :
    let t := after (cpuWith 0 0 0 0xFD 0x24) 8 0x9A
    t.cpu.sp = 0 ∧ t.cpu.p = 0x24 := by decide

theorem test_pha_wraps :
    let t := after (cpuWith 1 0 0 0x00 0x24) 8 0x48
    busValue t 0x0100 = 1 ∧ t.cpu.sp = 0xFF ∧ t.cpu.cycles = 2 := by decide

theorem test_php_pushes_b :
    let t := after nes 8 0x08
    busValue t 0x01FD = 0x34 ∧ t.cpu.p = 0x24 ∧ t.cpu.sp = 0xFC := by decide

theorem test_pla_wraps :
    let t := after (withRam (cpuWith 7 0 0 0xFF 0x24) [(0x100, 0x00)]) 8 0x68
    t.cpu.sp = 0 ∧ t.cpu.a = 0 ∧ t.cpu.p = 0x26 := by decide

theorem test_plp :
    (after (withRam (cpuWith 0 0 0 0xFC 0x24) [(0x1FD, 0xFF)]) 8 0x28).cpu.p = 0xEF ∧
    (after (withRam (cpuWith 0 0 0 0xFC 0x24) [(0x1FD, 0x00)]) 8 0x28).cpu.p = 0x20 := by decide

/-! ## Arithmetic (spec/95, section 2.3) -/

/-- 0x50 + 0x50 overflows: P has N, V, U, I. -/
theorem test_adc_overflow :
    let t := after (cpuWith 0x50 0 0 0xFD 0x24) 16 0x5069
    t.cpu.a = 0xA0 ∧ t.cpu.p = 0xE4 := by decide

/-- D = 1 changes nothing (D1): 0x09 + 0x09 + 1 = 0x13. -/
theorem test_adc_ignores_decimal : (after (cpuWith 0x09 0 0 0xFD 0x2D) 16 0x0969).cpu.a = 0x13 := by decide

theorem test_sbc_overflow :
    let t := after (cpuWith 0x50 0 0 0xFD 0x25) 16 0xB0E9
    t.cpu.a = 0xA0 ∧ t.cpu.p = 0xE4 := by decide

theorem test_sbc_borrow :
    let t := after (cpuWith 0x05 0 0 0xFD 0x24) 16 0x05E9
    t.cpu.a = 0xFF ∧ t.cpu.p = 0xA4 := by decide

/-- A = 0x01, M = 0xFF: C = 0, Z = 0, N = 0; A unchanged. -/
theorem test_cmp_below :
    let t := after (cpuWith 0x01 0 0 0xFD 0x25) 16 0xFFC9
    t.cpu.p = 0x24 ∧ t.cpu.a = 0x01 := by decide

theorem test_cpx : (after (cpuWith 0 0x10 0 0xFD 0x24) 16 0x20E0).cpu.p = 0xA4 := by decide

theorem test_cpy_equal : (after (cpuWith 0 0 0xFF 0xFD 0x24) 16 0xFFC0).cpu.p = 0x27 := by decide

theorem test_inc_keeps_carry :
    let t := after (withRam (cpuWith 0 0 0 0xFD 0x25) [(0x010, 0xFF)]) 16 0x10E6
    busValue t 0x0010 = 0 ∧ t.cpu.p = 0x27 := by decide

theorem test_inc_indexed :
    let t := after (withRam (cpuWith 0 1 0 0xFD 0x24) [(0x100, 0x05)]) 24 0x10FFFE
    busValue t 0x1100 = 0x06 ∧ t.cpu.cycles = 6 := by decide

theorem test_dec_wraps :
    let t := after (withRam nes [(0x010, 0x00)]) 16 0x10C6
    busValue t 0x0010 = 0xFF ∧ t.cpu.p = 0xA4 := by decide

theorem test_inx_wraps :
    let t := after (cpuWith 0 0xFF 0 0xFD 0x24) 8 0xE8
    t.cpu.x = 0 ∧ t.cpu.p = 0x26 := by decide

theorem test_iny_sign :
    let t := after (cpuWith 0 0 0x7F 0xFD 0x24) 8 0xC8
    t.cpu.y = 0x80 ∧ t.cpu.p = 0xA4 := by decide

theorem test_dex_zero :
    let t := after (cpuWith 0 1 0 0xFD 0x24) 8 0xCA
    t.cpu.x = 0 ∧ t.cpu.p = 0x26 := by decide

theorem test_dey_wraps :
    let t := after (cpuWith 0 0 0 0xFD 0x24) 8 0x88
    t.cpu.y = 0xFF ∧ t.cpu.p = 0xA4 := by decide

/-! ## Logic and shifts (spec/95, section 2.4) -/

theorem test_and_zero :
    let t := after (cpuWith 0xF0 0 0 0xFD 0x24) 16 0x0F29
    t.cpu.a = 0 ∧ t.cpu.p = 0x26 := by decide

theorem test_ora :
    let t := after (cpuWith 0x0F 0 0 0xFD 0x24) 16 0x8009
    t.cpu.a = 0x8F ∧ t.cpu.p = 0xA4 := by decide

theorem test_eor_complement :
    let t := after (cpuWith 0x5A 0 0 0xFD 0x24) 16 0xFF49
    t.cpu.a = 0xA5 ∧ t.cpu.p = 0xA4 := by decide

/-- A = 0x01, M = 0xC0: Z, N and V set; A unchanged. -/
theorem test_bit :
    let t := after (withRam (cpuWith 1 0 0 0xFD 0x24) [(0x010, 0xC0)]) 16 0x1024
    t.cpu.p = 0xE6 ∧ t.cpu.a = 1 := by decide

theorem test_asl_acc :
    let t := after (cpuWith 0x80 0 0 0xFD 0x24) 8 0x0A
    t.cpu.a = 0 ∧ t.cpu.p = 0x27 := by decide

theorem test_asl_memory :
    let t := after (withRam (cpuWith 0 0 0 0xFD 0x25) [(0x010, 0x40)]) 16 0x1006
    busValue t 0x0010 = 0x80 ∧ t.cpu.p = 0xA4 ∧ t.cpu.cycles = 4 := by decide

theorem test_lsr_acc :
    let t := after (cpuWith 0xFF 0 0 0xFD 0xA4) 8 0x4A
    t.cpu.a = 0x7F ∧ t.cpu.p = 0x25 := by decide

/-- Memory 0x0020 = 0x03, `46 20` gives 0x01, C = 1 (R556). -/
theorem test_lsr_memory :
    let t := after (withRam nes [(0x020, 0x03)]) 16 0x2046
    busValue t 0x0020 = 0x01 ∧ t.cpu.p = 0x25 := by decide

theorem test_rol_acc :
    let t := after (cpuWith 0x40 0 0 0xFD 0x25) 8 0x2A
    t.cpu.a = 0x81 ∧ t.cpu.p = 0xA4 := by decide

theorem test_ror_acc :
    let t := after (cpuWith 0x01 0 0 0xFD 0x25) 8 0x6A
    t.cpu.a = 0x80 ∧ t.cpu.p = 0xA5 := by decide

/-! ## Control transfers (the examples of spec/44) -/

theorem test_jmp_absolute : (after nes 24 0x12344C).cpu.pc = 0x1234 := by decide

/-- Memory 0x02FF = 0x00, 0x0300 = 0x80, 0x0200 = 0x12: PC = 0x1200. -/
theorem test_jmp_indirect_page :
    (after (withRam nes [(0x200, 0x12), (0x2FF, 0x00), (0x300, 0x80)]) 24 0x02FF6C).cpu.pc = 0x1200 := by decide

theorem test_jsr :
    let t := after nes 24 0x900020
    busValue t 0x01FD = 0x80 ∧ busValue t 0x01FC = 0x02 ∧ t.cpu.sp = 0xFB ∧ t.cpu.pc = 0x9000 := by decide

theorem test_rts :
    let t := after (withRam (cpuWith 0 0 0 0xFB 0x24) [(0x1FC, 0x02), (0x1FD, 0x80)]) 8 0x60
    t.cpu.pc = 0x8003 ∧ t.cpu.sp = 0xFD := by decide

theorem test_rti :
    let t := after (withRam (cpuWith 0 0 0 0xFA 0x24) [(0x1FB, 0xA1), (0x1FC, 0x34), (0x1FD, 0x12)]) 8 0x40
    t.cpu.p = 0xA1 ∧ t.cpu.pc = 0x1234 ∧ t.cpu.sp = 0xFD := by decide

/-- P = 0x20, the vector 0x9000 in the cartridge (R605). -/
theorem test_brk :
    let s := cpuWith 0 0 0 0xFD 0x20
    let t := after { s with cart := cartWithPrgByte (cartWithPrgByte s.cart 0xFFFE 0x00) 0xFFFF 0x90 } 8 0x00
    busValue t 0x01FD = 0x80 ∧ busValue t 0x01FC = 0x02 ∧ busValue t 0x01FB = 0x30 ∧ t.cpu.sp = 0xFA ∧ t.cpu.p = 0x24 ∧
    t.cpu.pc = 0x9000 ∧ t.cpu.cycles = 6 := by decide

theorem test_bcc_taken :
    let t := after (cpuWith 0 0 0 0xFD 0x24) 16 0x0290
    t.cpu.pc = 0x8004 ∧ t.cpu.cycles = 2 := by decide

theorem test_bcs_not_taken :
    let t := after (cpuWith 0 0 0 0xFD 0x24) 16 0x02B0
    t.cpu.pc = 0x8002 ∧ t.cpu.cycles = 1 := by decide

/-- PC = 0x80F0 holding F0 20: PC = 0x8112, 4 cycles (R613). -/
theorem test_beq_other_page :
    let t := after ((cpuWith 0 0 0 0xFD 0x26).setPc 0x80F0) 16 0x20F0
    t.cpu.pc = 0x8112 ∧ t.cpu.cycles = 3 := by decide

theorem test_bmi_backward :
    let t := after (cpuWith 0 0 0 0xFD 0xA4) 16 0x8030
    t.cpu.pc = 0x7F82 ∧ t.cpu.cycles = 3 := by decide

theorem test_bne_backward : (after (nes.setPc 0x8010) 16 0xFCD0).cpu.pc = 0x800E := by decide

theorem test_bpl_backward : (after (nes.setPc 0x8005) 16 0xFB10).cpu.pc = 0x8002 := by decide

theorem test_bvc_offset_zero :
    let t := after nes 16 0x0050
    t.cpu.pc = 0x8002 ∧ t.cpu.cycles = 2 := by decide

theorem test_bvs_not_taken : (after nes 16 0x1070).cpu.pc = 0x8002 := by decide

/-! ## Flags and no-ops (the examples of spec/45) -/

theorem test_flag_instructions :
    (after (cpuWith 0 0 0 0xFD 0x25) 8 0x18).cpu.p = 0x24 ∧ (after (cpuWith 0 0 0 0xFD 0x24) 8 0x38).cpu.p = 0x25 ∧
    (after (cpuWith 0 0 0 0xFD 0x24) 8 0x58).cpu.p = 0x20 ∧ (after (cpuWith 0 0 0 0xFD 0x20) 8 0x78).cpu.p = 0x24 ∧
    (after (cpuWith 0 0 0 0xFD 0x2C) 8 0xD8).cpu.p = 0x24 ∧ (after (cpuWith 0 0 0 0xFD 0x24) 8 0xF8).cpu.p = 0x2C ∧
    (after (cpuWith 0 0 0 0xFD 0x64) 8 0xB8).cpu.p = 0x24 := by decide

theorem test_nop :
    let t := after (cpuWith 1 2 3 4 0x24) 8 0xEA
    t.cpu.a = 1 ∧ t.cpu.p = 0x24 ∧ t.cpu.pc = 0x8001 ∧ t.cpu.cycles = 1 := by decide

/-- 0x02, which halts an NMOS 6502, is one byte, two cycles, and changes nothing (R390). -/
theorem test_illegal :
    let t := after (cpuWith 1 2 3 4 0x24) 8 0x02
    t.cpu.a = 1 ∧ t.cpu.p = 0x24 ∧ t.cpu.pc = 0x8001 ∧ t.cpu.cycles = 1 := by decide

/-! ## Reset, interrupts, DMA, ports -/

/-- `nes` with a vector in the cartridge. -/
def withVector (addr : Nat) (lo hi : Byte) : State :=
  { nes with cart := cartWithPrgByte (cartWithPrgByte nes.cart addr lo) (addr + 1) hi }

/-- 0xFFFC = 0x34, 0xFFFD = 0x12: PC = 0x1234 (spec/95, section 1.1). -/
theorem test_reset_vector :
    let t := systemReset (withVector 0xFFFC 0x34 0x12)
    t.cpu.pc = 0x1234 ∧ t.cpu.sp = 0xFD ∧ t.cpu.p = 0x24 ∧ t.cpu.cycles = 7 := by decide

/-- With no cartridge the reset vector reads 0x0000 (R1103): a reset leaves the CPU as `Cpu.reset` says. -/
theorem test_reset_no_cartridge : (systemReset State.reset).cpu = Cpu.reset Params.default := by decide

/-- The example of R722: the NMI service. -/
theorem test_nmi_service :
    let s := withVector 0xFFFA 0x00 0xC0
    let t := endTick { s with nmiPending := true, cpu := { s.cpu with pc := 0x8123, p := 0x21 } }
    busValue t 0x01FD = 0x81 ∧ busValue t 0x01FC = 0x23 ∧ busValue t 0x01FB = 0x21 ∧ t.cpu.sp = 0xFA ∧ t.cpu.p = 0x25 ∧
    t.cpu.pc = 0xC000 ∧ t.cpu.cycles = 7 ∧ t.nmiPending = false := by decide

/-- I masks IRQ and not NMI (R710, R715). -/
theorem test_irq_masked :
    (endTick { nes with irqLine := true }).cpu = nes.cpu ∧
    (endTick { nes with irqLine := true, cpu := { nes.cpu with p := 0x20 } }).cpu.cycles = 7 := by decide

/-- `host_state[0] = 0x81`; strobe 1, then 0; ten reads (spec/95, section 2.10). -/
theorem test_controller :
    portReads 10 (portsWrite 0 (portsWrite 1 { Ports.reset with host0 := 0x81 })) =
      [1, 0, 0, 0, 0, 0, 0, 1, 0, 0] := by decide

/-- A write to 0x4014 starts DMA; one during a transfer has no effect (R1025). -/
theorem test_dma_trigger :
    let t := busWrite nes 0x4014 0x02
    t.dma.active = true ∧ t.dma.page = 0x02 ∧ busWrite t 0x4014 0x03 = t := by decide

/-! ## PPU, APU and mappers (spec/95, sections 1 and 2) -/

/-- The PPUSCROLL sequence of section 1.5. -/
theorem test_ppuscroll :
    let s := busWrite (busWrite nes 0x2005 0x05) 0x2005 0x53
    s.ppu.t = 0x3140 ∧ s.ppu.fineX = 5 ∧ s.ppu.w = false ∧ s.ppu.v = 0 := by decide

theorem test_ppuaddr : (busWrite (busWrite nes 0x2006 0xFF) 0x2006 0x00).ppu.v = 0x3F00 := by decide

theorem test_incY :
    coarseYNext 0x0000 = 0x1000 ∧ coarseYNext 0x73A0 = 0x0800 ∧ coarseYNext 0x73C0 = 0x03E0 ∧
    coarseYNext 0x73E0 = 0x0000 := by decide

theorem test_incX : coarseXNext 0x001F = 0x0400 ∧ coarseXNext 0x041F = 0x0000 := by decide

theorem test_attribute_address : attrAddr 0x0063 = 0x23C0 ∧ attrAddr 0x0FBF = 0x2FFF := by decide

/-- Tile 0x12, flipped, 8 by 8, table 1, row 2: address 0x1125. -/
theorem test_sprite_address :
    spriteAddr { Ppu.reset with scanline := 12, ctrl := 0x08 } { SpriteSlot.none with y := 10, tile := 0x12, attr := 0x80 } =
      0x1125 := by decide

theorem test_mux :
    muxPixel (0, 0) ⟨2, 5, true, false⟩ = (2, 5) ∧ muxPixel (1, 0) ⟨0, 0, false, false⟩ = (1, 0) ∧
    muxPixel (3, 2) ⟨1, 4, false, false⟩ = (3, 2) ∧ muxPixel (3, 2) ⟨1, 4, true, false⟩ = (1, 4) := by decide

/-- 0x4015 <- 0x01; 0x4003 <- 0x08: pulse 1's length is 254; then 0x4015 <- 0x00 clears it. -/
theorem test_apu_length :
    let s := busWrite (busWrite nes 0x4015 0x01) 0x4003 0x08
    s.apu.pulse1.length = 254 ∧ (busRead (busWrite s 0x4015 0x00) 0x4015).1 = 0 := by decide

/-- Shifts of the noise register from section 2.9's two sequences (R951). -/
theorem test_noise_register :
    lfsrNext false 0x0001 = 0x4000 ∧ lfsrNext false 0x0002 = 0x4001 ∧ lfsrNext true 0x0040 = 0x4020 ∧
    lfsrNext true 0x0201 = 0x4100 := by decide

/-- The sweep of pulse 1 and of pulse 2 from period 0x100, enabled, negate, shift 1 (R933). -/
theorem test_sweep :
    let p := { Pulse.reset with period := 0x100, swEnable := true, swNegate := true, swShift := 1 }
    (sweepClock true p).period = 0x07F ∧ (sweepClock false p).period = 0x080 := by decide

/-- The 4-step sequence ends at 14914 with the frame flag, the 5-step sequence at 18640 without it (R920). -/
theorem test_frame_sequencer :
    let f (fc : Nat) (mode : Bool) := frameStep .one { Apu.reset with fc := fc, fcMode := mode }
    (f 14913 false).frameIrq = true ∧ (f 14913 false).fc = 0 ∧ (f 14913 true).fc = 14914 ∧ (f 18639 true).fc = 0 ∧
    (f 18639 true).frameIrq = false := by decide

/-- With `APU_FRAME_DIV = 2` the sequencer counts once every two clocks (R920, D38). -/
theorem test_frame_sequencer_divided :
    let s : Apu := { Apu.reset with fc := 14913 }
    (apuClock .two s).fc = 14913 ∧ (apuClock .two s).fcPhase = 1 ∧ (apuClock .two s).frameIrq = false ∧
    (apuClock .two (apuClock .two s)).fc = 0 ∧ (apuClock .two (apuClock .two s)).fcPhase = 0 ∧
    (apuClock .two (apuClock .two s)).frameIrq = true := by decide

/-- Another table, another reset length and `APU_FRAME_DIV = 2` in whole steps: `02` costs 5 cycles and `1A` 2 (R390,
D5), a reset loads 3 (R1100, D9), and the step's APU clock is half a count (R920, D38). -/
theorem test_parameters :
    let q : Params := ⟨[(0x02, 5)], 3, .two⟩
    let t := after { nes with params := q } 8 0x02
    t.cpu.cycles = 4 ∧ t.apu.fc = 0 ∧ t.apu.fcPhase = 1 ∧ (after { nes with params := q } 8 0x1A).cpu.cycles = 1 ∧
    (State.powerOn q).cpu.cycles = 3 ∧ (systemReset { nes with params := q }).cpu.cycles = 3 := by decide

/-- Mapper 1, 8 banks, mode 3, prg = 2 and prg = 0x0F (section 2.10). -/
def mapper1 : Mapper1 where
  prgBanks := 8
  prg := []
  chrBanks := 0
  chr := []
  prgRam := []
  sr := 0
  srCount := 0
  control := 0x0C
  chr0 := 0
  chr1 := 0
  prgBank := 2

theorem test_mapper1_banks :
    mapper1Prg mapper1 0x8000 = 0x08000 ∧ mapper1Prg mapper1 0xC000 = 0x1C000 ∧
    mapper1Prg { mapper1 with control := 0x08 } 0xC000 = 0x08000 ∧
    mapper1Prg { mapper1 with prgBank := 0x0F } 0x8000 = 0x1C000 := by decide

/-- The writes 0x01, 0x01, 0x00, 0x00, 0x00 commit 0x03 to `control` (section 1.9). -/
theorem test_mapper1_serial :
    let w := fun m d => mapper1Serial m 0x8000 d
    let m4 := w (w (w (w mapper1 0x01) 0x01) 0x00) 0x00
    m4.sr = 0x06 ∧ m4.control = 0x0C ∧ (w m4 0x00).control = 0x03 ∧ (w m4 0x00).srCount = 0 := by decide

/-! ## Witnesses for the hypotheses of the obligations -/

/-- DecodeUndoesEncode: well-formed instructions with operands at their boundaries. -/
theorem witness_decodeUndoesEncode :
    (Instr.lda (.mem (.absX 0xFFFF))).wf = true ∧ (Instr.asl .acc).wf = true ∧ (Instr.illegal 0xFF).wf = true ∧
    (Instr.bne 0x80).wf = true ∧ (Instr.jmp (.ind 0x00FF)).wf = true := by decide

/-- EncodeUndoesDecode: bytes of each length that decode. -/
theorem witness_encodeUndoesDecode :
    decode [0x02, 0xFF] = .ok (.illegal 0x02, [0xFF]) ∧ decode [0xA9, 0x80] = .ok (.lda (.imm 0x80), []) ∧
    decode [0x6C, 0xFF, 0x02] = .ok (.jmp (.ind 0x02FF), []) := ⟨rfl, rfl, rfl⟩

/-- CycleCountCombinesTheHints, with and without the hint of the mnemonic. -/
theorem witness_cycleCount :
    (Instr.lda (.mem (.absX 0x10FF))).wf = true ∧ (Instr.lda (.mem (.absX 0x10FF))).opcode = some 0xBD ∧
    (Instr.sta (.absX 0x10FF)).wf = true ∧ (Instr.sta (.absX 0x10FF)).opcode = some 0x9D := by decide

/-- A state that holds `LDA #$80` in the last three bytes of the RAM mirrors. -/
def inRam : State := withRam { nes with cpu := { nes.cpu with pc := 0x1FFD } } [(0x7FD, 0xA9), (0x7FE, 0x80), (0x7FF, 0xEA)]

/-- StepRunsDecodedInstruction, in CPU RAM at the end of its range. -/
theorem witness_stepRuns_ram :
    inRam.masterTick % 3 = 0 ∧ inRam.dma.active = false ∧ inRam.cpu.cycles = 0 ∧
    (∀ k : Fin 3, (inRam.cpu.pc + BitVec.ofNat 16 k).toNat ≤ 0x1FFF) ∧
    decode [busValue inRam inRam.cpu.pc, busValue inRam (inRam.cpu.pc + 1), busValue inRam (inRam.cpu.pc + 2)] =
      .ok (.lda (.imm 0x80), [0xEA]) ∧
    (next? (exec (.lda (.imm 0x80)) { ppuTick inRam with
      cpu := { inRam.cpu with pc := inRam.cpu.pc + 2, opcode := 0xA9 } })).isSome = true :=
  ⟨by decide, by decide, by decide, by decide, rfl, by decide⟩

/-- `nes` with the pc at 0x4018, the first address above the devices, which reads 0x00. -/
def aboveDevices : State := { nes with cpu := { nes.cpu with pc := 0x4018 } }

/-- StepRunsDecodedInstruction, at the lowest address above the devices: three unclaimed bytes, BRK. -/
theorem witness_stepRuns_above :
    (∀ k : Fin 3, 0x4018 ≤ (aboveDevices.cpu.pc + BitVec.ofNat 16 k).toNat) ∧
    decode [busValue aboveDevices 0x4018, busValue aboveDevices 0x4019, busValue aboveDevices 0x401A] =
      .ok (.brk, [0x00, 0x00]) ∧
    (next? (exec .brk { ppuTick aboveDevices with cpu := { aboveDevices.cpu with pc := 0x4019 } })).isSome = true :=
  ⟨by decide, rfl, by decide⟩

/-- StepKeepsMachineInvariant, StepNeverWritesProgramRom, StepCountsTicksAndKeepsInputs: states with the invariant
that step, one of them running an instruction. -/
theorem witness_step :
    State.reset.Inv = true ∧ (next? (step State.reset)).isSome = true ∧ inRam.Inv = true ∧
    (next? (step inRam)).isSome = true := by decide

/-- ResetMeetsMachineInvariant: parameters at the ends of their ranges. -/
theorem witness_reset :
    paramsOk Params.default = true ∧ paramsOk ⟨[(0x02, 0), (0xFF, 8)], 8, .two⟩ = true ∧
    paramsOk ⟨[(0x02, 9)], 7, .one⟩ = false := by decide

/-- RamMirrorsReadBack at both ends of the range: the byte through a mirror, and another cell. -/
theorem witness_ramMirrors :
    (0x0000#16).toNat ≤ 0x1FFF ∧ (0x1FFF#16).toNat ≤ 0x1FFF ∧ busValue (busWrite nes 0x1FFF 0x5A) 0x07FF = 0x5A ∧
    busValue (busWrite (withRam nes [(0x7FE, 0x11)]) 0x1FFF 0x5A) 0x07FE = 0x11 := by decide

/-- PpuRegistersMirrorEveryEightBytes at both ends of the range. -/
theorem witness_ppuMirrors :
    0x2000 ≤ (0x2000#16).toNat ∧ (0x2000#16).toNat ≤ 0x3FFF ∧ 0x2000 ≤ (0x3FF8#16).toNat ∧ (0x3FF8#16).toNat ≤ 0x3FFF ∧
    (0x2000#16).toNat % 8 = (0x3FF8#16).toNat % 8 ∧ (0x2007#16).toNat % 8 = (0x3FFF#16).toNat % 8 := by decide

/-- UnclaimedAccessesDoNothing: the ends of the unclaimed ranges with mapper 0, and a write to its ROM. -/
theorem witness_unclaimed :
    claimsRead nes 0x4000 = false ∧ claimsRead nes 0x4014 = false ∧ claimsRead nes 0x4018 = false ∧
    claimsRead nes 0x7FFF = false ∧ claimsWrite nes 0x4018 0x55 = false ∧ claimsWrite nes 0x7FFF 0x55 = false ∧
    claimsWrite nes 0x8000 0x55 = true ∧ busWrite nes 0xFFFF 0x55 = nes := by decide

/-- OtherReadsHaveNoSideEffect: the neighbours of the registers that are left out. -/
theorem witness_otherReads :
    ∀ a ∈ [0x0000#16, 0x1FFF#16, 0x2000#16, 0x2001#16, 0x2003#16, 0x2006#16, 0x3FFE#16, 0x4000#16, 0x4014#16, 0x4018#16,
      0xFFFF#16],
      ¬ (0x2000 ≤ a.toNat ∧ a.toNat ≤ 0x3FFF ∧ (a.toNat % 8 = 2 ∨ a.toNat % 8 = 7)) ∧ a.toNat ≠ 0x4015 ∧
      a.toNat ≠ 0x4016 ∧ a.toNat ≠ 0x4017 := by simp

/-- TransfersCopyRegisters: a triple of each member. -/
theorem witness_transfers :
    let s := cpuWith 1 2 3 4 0x24
    ∀ q ∈ [(Instr.tax, s.cpu.a, { s.cpu with x := 1 }), (.tay, s.cpu.a, { s.cpu with y := 1 }),
        (.txa, s.cpu.x, { s.cpu with a := 2 }), (.tya, s.cpu.y, { s.cpu with a := 3 }),
        (.tsx, s.cpu.sp, { s.cpu with x := 4 })],
      q ∈ [(Instr.tax, s.cpu.a, { s.cpu with x := s.cpu.a }), (.tay, s.cpu.a, { s.cpu with y := s.cpu.a }),
        (.txa, s.cpu.x, { s.cpu with a := s.cpu.x }), (.tya, s.cpu.y, { s.cpu with a := s.cpu.y }),
        (.tsx, s.cpu.sp, { s.cpu with x := s.cpu.sp })] := by decide

/-- OverflowIsSignedOverflow: both instructions answer a next state, at the operands that reach the limits. -/
theorem witness_overflow :
    let s := cpuWith 0x80 0 0 0xFD 0x24
    (next? (exec (.adc (.imm 0x80)) s)).isSome = true ∧ (next? (exec (.sbc (.imm 0x80)) s)).isSome = true := by decide

/-- ComparesWriteOnlyFlags. -/
theorem witness_compares :
    ∀ q ∈ [(Instr.cmp (.imm 0x40), (1 : Byte)), (.cpx (.imm 0x40), 2), (.cpy (.imm 0x40), 3)],
      q ∈ [(Instr.cmp (.imm 0x40), (cpuWith 1 2 3 4 0x24).cpu.a), (.cpx (.imm 0x40), (cpuWith 1 2 3 4 0x24).cpu.x),
        (.cpy (.imm 0x40), (cpuWith 1 2 3 4 0x24).cpu.y)] := by decide

/-- IncDecModifyMemory, at the two bytes that wrap. -/
theorem witness_incDecMemory :
    let u := readMemory (.zp 0x10) (withRam nes [(0x010, 0xFF)])
    (Instr.inc (.zp 0x10), (0x00 : Byte)) ∈
      [(Instr.inc (.zp 0x10), BitVec.ofNat 8 (u.cpu.m.toNat + 1)), (.dec (.zp 0x10), BitVec.ofNat 8 (u.cpu.m.toNat + 255))] ∧
    (Instr.dec (.zp 0x10), (0xFE : Byte)) ∈
      [(Instr.inc (.zp 0x10), BitVec.ofNat 8 (u.cpu.m.toNat + 1)), (.dec (.zp 0x10), BitVec.ofNat 8 (u.cpu.m.toNat + 255))] :=
  by decide

/-- IncDecIndexRegisters: a triple of each member, X at 0xFF and Y at 0x00. -/
theorem witness_incDecIndex :
    let s := cpuWith 0 0xFF 0 0xFD 0x24
    ∀ q ∈ [(Instr.inx, (0x00 : Byte), { s.cpu with x := 0x00 }), (.iny, 0x01, { s.cpu with y := 0x01 }),
        (.dex, 0xFE, { s.cpu with x := 0xFE }), (.dey, 0xFF, { s.cpu with y := 0xFF })],
      q ∈ [(Instr.inx, BitVec.ofNat 8 (s.cpu.x.toNat + 1), { s.cpu with x := BitVec.ofNat 8 (s.cpu.x.toNat + 1) }),
        (.iny, BitVec.ofNat 8 (s.cpu.y.toNat + 1), { s.cpu with y := BitVec.ofNat 8 (s.cpu.y.toNat + 1) }),
        (.dex, BitVec.ofNat 8 (s.cpu.x.toNat + 255), { s.cpu with x := BitVec.ofNat 8 (s.cpu.x.toNat + 255) }),
        (.dey, BitVec.ofNat 8 (s.cpu.y.toNat + 255), { s.cpu with y := BitVec.ofNat 8 (s.cpu.y.toNat + 255) })] := by
  decide

/-- ArithmeticIdentities: after ADC #$FF, with either carry, the state with the carry set to either value has the A and
the operand that the hypotheses ask for, SBC's operand standing in memory; CMP, SEC and SBC answer a next state. -/
theorem witness_arithmeticIdentities :
    ∀ p ∈ [(0x24 : Byte), 0x25],
      let s := withRam (cpuWith 0x40 0 0 0xFD p) [(0x010, 0xFF)]
      let t := stateOf s (exec (.adc (.imm 0xFF)) s)
      let u := stateOf s (exec .sec s)
      (∀ c ∈ [true, false],
        let u := t.setP (setFlag .c c t.cpu.p)
        u.cpu.a = t.cpu.a ∧ getFlag .c u.cpu.p = c ∧
        (readOperand (.mem (.zp 0x10)) u).cpu.m = (readOperand (.imm 0xFF) s).cpu.m) ∧
      (next? (exec (.cmp (.imm 0x40)) s)).isSome = true ∧ (next? (exec .sec s)).isSome = true ∧
      (next? (exec (.sbc (.imm 0x40)) u)).isSome = true := by decide

/-- LogicCombinesBitByBit: the three alternatives. -/
theorem witness_logic (o : Src) :
    (∃ i f, i = Instr.and o ∧ f = Bool.and) ∧ (∃ i f, i = Instr.ora o ∧ f = Bool.or) ∧
    ∃ i f, i = Instr.eor o ∧ f = Bool.xor :=
  ⟨⟨_, _, rfl, rfl⟩, ⟨_, _, rfl, rfl⟩, ⟨_, _, rfl, rfl⟩⟩

/-- ShiftsMoveAccumulator and ShiftsModifyMemory: a triple of each member, the carry set. -/
theorem witness_shifts :
    let s := cpuWith 0 0 0 0xFD 0x25
    (∀ q ∈ [(Instr.asl .acc, true, false), (.lsr .acc, false, false), (.rol .acc, true, true), (.ror .acc, false, true)],
      q ∈ [(Instr.asl .acc, true, false), (.lsr .acc, false, false), (.rol .acc, true, getFlag .c s.cpu.p),
        (.ror .acc, false, getFlag .c s.cpu.p)]) ∧
    ∀ q ∈ [(Instr.rol (.mem (.zp 0x10)), true, true), (.ror (.mem (.zp 0x10)), false, true)],
      q ∈ [(Instr.asl (.mem (.zp 0x10)), true, false), (.lsr (.mem (.zp 0x10)), false, false),
        (.rol (.mem (.zp 0x10)), true, getFlag .c s.cpu.p), (.ror (.mem (.zp 0x10)), false, getFlag .c s.cpu.p)] := by
  decide

/-- RtsReturnsFromJsr, the stack wrapping: SP = 0x00. -/
theorem witness_rtsReturns :
    let s := cpuWith 0 0 0 0x00 0x24
    (next? (exec (.jsr 0x9000) s)).isSome = true ∧
    (next? (exec .rts (stateOf s (exec (.jsr 0x9000) s)))).isSome = true := by decide

/-- BranchesCommitWhenTaken: a triple of each member. -/
theorem witness_branches :
    ∀ q ∈ [(Instr.bcc 0x80, Flag.c, false), (.bvs 0x80, .v, true)],
      q ∈ [(Instr.bcc 0x80, Flag.c, false), (.bcs 0x80, .c, true), (.beq 0x80, .z, true), (.bmi 0x80, .n, true),
        (.bne 0x80, .z, false), (.bpl 0x80, .n, false), (.bvc 0x80, .v, false), (.bvs 0x80, .v, true)] := by decide

/-- FlagInstructionsWriteOneFlag. -/
theorem witness_flags :
    ∀ q ∈ [(Instr.clc, Flag.c, false), (.clv, .v, false)],
      q ∈ [(Instr.clc, Flag.c, false), (.sec, .c, true), (.cli, .i, false), (.sei, .i, true), (.cld, .d, false),
        (.sed, .d, true), (.clv, .v, false)] := by decide

/-- InterruptEntryFrame and RtiUndoesInterruptEntry, for both vectors, the stack wrapping. -/
theorem witness_interruptEntry :
    let s := cpuWith 0 0 0 0x01 0x24
    statusOk s.cpu.p = true ∧ (nmiVector = nmiVector ∨ nmiVector = irqVector) ∧
    (irqVector = nmiVector ∨ irqVector = irqVector) ∧
    (next? (exec .rti (enterInterrupt nmiVector s))).isSome = true ∧
    (next? (exec .rti (enterInterrupt irqVector s))).isSome = true := by decide

/-- A state at the dot that raises the NMI, between instructions. -/
def atVblank : State :=
  { nes with ppu := { Ppu.reset with scanline := 241, dot := 1, ctrl := 0x80 }, masterTick := 1, cpu := { nes.cpu with cycles := 2 } }

/-- NmiLatchSetOnlyAtVblank: the latch raised and kept while the CPU is inside an instruction, and a latch that was
set serviced between instructions. -/
theorem witness_nmiLatch :
    (stateOf atVblank (step atVblank)).nmiPending = true ∧ (next? (step atVblank)).isSome = true ∧
    (stateOf nes (step { nes with nmiPending := true, masterTick := 1 })).cpu.cycles = 7 := by decide

/-- `nes` in a DMA transfer from a page, past the dummy cycle. -/
def inDma (page : Byte) : State := { nes with dma := { active := true, dummy := false, page := page, addr := 0, data := 0 } }

/-- DmaSuspendsCpu: a step inside a transfer, and its last step, which ends it. -/
theorem witness_dmaSuspends :
    (inDma 0x02).dma.active = true ∧ (stateOf nes (step (inDma 0x02))).dma.active = true ∧
    (stateOf nes (step { inDma 0x02 with cpuCycle := 1, dma := { (inDma 0x02).dma with addr := 0xFF } })).dma.active =
      false := by decide

/-- DmaCopiesPageInOrder, for the pages at the ends of both ranges. -/
theorem witness_dmaCopies :
    ∀ page ∈ [0x00#8, 0x1F#8, 0x41#8, 0xFF#8],
      (inDma page).dma.active = true ∧ (inDma page).dma.dummy = false ∧ (inDma page).dma.addr = 0 ∧
      (inDma page).cpuCycle % 2 = 0 ∧ ((inDma page).dma.page.toNat < 0x20 ∨ 0x40 < (inDma page).dma.page.toNat) := by decide

/-- DmaTakes513Or514Cycles. -/
theorem witness_dmaTakes : nes.dma.active = false ∧ { nes with cpuCycle := 9 }.dma.active = false := by decide

/-- RasterAdvancesOneDotPerStep: zero and two steps answer a next state. -/
theorem witness_raster :
    rasterOk nes.ppu = true ∧ Host.Core.run Sys2Proof.core 0 nes = .next nes ∧
    (next? (Host.Core.run Sys2Proof.core 2 inRam)).isSome = true := ⟨by decide, rfl, by decide⟩

/-- PpuStatusReadClearsVblankAndToggle, at both ends of the mirrors; the read of spec/95, section 2.8. -/
theorem witness_ppuStatus :
    0x2000 ≤ (0x2002#16).toNat ∧ (0x3FFA#16).toNat ≤ 0x3FFF ∧ (0x3FFA#16).toNat % 8 = 2 ∧
    busValue { nes with ppu := { Ppu.reset with status := 0xC0, readBuffer := 0x1F } } 0x3FFA = 0xDF := by decide

/-- ScrollAndAddressWritePairs. -/
theorem witness_toggle : Ppu.reset.w = false := by decide

/-- PpuDataReadsOneBehind, at the ends of the nametables and in the mirror of v's bit 14. -/
theorem witness_ppuData :
    ∀ v ∈ [0x2000#15, 0x3EFF#15, 0x6000#15], 0x2000 ≤ v.toNat % 0x4000 ∧ v.toNat % 0x4000 ≤ 0x3EFF := by simp

/-- PaletteWritesMirror, at the ends of the range: the same cell, a mirror, and another cell. -/
theorem witness_palette :
    0x3F00 ≤ 0x3F00 ∧ 0x3FFF ≤ 0x3FFF ∧ palRead (palWrite Ppu.reset 0x3F10 0x2A) 0x3F00 = 0x2A ∧
    palRead (palWrite Ppu.reset 0x3FFF 0xFF) 0x3F1F = 0x3F ∧
    palRead (palWrite (palWrite Ppu.reset 0x3F01 0x05) 0x3F11 0x2A) 0x3F01 = 0x05 := by decide

/-- PaletteWritesMirror, through PPUDATA: v at both ends of the palette. -/
theorem witness_palettePpuData : ∀ v ∈ [0x3F00#15, 0x3FFF#15, 0x7FFF#15], 0x3F00 ≤ v.toNat % 0x4000 := by simp

/-- A PPUDATA write of 0xEA at 0x3F10 is read at 0x3F00 at once, six bits wide (R819, R832). -/
theorem test_ppudata_palette :
    let w := (ppuCpuWrite nes.cart { Ppu.reset with v := 0x3F10 } 7 0xEA).2
    w.v = 0x3F11 ∧ (ppuCpuRead nes.cart { w with v := 0x3F00 } 7).1 = 0x2A := by decide

/-- ApuStatusReflectsLengths: a write that clears every channel, and one that clears none. -/
theorem witness_apuStatus : (0x00#8).getLsbD 3 = false ∧ (0x1E#8).getLsbD 0 = false := by decide

/-- ControllerShiftsOutButtons. -/
theorem witness_controller : (0x01#8).getLsbD 0 = true ∧ (0xFE#8).getLsbD 0 = false := by decide

/-- FiveSerialWritesCommit: an empty shift register, five bytes with bit 7 clear, and an address of each register at
an end of its window, with the register the fifth write stores 0x1F into. -/
theorem witness_serial :
    let w5 (a : Nat) := (List.replicate 5 0x7F#8).foldl (fun m d => mapper1Serial m a d) mapper1
    mapper1.srCount = 0 ∧ mapper1.sr = 0 ∧ (∀ k : Fin 5, ((fun _ => 0x7F#8 : Fin 5 → Byte) k).getLsbD 7 = false) ∧
    (w5 0x9FFF).control = 0x1F ∧ (w5 0xA000).chr0 = 0x1F ∧ (w5 0xDFFF).chr1 = 0x1F ∧ (w5 0xE000).prgBank = 0x1F := by
  decide

end Sys2Proof.Tests
end

section
/-! The CPU bus: RAM and the PPU's registers through their mirrors (spec/20 R203, R204). -/

namespace Sys2Proof.Machine

/-! ## CPU RAM -/

/-- At reset RAM lists no cell, so each holds its power-on draw (spec/70 R1101). -/
theorem ramAt_reset (k : Nat) : ramAt State.reset k = Config.powerOnMemory .cpuRam k := rfl

/-- What every address reads after a write to CPU RAM. -/
theorem busValue_busWrite_ram (s : State) {a : Word} (v : Byte) (ha : a.toNat ≤ 0x1FFF) (b : Word) :
    busValue (busWrite s a v) b =
      if b.toNat ≤ 0x1FFF ∧ b.toNat % 0x800 = a.toNat % 0x800 then v else busValue s b := by
  have hw : wrote s a v (busWrite s a v) := wrote_of ⟨s.cpu, rfl⟩ rfl
  obtain ⟨-, hread, -, -⟩ := hw
  exact hread ha b

/-- A write to CPU RAM changes no other part of the state. -/
theorem busWrite_ram_frame (s : State) {a : Word} (v : Byte) (ha : a.toNat ≤ 0x1FFF) :
    { busWrite s a v with ram := s.ram } = s := by
  rw [busWrite_ram s v ha]

/-- Settles O12: a RAM write lists one cell, which all mirrors of its address share (`busWrite_ram`,
`busRead_ram`), and a read above RAM does not see RAM (`busRead_ram_value`). -/
theorem ramMirrorsReadBack : Obligations.RamMirrorsReadBack :=
  ⟨ramAt_reset, fun s _ b v ha => ⟨busValue_busWrite_ram s v ha b, busWrite_ram_frame s v ha⟩⟩

/-! ## The PPU's registers -/

/-- A read in 0x2000 to 0x3FFF is a read of the PPU register that the low three bits select (R204). -/
theorem busRead_ppu (s : State) {a : Word} (hlo : 0x2000 ≤ a.toNat) (hhi : a.toNat ≤ 0x3FFF) :
    busRead s a =
      ((ppuCpuRead s.cart s.ppu (a.toNat % 8)).1, { s with ppu := (ppuCpuRead s.cart s.ppu (a.toNat % 8)).2 }) := by
  have hram : ¬ a.toNat ≤ 0x1FFF := by omega
  unfold busRead
  simp [cartCpuRead_low s.cart (show a.toNat < 0x6000 by omega), hram, hhi]

/-- A write in 0x2000 to 0x3FFF is a write of that register. -/
theorem busWrite_ppu (s : State) {a : Word} (v : Byte) (hlo : 0x2000 ≤ a.toNat) (hhi : a.toNat ≤ 0x3FFF) :
    busWrite s a v =
      { s with
        cart := (ppuCpuWrite s.cart s.ppu (a.toNat % 8) v).1
        ppu := (ppuCpuWrite s.cart s.ppu (a.toNat % 8) v).2 } := by
  have hram : ¬ a.toNat ≤ 0x1FFF := by omega
  unfold busWrite
  simp [cartCpuWrite_low s.cart v (show a.toNat < 0x6000 by omega), hram, hhi]

/-- Settles O13: an access in the range depends on the address only through its register number. -/
theorem ppuRegistersMirrorEveryEightBytes : Obligations.PpuRegistersMirrorEveryEightBytes := by
  intro s a b v halo hahi hblo hbhi hab
  constructor
  · rw [busRead_ppu s halo hahi, busRead_ppu s hblo hbhi, hab]
  · rw [busWrite_ppu s v halo hahi, busWrite_ppu s v hblo hbhi, hab]

end Sys2Proof.Machine
end

section
/-! Loads and stores (spec/40 R401 to R406): each is one operand fetch or one bus write, then an update of the CPU. -/

namespace Sys2Proof.Machine

/-! ## Loads -/

/-- The operand fetch sets latches only. -/
theorem readOperand_cpu_latched (o : Src) (s : State) :
    (readOperand o s).cpu = latched s.cpu (readOperand o s).cpu := by
  obtain ⟨ea, extra, m, h⟩ := readOperand_cpu o s
  rw [h]
  rfl

/-- How an instruction ends that has its operand fetched in `u` and leaves the registers and flags of `c`. -/
def finish (i : Instr) (u : State) (c : Cpu) : State := charge i 0 { u with cpu := latched c u.cpu }

/-- LDA ends with the operand in A and its N and Z in P (R401). -/
theorem exec_lda (o : Src) (s : State) :
    let u := readOperand o s
    exec (.lda o) s = .next (finish (.lda o) u { s.cpu with a := u.cpu.m, p := setNZ u.cpu.m s.cpu.p }) := by
  simp only [exec, execLda, State.setA, State.setP, finish]
  rw [readOperand_cpu_latched]
  rfl

/-- LDX ends with the operand in X and its N and Z in P (R402). -/
theorem exec_ldx (o : Src) (s : State) :
    let u := readOperand o s
    exec (.ldx o) s = .next (finish (.ldx o) u { s.cpu with x := u.cpu.m, p := setNZ u.cpu.m s.cpu.p }) := by
  simp only [exec, execLdx, State.setX, State.setP, finish]
  rw [readOperand_cpu_latched]
  rfl

/-- LDY ends with the operand in Y and its N and Z in P (R403). -/
theorem exec_ldy (o : Src) (s : State) :
    let u := readOperand o s
    exec (.ldy o) s = .next (finish (.ldy o) u { s.cpu with y := u.cpu.m, p := setNZ u.cpu.m s.cpu.p }) := by
  simp only [exec, execLdy, State.setY, State.setP, finish]
  rw [readOperand_cpu_latched]
  rfl

/-- An instruction that ends with the registers of `c` changes no memory and no other register. -/
theorem leaves_finish (i : Instr) (o : Src) (s : State) (c : Cpu) :
    leaves s (readOperand o s) c (finish i (readOperand o s) c) :=
  leaves_readOperand rfl rfl

/-- The count of an instruction of R341's list: the page-cross hint costs a cycle. -/
theorem finish_cycles {i : Instr} (hop : i.opExtra = true) (o : Src) (s : State) (c : Cpu) :
    (finish i (readOperand o s) c).cpu.cycles = i.baseCycles s.params + crossCycle (readOperand o s) := by
  simp [finish, latched, crossCycle, hop]

/-- What every load does: it sets its register, as `c` has it, and N and Z from the operand, and nothing else. -/
theorem load_claims {i : Instr} {o : Src} {s : State} (c : Cpu) (hop : i.opExtra = true)
    (hexec : exec i s = .next (finish i (readOperand o s) { c with p := setNZ (readOperand o s).cpu.m s.cpu.p })) :
    ∃ t, exec i s = .next t ∧ leaves s (readOperand o s) { c with p := t.cpu.p } t ∧
      nzFrom (readOperand o s).cpu.m t.cpu.p ∧ flagsKeptBut [.n, .z] s.cpu.p t.cpu.p ∧
      t.cpu.cycles = i.baseCycles s.params + crossCycle (readOperand o s) :=
  ⟨_, hexec, leaves_finish i o s _, nzFrom_setNZ _ _, flagsKeptBut_setNZ _ _, finish_cycles hop o s _⟩

/-- The forms of LDA (R401). -/
theorem lda_forms : aluForms .lda 0xA9 0xA5 0xB5 0xAD 0xBD 0xB9 0xA1 0xB1 := by
  intro b w
  refine ⟨?_, ?_, ?_, ?_, ?_, ?_, ?_, ?_⟩ <;> exact ⟨rfl, fun _ => rfl⟩

/-- Settles O18: LDA is the operand fetch, then A and NZ (`exec_lda`), and what a load does follows
(`load_claims`). -/
theorem ldaLoadsAccumulator : Obligations.LdaLoadsAccumulator :=
  ⟨lda_forms, fun o s => load_claims { s.cpu with a := (readOperand o s).cpu.m } rfl (exec_lda o s)⟩

/-- Settles O19: as for LDA, with X or Y in place of A (`exec_ldx`, `exec_ldy`, `load_claims`). -/
theorem ldxLdyLoadIndexRegisters : Obligations.LdxLdyLoadIndexRegisters := by
  refine ⟨fun b w => ?_, fun o s =>
    ⟨load_claims { s.cpu with x := (readOperand o s).cpu.m } rfl (exec_ldx o s),
      load_claims { s.cpu with y := (readOperand o s).cpu.m } rfl (exec_ldy o s)⟩⟩
  refine ⟨?_, ?_, ?_, ?_, ?_, ?_, ?_, ?_, ?_, ?_⟩ <;> exact ⟨rfl, fun _ => rfl⟩

/-! ## Stores -/

/-- STA writes the A that the state holds, since an addressing mode changes no register (R404). -/
theorem exec_sta (m : Mem) (s : State) :
    exec (.sta m) s = .next (charge (.sta m) 0 (busWrite (address m s) (address m s).cpu.ea s.cpu.a)) := by
  simp only [exec, execSta, address_eq, setEa_cpu_a]

/-- STX writes X (R405). -/
theorem exec_stx (m : Mem) (s : State) :
    exec (.stx m) s = .next (charge (.stx m) 0 (busWrite (address m s) (address m s).cpu.ea s.cpu.x)) := by
  simp only [exec, execStx, address_eq, setEa_cpu_x]

/-- STY writes Y (R406). -/
theorem exec_sty (m : Mem) (s : State) :
    exec (.sty m) s = .next (charge (.sty m) 0 (busWrite (address m s) (address m s).cpu.ea s.cpu.y)) := by
  simp only [exec, execSty, address_eq, setEa_cpu_y]

/-- What every store does: one write at EA, no register or flag changed, and a count that no hint adds to, since
stores are not in R341's list. -/
theorem store_claims {i : Instr} {m : Mem} {s : State} {v : Byte} (hop : i.opExtra = false)
    (hexec : exec i s = .next (charge i 0 (busWrite (address m s) (address m s).cpu.ea v))) :
    ∃ t, exec i s = .next t ∧ wrote s (address m s).cpu.ea v t ∧ t.cpu = latched s.cpu t.cpu ∧
      t.cpu.cycles = i.baseCycles s.params := by
  refine ⟨_, hexec, wrote_of ⟨(address m s).cpu, ?_⟩ rfl, ?_, ?_⟩
  · rw [address_eq]
    rfl
  · simp [charge, latched, address_eq, State.setEa]
  · simp [hop, address_eq]

/-- Settles O20: a store is its mode, then one bus write (`exec_sta`, `exec_stx`, `exec_sty`), and what a store does
follows (`store_claims`). -/
theorem storesWriteRegister : Obligations.StoresWriteRegister := by
  refine ⟨fun b w => ?_, fun m s =>
    ⟨store_claims rfl (exec_sta m s), store_claims rfl (exec_stx m s), store_claims rfl (exec_sty m s)⟩⟩
  refine ⟨?_, ?_, ?_, ?_, ?_, ?_, ?_, ?_, ?_, ?_, ?_, ?_, ?_⟩ <;> exact ⟨rfl, fun _ => rfl⟩

end Sys2Proof.Machine
end

section
/-! Transfers and the stack instructions (spec/41 R451 to R460): each works in implied mode, whose latches are all that
it leaves beside the registers, and each but the pushes leaves every memory as it was. -/

namespace Sys2Proof.Machine

/-! ## Instructions in implied mode -/

/-- An instruction in implied mode that ends with the registers of `c` changes nothing but the CPU. -/
theorem leaves_finish_implied (i : Instr) (s : State) (c : Cpu) : leaves s s c (finish i (implied s) c) :=
  leaves_self rfl rfl

/-- Its count is its form's: implied mode gives no page-cross hint (R320). -/
theorem finish_implied_cycles {i : Instr} {bytes : List Byte} {n : Nat} (hform : form i bytes n) (s : State)
    (c : Cpu) : (finish i (implied s) c).cpu.cycles = n := by
  obtain ⟨-, hbase⟩ := hform
  simp [finish, latched, implied, hbase]

/-- What an instruction in implied mode does that sets the registers of `c`, and N and Z from `v`: the transfers but
TXS, and PLA. -/
theorem implied_setNZ_claims {i : Instr} {bytes : List Byte} {n : Nat} {v : Byte} {s : State} (c : Cpu)
    (hform : form i bytes n) (hexec : exec i s = .next (finish i (implied s) { c with p := setNZ v s.cpu.p })) :
    ∃ t, exec i s = .next t ∧ leaves s s { c with p := t.cpu.p } t ∧ nzFrom v t.cpu.p ∧
      flagsKeptBut [.n, .z] s.cpu.p t.cpu.p ∧ t.cpu.cycles = n :=
  ⟨_, hexec, leaves_finish_implied i s _, nzFrom_setNZ _ _, flagsKeptBut_setNZ _ _, finish_implied_cycles hform s _⟩

/-! ## Transfers -/

theorem tax_form : form .tax [0xAA] 2 := ⟨rfl, fun _ => rfl⟩
theorem tay_form : form .tay [0xA8] 2 := ⟨rfl, fun _ => rfl⟩
theorem txa_form : form .txa [0x8A] 2 := ⟨rfl, fun _ => rfl⟩
theorem tya_form : form .tya [0x98] 2 := ⟨rfl, fun _ => rfl⟩
theorem tsx_form : form .tsx [0xBA] 2 := ⟨rfl, fun _ => rfl⟩
theorem txs_form : form .txs [0x9A] 2 := ⟨rfl, fun _ => rfl⟩

/-- TAX ends with A in X and its N and Z in P (R451). -/
theorem exec_tax (s : State) :
    exec .tax s = .next (finish .tax (implied s) { s.cpu with x := s.cpu.a, p := setNZ s.cpu.a s.cpu.p }) := rfl

/-- TAY ends with A in Y and its N and Z in P (R452). -/
theorem exec_tay (s : State) :
    exec .tay s = .next (finish .tay (implied s) { s.cpu with y := s.cpu.a, p := setNZ s.cpu.a s.cpu.p }) := rfl

/-- TXA ends with X in A and its N and Z in P (R453). -/
theorem exec_txa (s : State) :
    exec .txa s = .next (finish .txa (implied s) { s.cpu with a := s.cpu.x, p := setNZ s.cpu.x s.cpu.p }) := rfl

/-- TYA ends with Y in A and its N and Z in P (R454). -/
theorem exec_tya (s : State) :
    exec .tya s = .next (finish .tya (implied s) { s.cpu with a := s.cpu.y, p := setNZ s.cpu.y s.cpu.p }) := rfl

/-- TSX ends with SP in X and its N and Z in P (R455). -/
theorem exec_tsx (s : State) :
    exec .tsx s = .next (finish .tsx (implied s) { s.cpu with x := s.cpu.sp, p := setNZ s.cpu.sp s.cpu.p }) := rfl

/-- TXS ends with X in SP and P as it was (R456). -/
theorem exec_txs (s : State) : exec .txs s = .next (finish .txs (implied s) { s.cpu with sp := s.cpu.x }) := rfl

/-- Settles O21: the five transfers that set N and Z differ only in the two registers (`exec_tax` to `exec_tsx`,
`implied_setNZ_claims`), and TXS leaves P (`exec_txs`). -/
theorem transfersCopyRegisters : Obligations.TransfersCopyRegisters := by
  refine ⟨tax_form, tay_form, txa_form, tya_form, tsx_form, txs_form, fun s => ⟨fun i v c h => ?_, ?_⟩⟩
  · simp only [List.mem_cons, List.not_mem_nil, or_false, Prod.mk.injEq] at h
    obtain ⟨rfl, rfl, rfl⟩ | ⟨rfl, rfl, rfl⟩ | ⟨rfl, rfl, rfl⟩ | ⟨rfl, rfl, rfl⟩ | ⟨rfl, rfl, rfl⟩ := h
    · exact implied_setNZ_claims { s.cpu with x := s.cpu.a } tax_form (exec_tax s)
    · exact implied_setNZ_claims { s.cpu with y := s.cpu.a } tay_form (exec_tay s)
    · exact implied_setNZ_claims { s.cpu with a := s.cpu.x } txa_form (exec_txa s)
    · exact implied_setNZ_claims { s.cpu with a := s.cpu.y } tya_form (exec_tya s)
    · exact implied_setNZ_claims { s.cpu with x := s.cpu.sp } tsx_form (exec_tsx s)
  · exact ⟨_, exec_txs s, leaves_finish_implied .txs s _, finish_implied_cycles txs_form s _⟩

/-! ## Pushes -/

/-- The address of the stack byte as a sum (R102). -/
theorem stackAddr_eq_ofNat (sp : Byte) : stackAddr sp = BitVec.ofNat 16 (0x100 + sp.toNat) := by
  rw [← stackAddr_toNat, BitVec.ofNat_toNat, BitVec.setWidth_eq]

/-- What a push in implied mode does: one write at the stack byte, SP one lower, no flag changed. -/
theorem push_claims {i : Instr} {bytes : List Byte} {n : Nat} {v : Byte} {s : State} (hform : form i bytes n)
    (hexec : exec i s = .next (charge i 0 (push (implied s) v))) :
    ∃ t, exec i s = .next t ∧ wrote s (BitVec.ofNat 16 (0x100 + s.cpu.sp.toNat)) v t ∧
      t.cpu = latched { s.cpu with sp := BitVec.ofNat 8 (s.cpu.sp.toNat + 255) } t.cpu ∧ t.cpu.cycles = n := by
  have hsp : s.cpu.sp - 1 = BitVec.ofNat 8 (s.cpu.sp.toNat + 255) := by bv_omega
  obtain ⟨-, hbase⟩ := hform
  refine ⟨_, hexec, wrote_of ⟨(implied s).cpu, rfl⟩ ?_, ?_, ?_⟩
  · rw [← stackAddr_eq_ofNat]
    rfl
  · simp only [push_eq, charge, latched, implied, hsp]
  · simp [push_eq, implied, hbase]

/-- PHA pushes A (R457). -/
theorem exec_pha (s : State) : exec .pha s = .next (charge .pha 0 (push (implied s) s.cpu.a)) := rfl

/-- PHP pushes P with bits 4 and 5 set (R458). -/
theorem exec_php (s : State) : exec .php s = .next (charge .php 0 (push (implied s) (s.cpu.p ||| 0x30))) := rfl

/-- Settles O22: PHA and PHP are one push each (`exec_pha`, `exec_php`), and what a push does follows
(`push_claims`). -/
theorem pushesWriteStackByte : Obligations.PushesWriteStackByte := by
  have hpha : form .pha [0x48] 3 := ⟨rfl, fun _ => rfl⟩
  have hphp : form .php [0x08] 3 := ⟨rfl, fun _ => rfl⟩
  exact ⟨hpha, hphp, fun s => ⟨push_claims hpha (exec_pha s), push_claims hphp (exec_php s)⟩⟩

/-! ## Pulls -/

/-- The byte a pull answers, as a bus read of the state before SP moves (R102). -/
def stackTop (s : State) : Byte := busValue s (BitVec.ofNat 16 (0x100 + (s.cpu.sp.toNat + 1) % 256))

/-- A pull in implied mode answers that byte, and changes SP alone. -/
theorem pull_implied (s : State) : pull (implied s) = (stackTop s, (implied s).setSp (s.cpu.sp + 1)) := by
  have haddr : BitVec.ofNat 16 (0x100 + (s.cpu.sp.toNat + 1) % 256) = stackAddr (s.cpu.sp + 1) := by
    rw [stackAddr_eq_ofNat, BitVec.toNat_add]
    rfl
  have hram : (stackAddr (s.cpu.sp + 1)).toNat ≤ 0x1FFF := by
    have := stackAddr_toNat (s.cpu.sp + 1)
    omega
  rw [stackTop, haddr, busValue, busRead_ram s hram]
  exact busRead_ram _ hram

/-- PLA ends with the byte in A and its N and Z in P (R459). -/
theorem exec_pla (s : State) :
    exec .pla s = .next (finish .pla (implied s)
      { s.cpu with a := stackTop s, sp := s.cpu.sp + 1, p := setNZ (stackTop s) s.cpu.p }) := by
  simp only [exec, execPla, pull_implied]
  rfl

/-- PLP ends with the live P made from the byte (R460). -/
theorem exec_plp (s : State) :
    exec .plp s = .next (finish .plp (implied s) { s.cpu with sp := s.cpu.sp + 1, p := livePulled (stackTop s) }) := by
  simp only [exec, execPlp, pull_implied]
  rfl

/-- Settles O23: both pull one byte (`pull_implied`); PLA then sets A, N and Z as a load does, and PLP takes P from the
byte (`getFlag_livePulled`). -/
theorem pullsReadStackByte : Obligations.PullsReadStackByte := by
  have hpla : form .pla [0x68] 4 := ⟨rfl, fun _ => rfl⟩
  have hplp : form .plp [0x28] 4 := ⟨rfl, fun _ => rfl⟩
  refine ⟨hpla, hplp, fun s => ⟨?_, ?_⟩⟩
  · exact implied_setNZ_claims { s.cpu with a := stackTop s, sp := s.cpu.sp + 1 } hpla (exec_pla s)
  · exact ⟨_, exec_plp s, leaves_finish_implied .plp s _, fun f => getFlag_livePulled f _,
      finish_implied_cycles hplp s _⟩

end Sys2Proof.Machine
end

section
/-! Arithmetic, compares, increments and decrements (spec/42 R501 to R511). ADC and SBC are one addition with carry
(`addCore`), SBC of the inverted operand; a compare ends like them but writes P alone; INC and DEC are the one read and
the one write of a read-modify-write instruction. -/

namespace Sys2Proof.Machine

/-! ## The addition with carry -/

/-- The mask test of `AddCore` reads the sign bit. -/
theorem and_signBit_ne_zero (x : Byte) : (x &&& 0x80 != 0) = x.msb := by
  revert x
  decide

/-- The overflow of `AddCore` by signs: both operands have one sign, the result the other (R501). -/
theorem addOverflow_eq_msb (a m : Byte) (c : Bool) :
    addOverflow a m c = (a.msb == m.msb && (addResult a m c).msb != a.msb) := by
  rw [addOverflow, and_signBit_ne_zero]
  simp only [BitVec.msb_and, BitVec.msb_not, BitVec.msb_xor]
  cases a.msb <;> cases m.msb <;> cases (addResult a m c).msb <;> rfl

/-- `AddCore` keeps the flags that it does not compute. -/
theorem flagsKeptBut_addFlags (a m p : Byte) : flagsKeptBut [.n, .v, .z, .c] p (addFlags a m p) := by
  intro f hf
  simp only [List.mem_cons, List.not_mem_nil, or_false, not_or] at hf
  obtain ⟨hn, hv, hz, hc⟩ := hf
  simp only [getFlag_addFlags, hn, hv, hz, hc, if_false]

/-- The registers after `AddCore` of `m` with those of `c`. -/
def addCpu (m : Byte) (c : Cpu) : Cpu :=
  { c with a := addResult c.a m (getFlag .c c.p), p := addFlags c.a m c.p }

/-- ADC ends with `AddCore` of the operand (R501). -/
theorem exec_adc (o : Src) (s : State) :
    let u := readOperand o s
    exec (.adc o) s = .next (finish (.adc o) u (addCpu u.cpu.m s.cpu)) := by
  simp only [exec, execAdc, addCore, State.setA, State.setP, finish]
  rw [readOperand_cpu_latched]
  rfl

/-- SBC ends with `AddCore` of the inverted operand (R502). -/
theorem exec_sbc (o : Src) (s : State) :
    let u := readOperand o s
    exec (.sbc o) s = .next (finish (.sbc o) u (addCpu (u.cpu.m ^^^ 0xFF) s.cpu)) := by
  simp only [exec, execSbc, addCore, State.setA, State.setP, finish]
  rw [readOperand_cpu_latched]
  rfl

/-- What an instruction does that ends with `AddCore` of a byte `m`: A, N, Z, C and V of the addition, and nothing
else. -/
theorem addCore_claims {i : Instr} {o : Src} {s : State} {m : Byte} (hop : i.opExtra = true)
    (hexec : exec i s = .next (finish i (readOperand o s) (addCpu m s.cpu))) :
    let r := addResult s.cpu.a m (getFlag .c s.cpu.p)
    ∃ t, exec i s = .next t ∧ leaves s (readOperand o s) { s.cpu with a := r, p := t.cpu.p } t ∧ nzFrom r t.cpu.p ∧
      getFlag .c t.cpu.p = addCarry s.cpu.a m (getFlag .c s.cpu.p) ∧
      getFlag .v t.cpu.p = (s.cpu.a.msb == m.msb && r.msb != s.cpu.a.msb) ∧
      flagsKeptBut [.n, .v, .z, .c] s.cpu.p t.cpu.p ∧
      t.cpu.cycles = i.baseCycles s.params + crossCycle (readOperand o s) := by
  refine ⟨_, hexec, leaves_finish i o s (addCpu m s.cpu), nzFrom_setNZ _ _, getFlag_addFlags .c _ _ _, ?_,
    flagsKeptBut_addFlags _ _ _, finish_cycles hop o s _⟩
  rw [← addOverflow_eq_msb]
  exact getFlag_addFlags .v _ _ _

/-- The forms of ADC (R501). -/
theorem adc_forms : aluForms .adc 0x69 0x65 0x75 0x6D 0x7D 0x79 0x61 0x71 := by
  intro b w
  refine ⟨?_, ?_, ?_, ?_, ?_, ?_, ?_, ?_⟩ <;> exact ⟨rfl, fun _ => rfl⟩

/-- Settles O24: ADC is the operand fetch, then `AddCore` of the operand (`exec_adc`, `addCore_claims`). -/
theorem adcAddsWithCarry : Obligations.AdcAddsWithCarry :=
  ⟨adc_forms, fun o s => addCore_claims rfl (exec_adc o s)⟩

/-! ## SBC as a subtraction -/

/-- The exact difference with borrow, `A - M - (1 - C)` (R502). -/
def subDiff (a m : Byte) (c : Bool) : Int := (a.toNat : Int) - (m.toNat : Int) - (1 - (c.toNat : Int))

/-- SBC's inversion of the operand is its complement (R502). -/
theorem xor_0xFF_eq_not (m : Byte) : m ^^^ 0xFF = ~~~m := BitVec.xor_allOnes

/-- The exact sum of `AddCore` for the inverted operand is the difference with borrow, 256 higher (R502). -/
theorem addSum_invert (a m : Byte) (c : Bool) : (addSum a (m ^^^ 0xFF) c : Int) = subDiff a m c + 256 := by
  rw [addSum, subDiff, xor_0xFF_eq_not, BitVec.toNat_not]
  omega

/-- So its result is the difference mod 256. -/
theorem addResult_invert (a m : Byte) (c : Bool) : addResult a (m ^^^ 0xFF) c = BitVec.ofInt 8 (subDiff a m c) := by
  have h := addSum_invert a m c
  apply BitVec.eq_of_toNat_eq
  rw [addResult, BitVec.toNat_ofNat, BitVec.toNat_ofInt]
  omega

/-- Its carry says that the difference is not negative. -/
theorem addCarry_invert (a m : Byte) (c : Bool) : addCarry a (m ^^^ 0xFF) c = decide (0 ≤ subDiff a m c) := by
  have h := addSum_invert a m c
  rw [addCarry, decide_eq_decide]
  omega

/-- The inverted operand has the other sign. -/
theorem beq_msb_invert (a m : Byte) : (a.msb == (m ^^^ 0xFF).msb) = (a.msb != m.msb) := by
  have hnot : (~~~m).msb = !m.msb := by simp
  rw [xor_0xFF_eq_not, hnot]
  cases a.msb <;> cases m.msb <;> rfl

/-- The forms of SBC (R502). -/
theorem sbc_forms : aluForms .sbc 0xE9 0xE5 0xF5 0xED 0xFD 0xF9 0xE1 0xF1 := by
  intro b w
  refine ⟨?_, ?_, ?_, ?_, ?_, ?_, ?_, ?_⟩ <;> exact ⟨rfl, fun _ => rfl⟩

/-- Settles O25: SBC is `AddCore` of the inverted operand (`exec_sbc`, `addCore_claims`), and that addition is the
subtraction with borrow (`addResult_invert`, `addCarry_invert`, `beq_msb_invert`). -/
theorem sbcSubtractsWithBorrow : Obligations.SbcSubtractsWithBorrow := by
  refine ⟨sbc_forms, fun o s => ?_⟩
  have h := addCore_claims rfl (exec_sbc o s)
  simp only [addResult_invert, addCarry_invert, beq_msb_invert] at h
  exact h

/-! ## Compares -/

/-- A compare keeps the flags that it does not compute. -/
theorem flagsKeptBut_compareFlags (r m p : Byte) : flagsKeptBut [.n, .z, .c] p (compareFlags r m p) := by
  intro f hf
  simp only [List.mem_cons, List.not_mem_nil, or_false, not_or] at hf
  obtain ⟨hn, hz, hc⟩ := hf
  simp only [getFlag_compareFlags, hn, hz, hc, if_false]

/-- CMP ends with the flags of A and the operand (R503). -/
theorem exec_cmp (o : Src) (s : State) :
    let u := readOperand o s
    exec (.cmp o) s = .next (finish (.cmp o) u { s.cpu with p := compareFlags s.cpu.a u.cpu.m s.cpu.p }) := by
  simp only [exec, execCmp, State.setP, finish]
  rw [readOperand_cpu_latched]
  rfl

/-- CPX ends with the flags of X and the operand (R504). -/
theorem exec_cpx (o : Src) (s : State) :
    let u := readOperand o s
    exec (.cpx o) s = .next (finish (.cpx o) u { s.cpu with p := compareFlags s.cpu.x u.cpu.m s.cpu.p }) := by
  simp only [exec, execCpx, State.setP, finish]
  rw [readOperand_cpu_latched]
  rfl

/-- CPY ends with the flags of Y and the operand (R505). -/
theorem exec_cpy (o : Src) (s : State) :
    let u := readOperand o s
    exec (.cpy o) s = .next (finish (.cpy o) u { s.cpu with p := compareFlags s.cpu.y u.cpu.m s.cpu.p }) := by
  simp only [exec, execCpy, State.setP, finish]
  rw [readOperand_cpu_latched]
  rfl

/-- The count of any instruction with an operand: the page-cross hint costs a cycle when R341 lists the instruction,
which it does for CMP and not for CPX and CPY. -/
theorem finish_cycles_opExtra (i : Instr) (o : Src) (s : State) (c : Cpu) :
    (finish i (readOperand o s) c).cpu.cycles =
      i.baseCycles s.params + (if i.opExtra then crossCycle (readOperand o s) else 0) := by
  cases hop : i.opExtra with
  | true => exact finish_cycles hop o s c
  | false => simp [finish, hop]

/-- What every compare of a byte `r` does: C, Z and N of the unsigned comparison, and nothing else. -/
theorem compare_claims {i : Instr} {o : Src} {s : State} {r : Byte}
    (hexec : exec i s =
      .next (finish i (readOperand o s) { s.cpu with p := compareFlags r (readOperand o s).cpu.m s.cpu.p })) :
    let u := readOperand o s
    ∃ t, exec i s = .next t ∧ leaves s u { s.cpu with p := t.cpu.p } t ∧
      getFlag .c t.cpu.p = decide (u.cpu.m.toNat ≤ r.toNat) ∧ getFlag .z t.cpu.p = decide (r = u.cpu.m) ∧
      getFlag .n t.cpu.p = (r - u.cpu.m).msb ∧ flagsKeptBut [.n, .z, .c] s.cpu.p t.cpu.p ∧
      t.cpu.cycles = i.baseCycles s.params + (if i.opExtra then crossCycle u else 0) :=
  ⟨_, hexec, leaves_finish i o s _, getFlag_compareFlags .c _ _ _, getFlag_compareFlags .z _ _ _,
    (getFlag_compareFlags .n _ _ _).trans (BitVec.msb_eq_getLsbD_last _).symm, flagsKeptBut_compareFlags _ _ _,
    finish_cycles_opExtra i o s _⟩

/-- The forms of CMP (R503). -/
theorem cmp_forms : aluForms .cmp 0xC9 0xC5 0xD5 0xCD 0xDD 0xD9 0xC1 0xD1 := by
  intro b w
  refine ⟨?_, ?_, ?_, ?_, ?_, ?_, ?_, ?_⟩ <;> exact ⟨rfl, fun _ => rfl⟩

/-- The forms of CPX (R504). -/
theorem cpx_forms : indexCompareForms .cpx 0xE0 0xE4 0xEC := by
  intro b w
  refine ⟨?_, ?_, ?_⟩ <;> exact ⟨rfl, fun _ => rfl⟩

/-- The forms of CPY (R505). -/
theorem cpy_forms : indexCompareForms .cpy 0xC0 0xC4 0xCC := by
  intro b w
  refine ⟨?_, ?_, ?_⟩ <;> exact ⟨rfl, fun _ => rfl⟩

/-- Settles O27: the three compares differ only in the register (`exec_cmp`, `exec_cpx`, `exec_cpy`,
`compare_claims`). -/
theorem comparesWriteOnlyFlags : Obligations.ComparesWriteOnlyFlags := by
  refine ⟨cmp_forms, cpx_forms, cpy_forms, fun o s i r h => ?_⟩
  simp only [List.mem_cons, List.not_mem_nil, or_false, Prod.mk.injEq] at h
  obtain ⟨rfl, rfl⟩ | ⟨rfl, rfl⟩ | ⟨rfl, rfl⟩ := h
  · exact compare_claims (exec_cmp o s)
  · exact compare_claims (exec_cpx o s)
  · exact compare_claims (exec_cpy o s)

/-! ## Increments and decrements -/

/-- Adding 1 as the sum mod 256 (R506 to R508). -/
theorem add_one_eq_ofNat (b : Byte) : b + 1 = BitVec.ofNat 8 (b.toNat + 1) := by bv_omega

/-- Subtracting 1 as the sum with 255 mod 256 (R509 to R511). -/
theorem sub_one_eq_ofNat (b : Byte) : b - 1 = BitVec.ofNat 8 (b.toNat + 255) := by bv_omega

/-- The operand fetch of a read-modify-write instruction sets latches only. -/
theorem readMemory_cpu_latched (m : Mem) (s : State) :
    (readMemory m s).cpu = latched s.cpu (readMemory m s).cpu :=
  readOperand_cpu_latched (.mem m) s

/-- It leaves EA at the mode's address. -/
theorem readMemory_cpu_ea (m : Mem) (s : State) : (readMemory m s).cpu.ea = (address m s).cpu.ea := by
  rw [readMemory_eq, address_eq]
  rfl

/-- How a read-modify-write instruction on memory ends, its operand fetched in `u`: one write of `r` at EA and the
status `p`. -/
def modify (i : Instr) (r p : Byte) (u : State) : State := charge i 0 ((busWrite u u.cpu.ea r).setP p)

/-- Its write is the one at the mode's address, whatever status it leaves. -/
theorem wrote_modify (i : Instr) (r p : Byte) (m : Mem) (s : State) :
    wrote (readMemory m s) (address m s).cpu.ea r (modify i r p (readMemory m s)) := by
  rw [← readMemory_cpu_ea]
  exact wrote_of ⟨(readMemory m s).cpu, rfl⟩ rfl

/-- It changes P and no other register. -/
theorem modify_cpu_latched (i : Instr) (r p : Byte) (m : Mem) (s : State) :
    let t := modify i r p (readMemory m s)
    t.cpu = latched { s.cpu with p := t.cpu.p } t.cpu := by
  simp only [modify, charge, State.setP, busWrite_cpu]
  rw [readMemory_cpu_latched]
  rfl

/-- Its count is the base: R341 lists no read-modify-write instruction, so no hint adds to it. -/
theorem modify_cycles {i : Instr} (hop : i.opExtra = false) (r p : Byte) (m : Mem) (s : State) :
    (modify i r p (readMemory m s)).cpu.cycles = i.baseCycles s.params := by
  simp [modify, hop, ← readOperand_mem]

/-- INC writes the byte plus 1 (R506). -/
theorem exec_inc (m : Mem) (s : State) :
    let u := readMemory m s
    let r : Byte := BitVec.ofNat 8 (u.cpu.m.toNat + 1)
    exec (.inc m) s = .next (modify (.inc m) r (setNZ r s.cpu.p) u) := by
  simp only [exec, execInc, modify, ← add_one_eq_ofNat]
  rw [readMemory_cpu_latched]
  rfl

/-- DEC writes the byte minus 1 (R509). -/
theorem exec_dec (m : Mem) (s : State) :
    let u := readMemory m s
    let r : Byte := BitVec.ofNat 8 (u.cpu.m.toNat + 255)
    exec (.dec m) s = .next (modify (.dec m) r (setNZ r s.cpu.p) u) := by
  simp only [exec, execDec, modify, ← sub_one_eq_ofNat]
  rw [readMemory_cpu_latched]
  rfl

/-- What INC and DEC do: one read, one write of the result, N and Z from it, and nothing else. -/
theorem modify_setNZ_claims {i : Instr} {m : Mem} {s : State} {r : Byte} (hop : i.opExtra = false)
    (hexec : exec i s = .next (modify i r (setNZ r s.cpu.p) (readMemory m s))) :
    ∃ t, exec i s = .next t ∧ wrote (readMemory m s) (address m s).cpu.ea r t ∧
      t.cpu = latched { s.cpu with p := t.cpu.p } t.cpu ∧ nzFrom r t.cpu.p ∧ flagsKeptBut [.n, .z] s.cpu.p t.cpu.p ∧
      t.cpu.cycles = i.baseCycles s.params :=
  ⟨_, hexec, wrote_modify i r _ m s, modify_cpu_latched i r _ m s, nzFrom_setNZ _ _, flagsKeptBut_setNZ _ _,
    modify_cycles hop r _ m s⟩

/-- The forms of INC (R506). -/
theorem inc_forms : rmwForms .inc 0xE6 0xF6 0xEE 0xFE := by
  intro b w
  refine ⟨?_, ?_, ?_, ?_⟩ <;> exact ⟨rfl, fun _ => rfl⟩

/-- The forms of DEC (R509). -/
theorem dec_forms : rmwForms .dec 0xC6 0xD6 0xCE 0xDE := by
  intro b w
  refine ⟨?_, ?_, ?_, ?_⟩ <;> exact ⟨rfl, fun _ => rfl⟩

/-- Settles O28: INC and DEC differ only in the byte written (`exec_inc`, `exec_dec`, `modify_setNZ_claims`). -/
theorem incDecModifyMemory : Obligations.IncDecModifyMemory := by
  refine ⟨inc_forms, dec_forms, fun m s i r h => ?_⟩
  simp only [List.mem_cons, List.not_mem_nil, or_false, Prod.mk.injEq] at h
  obtain ⟨rfl, rfl⟩ | ⟨rfl, rfl⟩ := h
  · exact modify_setNZ_claims rfl (exec_inc m s)
  · exact modify_setNZ_claims rfl (exec_dec m s)

theorem inx_form : form .inx [0xE8] 2 := ⟨rfl, fun _ => rfl⟩
theorem iny_form : form .iny [0xC8] 2 := ⟨rfl, fun _ => rfl⟩
theorem dex_form : form .dex [0xCA] 2 := ⟨rfl, fun _ => rfl⟩
theorem dey_form : form .dey [0x88] 2 := ⟨rfl, fun _ => rfl⟩

/-- INX ends with X plus 1 in X and its N and Z in P (R507). -/
theorem exec_inx (s : State) :
    let r : Byte := BitVec.ofNat 8 (s.cpu.x.toNat + 1)
    exec .inx s = .next (finish .inx (implied s) { s.cpu with x := r, p := setNZ r s.cpu.p }) := by
  rw [← add_one_eq_ofNat]
  rfl

/-- INY ends with Y plus 1 in Y (R508). -/
theorem exec_iny (s : State) :
    let r : Byte := BitVec.ofNat 8 (s.cpu.y.toNat + 1)
    exec .iny s = .next (finish .iny (implied s) { s.cpu with y := r, p := setNZ r s.cpu.p }) := by
  rw [← add_one_eq_ofNat]
  rfl

/-- DEX ends with X minus 1 in X (R510). -/
theorem exec_dex (s : State) :
    let r : Byte := BitVec.ofNat 8 (s.cpu.x.toNat + 255)
    exec .dex s = .next (finish .dex (implied s) { s.cpu with x := r, p := setNZ r s.cpu.p }) := by
  rw [← sub_one_eq_ofNat]
  rfl

/-- DEY ends with Y minus 1 in Y (R511). -/
theorem exec_dey (s : State) :
    let r : Byte := BitVec.ofNat 8 (s.cpu.y.toNat + 255)
    exec .dey s = .next (finish .dey (implied s) { s.cpu with y := r, p := setNZ r s.cpu.p }) := by
  rw [← sub_one_eq_ofNat]
  rfl

/-- Settles O29: the four differ only in the register and the count's direction (`exec_inx` to `exec_dey`), and what
an instruction in implied mode does follows (`implied_setNZ_claims`). -/
theorem incDecIndexRegisters : Obligations.IncDecIndexRegisters := by
  refine ⟨inx_form, iny_form, dex_form, dey_form, fun s i r c h => ?_⟩
  simp only [List.mem_cons, List.not_mem_nil, or_false, Prod.mk.injEq] at h
  obtain ⟨rfl, rfl, rfl⟩ | ⟨rfl, rfl, rfl⟩ | ⟨rfl, rfl, rfl⟩ | ⟨rfl, rfl, rfl⟩ := h
  · exact implied_setNZ_claims { s.cpu with x := _ } inx_form (exec_inx s)
  · exact implied_setNZ_claims { s.cpu with y := _ } iny_form (exec_iny s)
  · exact implied_setNZ_claims { s.cpu with x := _ } dex_form (exec_dex s)
  · exact implied_setNZ_claims { s.cpu with y := _ } dey_form (exec_dey s)

end Sys2Proof.Machine
end

section
/-! Logic and the bit test (spec/43 R551 to R554). AND, ORA and EOR end with a byte in A and its N and Z in P, and
differ only in how that byte's bits are made; BIT ends like them but writes P alone. -/

namespace Sys2Proof.Machine

/-! ## AND, ORA and EOR -/

/-- The registers of `c` with `r` in A and its N and Z in P. -/
def resultCpu (r : Byte) (c : Cpu) : Cpu := { c with a := r, p := setNZ r c.p }

/-- AND ends with the conjunction of A and the operand in A (R551). -/
theorem exec_and (o : Src) (s : State) :
    let u := readOperand o s
    exec (.and o) s = .next (finish (.and o) u (resultCpu (s.cpu.a &&& u.cpu.m) s.cpu)) := by
  simp only [exec, execAnd, State.setA, State.setP, finish]
  rw [readOperand_cpu_latched]
  rfl

/-- ORA ends with the disjunction in A (R552). -/
theorem exec_ora (o : Src) (s : State) :
    let u := readOperand o s
    exec (.ora o) s = .next (finish (.ora o) u (resultCpu (s.cpu.a ||| u.cpu.m) s.cpu)) := by
  simp only [exec, execOra, State.setA, State.setP, finish]
  rw [readOperand_cpu_latched]
  rfl

/-- EOR ends with the exclusive disjunction in A (R553). -/
theorem exec_eor (o : Src) (s : State) :
    let u := readOperand o s
    exec (.eor o) s = .next (finish (.eor o) u (resultCpu (s.cpu.a ^^^ u.cpu.m) s.cpu)) := by
  simp only [exec, execEor, State.setA, State.setP, finish]
  rw [readOperand_cpu_latched]
  rfl

/-- What an instruction does that ends with a byte `r` in A whose bits are `f` of A's and the operand's: those bits,
N and Z from `r`, and nothing else. -/
theorem logic_claims {i : Instr} {o : Src} {s : State} {r : Byte} {f : Bool → Bool → Bool} (hop : i.opExtra = true)
    (hexec : exec i s = .next (finish i (readOperand o s) (resultCpu r s.cpu)))
    (hbits : ∀ k, r.getLsbD k = f (s.cpu.a.getLsbD k) ((readOperand o s).cpu.m.getLsbD k)) :
    let u := readOperand o s
    ∃ t, exec i s = .next t ∧ leaves s u { s.cpu with a := t.cpu.a, p := t.cpu.p } t ∧
      (∀ k, k < 8 → t.cpu.a.getLsbD k = f (s.cpu.a.getLsbD k) (u.cpu.m.getLsbD k)) ∧
      nzFrom t.cpu.a t.cpu.p ∧ flagsKeptBut [.n, .z] s.cpu.p t.cpu.p ∧
      t.cpu.cycles = i.baseCycles s.params + crossCycle u :=
  ⟨_, hexec, leaves_finish i o s (resultCpu r s.cpu), fun k _ => hbits k, nzFrom_setNZ r _, flagsKeptBut_setNZ r _,
    finish_cycles hop o s _⟩

/-- The forms of the three (R551 to R553). -/
theorem logic_forms :
    aluForms .and 0x29 0x25 0x35 0x2D 0x3D 0x39 0x21 0x31 ∧ aluForms .ora 0x09 0x05 0x15 0x0D 0x1D 0x19 0x01 0x11 ∧
      aluForms .eor 0x49 0x45 0x55 0x4D 0x5D 0x59 0x41 0x51 := by
  refine ⟨?_, ?_, ?_⟩ <;>
  · intro b w
    refine ⟨?_, ?_, ?_, ?_, ?_, ?_, ?_, ?_⟩ <;> exact ⟨rfl, fun _ => rfl⟩

/-- Settles O31: the three differ only in the byte that ends in A (`exec_and`, `exec_ora`, `exec_eor`), and what they
do follows from that byte's bits (`logic_claims`). -/
theorem logicCombinesBitByBit : Obligations.LogicCombinesBitByBit := by
  obtain ⟨hand, hora, heor⟩ := logic_forms
  refine ⟨hand, hora, heor, fun o s i f h => ?_⟩
  obtain ⟨rfl, rfl⟩ | ⟨rfl, rfl⟩ | ⟨rfl, rfl⟩ := h
  · exact logic_claims rfl (exec_and o s) fun _ => BitVec.getLsbD_and
  · exact logic_claims rfl (exec_ora o s) fun _ => BitVec.getLsbD_or
  · exact logic_claims rfl (exec_eor o s) fun _ => BitVec.getLsbD_xor

/-! ## BIT -/

/-- BIT keeps the flags that it does not compute. -/
theorem flagsKeptBut_bitFlags (a m p : Byte) : flagsKeptBut [.n, .v, .z] p (bitFlags a m p) := by
  intro f hf
  simp only [List.mem_cons, List.not_mem_nil, or_false, not_or] at hf
  obtain ⟨hn, hv, hz⟩ := hf
  simp only [getFlag_bitFlags, hn, hv, hz, if_false]

/-- BIT ends with the flags of A and the memory byte in P (R554). -/
theorem exec_bit (m : Mem) (s : State) :
    let u := readMemory m s
    exec (.bit m) s = .next (finish (.bit m) u { s.cpu with p := bitFlags s.cpu.a u.cpu.m s.cpu.p }) := by
  simp only [exec, execBit, State.setP, finish]
  rw [readMemory_cpu_latched]
  rfl

/-- The forms of BIT (R554). -/
theorem bit_forms (b : Byte) (w : Word) :
    form (.bit (.zp b)) [0x24, b] 3 ∧ form (.bit (.abs w)) [0x2C, loByte w, hiByte w] 4 := by
  constructor <;> exact ⟨rfl, fun _ => rfl⟩

/-- Settles O32: BIT is the operand fetch of its memory byte (`readOperand_mem`), then P alone (`exec_bit`); R341 does
not list it, so no hint adds to its count. -/
theorem bitTestsMemory : Obligations.BitTestsMemory := by
  refine ⟨bit_forms, fun m s => ⟨_, exec_bit m s, ?_⟩⟩
  rw [← readOperand_mem]
  exact ⟨leaves_finish (.bit m) (.mem m) s _, getFlag_bitFlags .z _ _ _, getFlag_bitFlags .n _ _ _,
    getFlag_bitFlags .v _ _ _, flagsKeptBut_bitFlags _ _ _, finish_cycles_opExtra (.bit m) (.mem m) s _⟩

end Sys2Proof.Machine
end

section
/-! Control transfers (spec/44 R601 to R604, R610 to R618). JMP, RTS and RTI touch the CPU and the devices they read
alone, so they end as a load does (`finish`); JSR is two pushes and a jump; the branches differ only in the flag they
test and the value they want of it. -/

namespace Sys2Proof.Machine

/-! ## The bytes of a word as numbers -/

theorem hiByte_toNat (w : Word) : (hiByte w).toNat = w.toNat / 256 := by
  have := w.isLt
  simp only [hiByte, BitVec.toNat_setWidth, BitVec.toNat_ushiftRight, Nat.shiftRight_eq_div_pow]
  omega

theorem loByte_toNat (w : Word) : (loByte w).toNat = w.toNat % 256 := by
  simp [loByte]

/-- Two addresses have the same high byte exactly when they lie in the same page. -/
theorem hiByte_eq_iff (v w : Word) : hiByte v = hiByte w ↔ v.toNat / 256 = w.toNat / 256 := by
  rw [← BitVec.toNat_inj, hiByte_toNat, hiByte_toNat]

/-! ## JMP -/

/-- An instruction that R341 does not list costs its form's count, whatever its mode left. -/
theorem finish_cycles_of_form {i : Instr} {bytes : List Byte} {n : Nat} (hform : form i bytes n)
    (hop : i.opExtra = false) (u : State) (c : Cpu) : (finish i u c).cpu.cycles = n := by
  obtain ⟨-, hbase⟩ := hform
  simp [finish, hbase, hop]

/-- The forms of JMP (R601). -/
theorem jmp_forms (w : Word) :
    form (.jmp (.abs w)) [0x4C, loByte w, hiByte w] 3 ∧ form (.jmp (.ind w)) [0x6C, loByte w, hiByte w] 5 := by
  constructor <;> exact ⟨rfl, fun _ => rfl⟩

/-- The mode of JMP sets latches only. -/
theorem jumpTarget_cpu_latched (j : JmpTarget) (s : State) :
    (jumpTarget j s).cpu = latched s.cpu (jumpTarget j s).cpu := by
  cases j with
  | abs w => rfl
  | ind w => simp [jumpTarget, State.setEa, latched]

/-- JMP ends with its mode's address in the pc (R601). -/
theorem exec_jmp (j : JmpTarget) (s : State) :
    let u := jumpTarget j s
    exec (.jmp j) s = .next (finish (.jmp j) u { s.cpu with pc := u.cpu.ea }) := by
  simp only [exec, execJmp, State.setPc, finish]
  rw [jumpTarget_cpu_latched]
  rfl

/-- The address after `w` in the page of `w`, from which an indirect JMP takes its high byte (R329). -/
theorem nextInPage_eq (w : Word) :
    hiLo (hiByte w) (loByte w + 1) = BitVec.ofNat 16 (w.toNat / 256 * 256 + (w.toNat + 1) % 256) := by
  apply BitVec.eq_of_toNat_eq
  have hlo : (loByte w + 1).toNat = (w.toNat + 1) % 256 := by
    simp [BitVec.toNat_add, loByte_toNat]
  rw [hiLo_toNat, hiByte_toNat, hlo, BitVec.toNat_ofNat]
  omega

/-- Settles O35: JMP is its mode, then the pc (`exec_jmp`); the indirect mode is two reads, which leave every memory as
it was, and `nextInPage_eq` says where the second one is. -/
theorem jmpSetsPc : Obligations.JmpSetsPc := by
  refine ⟨jmp_forms, fun s w => ?_⟩
  obtain ⟨habs, hind⟩ := jmp_forms w
  refine ⟨⟨_, exec_jmp (.abs w) s, leaves_self rfl rfl, finish_cycles_of_form habs rfl _ _⟩,
    ⟨_, exec_jmp (.ind w) s, ?_, finish_cycles_of_form hind rfl _ _⟩⟩
  rw [← nextInPage_eq]
  obtain ⟨hoam, hpal, hnt, -⟩ := busRead_ppuMemory s w
  obtain ⟨hoam', hpal', hnt', -⟩ := busRead_ppuMemory (busRead s w).2 (hiLo (hiByte w) (loByte w + 1))
  exact leaves_of rfl (by simp) (by simp) ⟨hoam'.trans hoam, hpal'.trans hpal, hnt'.trans hnt⟩ rfl

/-! ## JSR -/

theorem jsr_form (w : Word) : form (.jsr w) [0x20, loByte w, hiByte w] 6 := ⟨rfl, fun _ => rfl⟩

/-- JSR pushes the address before the pc and jumps (R602). -/
theorem exec_jsr (w : Word) (s : State) :
    exec (.jsr w) s = .next (charge (.jsr w) 0 ((pushWord (s.setEa w false) (s.cpu.pc - 1)).setPc w)) := by
  simp only [exec, execJsr, pushWord_eq, State.setPc, State.setEa]

/-- RAM after two pushes: the high byte at the old SP, the low byte below it, which is another cell. -/
theorem ramAt_pushWord (s : State) (w : Word) (k : Nat) :
    ramAt (pushWord s w) k =
      if k = 0x100 + s.cpu.sp.toNat then hiByte w
      else if k = 0x100 + (s.cpu.sp - 1).toNat then loByte w else ramAt s k := by
  have hne : s.cpu.sp.toNat ≠ (s.cpu.sp - 1).toNat := by bv_omega
  simp only [ramAt, pushWord_eq, byteAt_cellSet]
  by_cases hhi : k = 0x100 + s.cpu.sp.toNat
  · rw [if_pos hhi, if_pos hhi, if_neg (by omega)]
  · simp only [if_neg hhi]

/-- Settles O36: JSR is two pushes and a jump (`exec_jsr`); the pushes change RAM (`ramAt_pushWord`) and SP alone
(`pushWord_eq`). -/
theorem jsrPushesReturnAddress : Obligations.JsrPushesReturnAddress := by
  refine ⟨jsr_form, fun s w => ?_⟩
  have hret : BitVec.ofNat 16 (s.cpu.pc.toNat + 65535) = s.cpu.pc - 1 := by bv_omega
  have hsp : s.cpu.sp - 1 - 1 = s.cpu.sp - 2 := by bv_omega
  obtain ⟨-, hbase⟩ := jsr_form w
  rw [hret]
  refine ⟨_, exec_jsr w s, ?_, ?_, ?_, fun k => ramAt_pushWord (s.setEa w false) (s.cpu.pc - 1) k⟩
  · simp only [pushWord_eq, charge, latched, State.setPc, setEa_cpu_sp, hsp]
    rfl
  · simp [pushWord_eq, hbase]
  · rw [pushWord_eq]
    rfl

/-! ## RTS and RTI -/

theorem rts_form : form .rts [0x60] 6 := ⟨rfl, fun _ => rfl⟩
theorem rti_form : form .rti [0x40] 6 := ⟨rfl, fun _ => rfl⟩

/-- SP after the pulls of a return, as one sum. -/
theorem add_one_add_one (b : Byte) : b + 1 + 1 = b + 2 := by bv_omega
theorem add_two_add_one (b : Byte) : b + 2 + 1 = b + 3 := by bv_omega

/-- RTS ends with the word above SP plus 1 in the pc (R603). -/
theorem exec_rts (s : State) :
    exec .rts s = .next (finish .rts (implied s)
      { s.cpu with
        sp := s.cpu.sp + 2
        pc := hiLo (ramAt s (0x100 + (s.cpu.sp + 2).toNat)) (ramAt s (0x100 + (s.cpu.sp + 1).toNat)) + 1 }) := by
  rw [← add_one_add_one]
  simp only [exec, execRts, pullWord_eq]
  rfl

/-- Settles O37: RTS ends with two pulled bytes in the pc (`exec_rts`) and works in implied mode. -/
theorem rtsPullsPcPlusOne : Obligations.RtsPullsPcPlusOne :=
  ⟨rts_form, fun s => ⟨_, exec_rts s, leaves_finish_implied .rts s _, finish_implied_cycles rts_form s _⟩⟩

/-- RTI ends with the live P made from the byte above SP, and the word above that in the pc (R604). -/
theorem exec_rti (s : State) :
    exec .rti s = .next (finish .rti (implied s)
      { s.cpu with
        sp := s.cpu.sp + 3
        p := livePulled (ramAt s (0x100 + (s.cpu.sp + 1).toNat))
        pc := hiLo (ramAt s (0x100 + (s.cpu.sp + 3).toNat)) (ramAt s (0x100 + (s.cpu.sp + 2).toNat)) }) := by
  rw [← add_two_add_one, ← add_one_add_one]
  simp only [exec, execRti, interruptReturn_eq]
  rfl

/-- Settles O41: RTI ends with the pulled status and pc (`exec_rti`), and `getFlag_livePulled` says which flags that
status has. -/
theorem rtiRestoresStatusAndPc : Obligations.RtiRestoresStatusAndPc :=
  ⟨rti_form, fun s =>
    ⟨_, exec_rti s, leaves_finish_implied .rti s _, fun f => getFlag_livePulled f _, finish_implied_cycles rti_form s _⟩⟩

/-! ## The branches -/

/-- The target of a branch as a signed sum mod 2^16 (R328). -/
theorem branchTarget_eq (off : Byte) (s : State) :
    branchTarget off s = BitVec.ofInt 16 ((s.cpu.pc.toNat : Int) + off.toInt) := by
  rw [BitVec.ofInt_add, BitVec.ofInt_natCast, BitVec.ofNat_toNat, BitVec.setWidth_eq]
  rfl

/-- The cycles of a branch by the pages of the next instruction and the target (R610). -/
theorem branchExtra_add_two (taken : Bool) (next target : Word) :
    2 + branchExtra taken next target =
      if taken then (if target.toNat / 256 = next.toNat / 256 then 3 else 4) else 2 := by
  cases taken with
  | false => rfl
  | true =>
    by_cases hpage : target.toNat / 256 = next.toNat / 256 <;> simp [branchExtra, hiByte_eq_iff, hpage]

/-- The shared branch rule ends with the target in the pc when taken, and changes nothing else but latches. -/
theorem branch_eq (i : Instr) (taken : Bool) (off : Byte) (s : State) :
    branch i taken off s =
      charge i (branchExtra taken s.cpu.pc (branchTarget off s))
        { s with cpu :=
          { s.cpu with modeExtra := false, pc := if taken then branchTarget off s else s.cpu.pc } } := by
  cases taken <;> rfl

/-- What a branch does that is taken when the flag `f` has the value `v`. -/
theorem branch_claims {i : Instr} {bytes : List Byte} {off : Byte} {s : State} {f : Flag} {v : Bool}
    (hform : form i bytes 2) (hexec : exec i s = .next (branch i (getFlag f s.cpu.p == v) off s)) :
    let target : Word := BitVec.ofInt 16 ((s.cpu.pc.toNat : Int) + off.toInt)
    ∃ t, exec i s = .next t ∧
      leaves s s { s.cpu with pc := if getFlag f s.cpu.p = v then target else s.cpu.pc } t ∧
      t.cpu.cycles =
        if getFlag f s.cpu.p = v then (if target.toNat / 256 = s.cpu.pc.toNat / 256 then 3 else 4) else 2 := by
  obtain ⟨-, hbase⟩ := hform
  rw [branch_eq] at hexec
  simp only [branchTarget_eq, beq_iff_eq] at hexec
  refine ⟨_, hexec, leaves_self rfl rfl, ?_⟩
  simp only [charge_cpu_cycles, hbase, Bool.false_and, Bool.false_eq_true, if_false, Nat.add_zero,
    branchExtra_add_two, beq_iff_eq]

/-- A branch on a set flag runs the shared rule with the flag as its condition. -/
theorem exec_branch_set {i : Instr} {off : Byte} {s : State} {f : Flag}
    (h : exec i s = .next (branch i (getFlag f s.cpu.p) off s)) :
    exec i s = .next (branch i (getFlag f s.cpu.p == true) off s) := by
  rw [h, beq_true]

/-- A branch on a clear flag runs it with the flag's negation. -/
theorem exec_branch_clear {i : Instr} {off : Byte} {s : State} {f : Flag}
    (h : exec i s = .next (branch i (!getFlag f s.cpu.p) off s)) :
    exec i s = .next (branch i (getFlag f s.cpu.p == false) off s) := by
  rw [h, beq_false]

/-- The forms of the eight branches (R611 to R618). -/
theorem branch_forms (off : Byte) :
    form (.bcc off) [0x90, off] 2 ∧ form (.bcs off) [0xB0, off] 2 ∧ form (.beq off) [0xF0, off] 2 ∧
    form (.bmi off) [0x30, off] 2 ∧ form (.bne off) [0xD0, off] 2 ∧ form (.bpl off) [0x10, off] 2 ∧
    form (.bvc off) [0x50, off] 2 ∧ form (.bvs off) [0x70, off] 2 := by
  refine ⟨?_, ?_, ?_, ?_, ?_, ?_, ?_, ?_⟩ <;> exact ⟨rfl, fun _ => rfl⟩

/-- Settles O39: each branch runs the shared rule on its flag, wanted clear or set (`exec_branch_clear`,
`exec_branch_set`), and what the rule does follows (`branch_claims`). -/
theorem branchesCommitWhenTaken : Obligations.BranchesCommitWhenTaken := by
  refine ⟨branch_forms, fun s off i f v h => ?_⟩
  obtain ⟨hbcc, hbcs, hbeq, hbmi, hbne, hbpl, hbvc, hbvs⟩ := branch_forms off
  simp only [List.mem_cons, List.not_mem_nil, or_false, Prod.mk.injEq] at h
  obtain ⟨rfl, rfl, rfl⟩ | ⟨rfl, rfl, rfl⟩ | ⟨rfl, rfl, rfl⟩ | ⟨rfl, rfl, rfl⟩ | ⟨rfl, rfl, rfl⟩ | ⟨rfl, rfl, rfl⟩ |
    ⟨rfl, rfl, rfl⟩ | ⟨rfl, rfl, rfl⟩ := h
  · exact branch_claims hbcc (exec_branch_clear rfl)
  · exact branch_claims hbcs (exec_branch_set rfl)
  · exact branch_claims hbeq (exec_branch_set rfl)
  · exact branch_claims hbmi (exec_branch_set rfl)
  · exact branch_claims hbne (exec_branch_clear rfl)
  · exact branch_claims hbpl (exec_branch_clear rfl)
  · exact branch_claims hbvc (exec_branch_clear rfl)
  · exact branch_claims hbvs (exec_branch_set rfl)

end Sys2Proof.Machine
end

section
/-! The APU's status register (spec/62 R909, R910): what a read of 0x4015 answers, bit by bit, and what a write of it
does to the length counters. -/

namespace Sys2Proof.Machine

/-! ## The accesses at 0x4015 -/

/-- No cartridge claims 0x4015, so a read of it is the APU's status read (R201, R910). -/
theorem busRead_apuStatus (s : State) :
    busRead s 0x4015 = (apuStatus s.apu, { s with apu := { s.apu with frameIrq := false } }) := by
  unfold busRead
  dsimp only
  rw [cartCpuRead_low s.cart (by decide)]
  rfl

/-- Nor for a write, which goes to the channel enables (R202, R909). -/
theorem busWrite_apuEnables (s : State) (d : Byte) :
    busWrite s 0x4015 d = { s with apu := writeEnables d s.apu } := by
  unfold busWrite
  dsimp only
  rw [cartCpuWrite_low s.cart d (by decide)]
  rfl

/-! ## The bits of the status byte -/

/-- A mask that is there only under a condition has its bits only under it. -/
theorem getLsbD_mask (p : Prop) [Decidable p] (m : Byte) (k : Nat) :
    (if p then m else 0).getLsbD k = (decide p && m.getLsbD k) := by
  by_cases hp : p <;> simp [hp]

/-- The status byte is five masks, each with one bit, under five conditions. -/
theorem getLsbD_apuStatus (a : Apu) (k : Nat) :
    (apuStatus a).getLsbD k =
      (decide (a.pulse1.length ≠ 0) && (0x01#8).getLsbD k || decide (a.pulse2.length ≠ 0) && (0x02#8).getLsbD k ||
        decide (a.triangle.length ≠ 0) && (0x04#8).getLsbD k || decide (a.noise.length ≠ 0) && (0x08#8).getLsbD k ||
        a.frameIrq && (0x40#8).getLsbD k) := by
  simp only [apuStatus, BitVec.getLsbD_or, getLsbD_mask, Bool.decide_eq_true]
  rfl

/-- The eight bits of the status byte (R910). -/
theorem apuStatus_bits (a : Apu) :
    (apuStatus a).getLsbD 0 = decide (a.pulse1.length ≠ 0) ∧ (apuStatus a).getLsbD 1 = decide (a.pulse2.length ≠ 0) ∧
    (apuStatus a).getLsbD 2 = decide (a.triangle.length ≠ 0) ∧ (apuStatus a).getLsbD 3 = decide (a.noise.length ≠ 0) ∧
    (apuStatus a).getLsbD 4 = false ∧ (apuStatus a).getLsbD 5 = false ∧ (apuStatus a).getLsbD 6 = a.frameIrq ∧
    (apuStatus a).getLsbD 7 = false := by
  simp only [getLsbD_apuStatus]
  simp

/-! ## The status after a write of the enables -/

/-- A channel whose enable bit is written 0 has length 0, so its status bit is 0 (R909, R910). -/
theorem apuStatus_writeEnables (a : Apu) {d : Byte} {k : Nat} (hk : k < 4) (hd : d.getLsbD k = false) :
    (apuStatus (writeEnables d a)).getLsbD k = false := by
  obtain ⟨h0, h1, h2, h3, -⟩ := apuStatus_bits (writeEnables d a)
  have gate (length : Byte) : decide (lengthGate (d.getLsbD k) length ≠ 0) = false := by simp [lengthGate, hd]
  match k with
  | 0 => exact h0.trans (gate a.pulse1.length)
  | 1 => exact h1.trans (gate a.pulse2.length)
  | 2 => exact h2.trans (gate a.triangle.length)
  | 3 => exact h3.trans (gate a.noise.length)

/-- Settles O58: the two accesses are the APU's (`busRead_apuStatus`, `busWrite_apuEnables`), the status byte has its
eight bits (`apuStatus_bits`), and a disabled channel's is 0 after the write (`apuStatus_writeEnables`). -/
theorem apuStatusReflectsLengths : Obligations.ApuStatusReflectsLengths := by
  intro s d
  dsimp only
  obtain ⟨h0, h1, h2, h3, h4, h5, h6, h7⟩ := apuStatus_bits s.apu
  rw [busWrite_apuEnables, busRead_apuStatus, busRead_apuStatus]
  exact ⟨h0, h1, h2, h3, h4, h5, h6, h7, rfl, rfl, fun _ hk hd => apuStatus_writeEnables s.apu hk hd⟩

end Sys2Proof.Machine
end

section
/-! The decoder and the encoder (spec/30 R300 to R302, R340, R350, R390). An instruction is its mnemonic, its mode and
its operand bytes: the table gives the first two back for the instruction's opcode byte, and `instrOf` puts the three
together again. In the other direction the shape of `instrOf op lo hi` does not depend on `lo` and `hi`, so one check of
the 256 opcode bytes covers every operand. -/

namespace Sys2Proof.Machine

/-! ## The mnemonic and the mode of an instruction -/

/-- The mode of a memory operand. -/
def memMode : Mem → Mode
  | .zp _ => .zeropage
  | .zpX _ => .zeropageX
  | .zpY _ => .zeropageY
  | .abs _ => .absolute
  | .absX _ => .absoluteX
  | .absY _ => .absoluteY
  | .indX _ => .indexedIndirectX
  | .indY _ => .indirectIndexedY

/-- The mode of an operand that is read. -/
def srcMode : Src → Mode
  | .imm _ => .immediate
  | .mem m => memMode m

/-- The mode of an operand that is read and written back. -/
def rmwMode : Rmw → Mode
  | .acc => .implied
  | .mem m => memMode m

/-- The mode of JMP's operand. -/
def jmpMode : JmpTarget → Mode
  | .abs _ => .absolute
  | .ind _ => .indirect

/-- The mode of an instruction. -/
def instrMode : Instr → Mode
  | .lda o | .ldx o | .ldy o | .adc o | .sbc o | .cmp o | .cpx o | .cpy o | .and o | .ora o | .eor o => srcMode o
  | .sta m | .stx m | .sty m | .bit m | .inc m | .dec m => memMode m
  | .asl o | .lsr o | .rol o | .ror o => rmwMode o
  | .jmp t => jmpMode t
  | .jsr _ => .absolute
  | .bcc _ | .bcs _ | .beq _ | .bmi _ | .bne _ | .bpl _ | .bvc _ | .bvs _ => .relative
  | .tax | .tay | .txa | .tya | .tsx | .txs | .pha | .php | .pla | .plp
  | .inx | .iny | .dex | .dey | .rts | .rti | .brk
  | .clc | .sec | .cli | .sei | .cld | .sed | .clv | .nop | .illegal _ => .implied

/-- The mnemonic of an instruction. -/
def instrMnemonic : Instr → Mnemonic
  | .lda _ => .lda | .ldx _ => .ldx | .ldy _ => .ldy | .sta _ => .sta | .stx _ => .stx | .sty _ => .sty
  | .tax => .tax | .tay => .tay | .txa => .txa | .tya => .tya | .tsx => .tsx | .txs => .txs
  | .pha => .pha | .php => .php | .pla => .pla | .plp => .plp
  | .adc _ => .adc | .sbc _ => .sbc | .cmp _ => .cmp | .cpx _ => .cpx | .cpy _ => .cpy
  | .inc _ => .inc | .inx => .inx | .iny => .iny | .dec _ => .dec | .dex => .dex | .dey => .dey
  | .and _ => .and | .ora _ => .ora | .eor _ => .eor | .bit _ => .bit
  | .asl _ => .asl | .lsr _ => .lsr | .rol _ => .rol | .ror _ => .ror
  | .jmp _ => .jmp | .jsr _ => .jsr | .rts => .rts | .rti => .rti | .brk => .brk
  | .bcc _ => .bcc | .bcs _ => .bcs | .beq _ => .beq | .bmi _ => .bmi
  | .bne _ => .bne | .bpl _ => .bpl | .bvc _ => .bvc | .bvs _ => .bvs
  | .clc => .clc | .sec => .sec | .cli => .cli | .sei => .sei | .cld => .cld | .sed => .sed | .clv => .clv
  | .nop => .nop | .illegal _ => .illegal

/-- The illegal bytes are those whose table entry is the illegal no-op (R390). -/
theorem illegalByte_iff : ∀ op : Byte, illegalByte op = true ↔ (descriptor op).op = .illegal := by decide +revert

/-- The illegal no-op takes no operand (R390). -/
theorem descriptor_illegal_mode (op : Byte) (h : illegalByte op = true) : (descriptor op).mode = .implied := by
  have hcount : (descriptor op).mode.operandBytes = 0 := Sys2Proof.Laws.EncodedLength.illegal_operandCount op h
  revert hcount
  cases (descriptor op).mode <;> decide

/-- An instruction's opcode byte has the entry of its mnemonic and its mode in the table (R302, R350). -/
theorem descriptor_of_opcode {i : Instr} {op : Byte} (hwf : i.wf = true) (hop : i.opcode = some op) :
    (descriptor op).op = instrMnemonic i ∧ (descriptor op).mode = instrMode i := by
  cases i
  case illegal b =>
    cases hop
    exact ⟨(illegalByte_iff op).mp hwf, descriptor_illegal_mode op hwf⟩
  case jmp t =>
    cases t <;> cases hop <;> exact ⟨rfl, rfl⟩
  case lda o | ldx o | ldy o | adc o | sbc o | cmp o | cpx o | cpy o | and o | ora o | eor o =>
    obtain b | m := o
    · cases hop
      exact ⟨rfl, rfl⟩
    · cases m <;> cases hop <;> exact ⟨rfl, rfl⟩
  case sta m | stx m | sty m | bit m | inc m | dec m =>
    cases m <;> cases hop <;> exact ⟨rfl, rfl⟩
  case asl o | lsr o | rol o | ror o =>
    obtain _ | m := o
    · cases hop
      exact ⟨rfl, rfl⟩
    · cases m <;> cases hop <;> exact ⟨rfl, rfl⟩
  all_goals
    cases hop
    exact ⟨rfl, rfl⟩

/-- A well-formed instruction has an opcode byte. -/
theorem exists_opcode {i : Instr} (hwf : i.wf = true) : ∃ op, i.opcode = some op := by
  cases i
  case jmp t => exact ⟨_, rfl⟩
  case lda o | ldx o | ldy o | adc o | sbc o | cmp o | cpx o | cpy o | and o | ora o | eor o =>
    obtain b | m := o
    · exact ⟨_, rfl⟩
    · cases m <;> cases hwf <;> exact ⟨_, rfl⟩
  case sta m | stx m | sty m | bit m | inc m | dec m =>
    cases m <;> cases hwf <;> exact ⟨_, rfl⟩
  case asl o | lsr o | rol o | ror o =>
    obtain _ | m := o
    · exact ⟨_, rfl⟩
    · cases m <;> cases hwf <;> exact ⟨_, rfl⟩
  all_goals exact ⟨_, rfl⟩

/-! ## Operand bytes -/

/-- Byte `k` of a list of operand bytes, 0 when there is none. -/
def operandByte (l : List Byte) (k : Nat) : Byte := l.getD k 0

/-- A memory operand is its mode with its bytes. -/
theorem memOf_bytes (m : Mem) : memOf (memMode m) (operandByte m.bytes 0) (operandByte m.bytes 1) = m := by
  cases m <;> simp [memMode, memOf, Mem.bytes, wordBytes, operandByte]

theorem srcOf_bytes (o : Src) : srcOf (srcMode o) (operandByte o.bytes 0) (operandByte o.bytes 1) = o := by
  obtain b | m := o
  · rfl
  · have h := memOf_bytes m
    cases m <;> exact congrArg Src.mem h

theorem rmwOf_bytes (o : Rmw) : rmwOf (rmwMode o) (operandByte o.bytes 0) (operandByte o.bytes 1) = o := by
  obtain _ | m := o
  · rfl
  · have h := memOf_bytes m
    cases m <;> exact congrArg Rmw.mem h

theorem jmpOf_bytes (t : JmpTarget) :
    jmpOf (jmpMode t) (operandByte (Instr.jmp t).operandBytes 0) (operandByte (Instr.jmp t).operandBytes 1) = t := by
  cases t <;> simp [jmpMode, jmpOf, Instr.operandBytes, wordBytes, operandByte]

/-- A mode takes as many bytes as its operand has. -/
theorem memBytes_length (m : Mem) : m.bytes.length = (memMode m).operandBytes := by cases m <;> rfl

theorem operandBytes_length (i : Instr) : i.operandBytes.length = (instrMode i).operandBytes := by
  cases i
  case jmp t => cases t <;> rfl
  case lda o | ldx o | ldy o | adc o | sbc o | cmp o | cpx o | cpy o | and o | ora o | eor o =>
    obtain b | m := o
    · rfl
    · exact memBytes_length m
  case sta m | stx m | sty m | bit m | inc m | dec m => exact memBytes_length m
  case asl o | lsr o | rol o | ror o =>
    obtain _ | m := o
    · rfl
    · exact memBytes_length m
  all_goals rfl

/-- The mnemonic, the mode and the operand bytes of an instruction give it back. -/
theorem instrOf_operandBytes {i : Instr} {op : Byte} (hop : i.opcode = some op)
    (hmn : (descriptor op).op = instrMnemonic i) (hmode : (descriptor op).mode = instrMode i) :
    instrOf op (operandByte i.operandBytes 0) (operandByte i.operandBytes 1) = i := by
  unfold instrOf
  dsimp only
  rw [hmn, hmode]
  cases i
  case illegal b =>
    cases hop
    rfl
  case jmp t => exact congrArg Instr.jmp (jmpOf_bytes t)
  case jsr a => exact congrArg Instr.jsr (hiLo_hiByte_loByte a)
  case lda o | ldx o | ldy o | adc o | sbc o | cmp o | cpx o | cpy o | and o | ora o | eor o =>
    exact congrArg _ (srcOf_bytes o)
  case sta m | stx m | sty m | bit m | inc m | dec m => exact congrArg _ (memOf_bytes m)
  case asl o | lsr o | rol o | ror o => exact congrArg _ (rmwOf_bytes o)
  all_goals rfl

/-! ## The decoder -/

theorem operandCount_le (op : Byte) : operandCount op ≤ 2 := by
  unfold operandCount
  cases (descriptor op).mode <;> decide

/-- The decoder on an opcode byte that is followed by its operand bytes. -/
theorem decode_cons {op : Byte} {args : List Byte} (rest : List Byte) (hlen : args.length = operandCount op) :
    decode (op :: (args ++ rest)) = .ok (instrOf op (operandByte args 0) (operandByte args 1), rest) := by
  have hle := operandCount_le op
  match args with
  | [] | [_] | [_, _] => simp only [decode, ← hlen]; rfl
  | _ :: _ :: _ :: _ =>
    simp only [List.length_cons] at hlen
    omega

/-- Everything the decoder can read: an opcode byte, and then its operand bytes. -/
theorem decode_cases {bytes rest : List Byte} {i : Instr} (h : decode bytes = .ok (i, rest)) :
    ∃ op args, bytes = op :: (args ++ rest) ∧ args.length = operandCount op ∧
      i = instrOf op (operandByte args 0) (operandByte args 1) := by
  unfold decode at h
  split at h
  · cases h
  · next op tail =>
    split at h
    · next hcount =>
      cases h
      exact ⟨op, [], rfl, hcount.symm, rfl⟩
    · next lo _ hcount =>
      cases h
      exact ⟨op, [lo], rfl, hcount.symm, rfl⟩
    · next lo hi _ hcount =>
      cases h
      exact ⟨op, [lo, hi], rfl, hcount.symm, rfl⟩
    · cases h

/-- Settles O1: the table gives the mnemonic and the mode of the instruction back for its opcode byte
(`descriptor_of_opcode`), so its operand bytes are as many as the decoder takes (`decode_cons`), and with them the
instruction is whole again (`instrOf_operandBytes`). -/
theorem decodeUndoesEncode : Obligations.DecodeUndoesEncode := by
  intro i rest hwf
  obtain ⟨op, hop⟩ := exists_opcode hwf
  obtain ⟨hmn, hmode⟩ := descriptor_of_opcode hwf hop
  have hlen : i.operandBytes.length = operandCount op := by rw [operandBytes_length, operandCount, hmode]
  have henc : encode i = op :: i.operandBytes := by rw [encode, hop]
  rw [henc, List.cons_append, decode_cons rest hlen, instrOf_operandBytes hop hmn hmode]

/-! ## What an opcode byte decodes to -/

/-- The form of what is decoded does not depend on the operand bytes. -/
theorem wf_instrOf (op lo hi : Byte) : (instrOf op lo hi).wf = (instrOf op 0 0).wf := by
  unfold instrOf
  obtain ⟨mn, mode, base⟩ := descriptor op
  cases mn
  case lda | ldx | ldy | sta | stx | sty | adc | sbc | cmp | cpx | cpy | inc | dec | and | ora | eor | bit | asl | lsr |
      rol | ror | jmp =>
    dsimp only
    cases mode <;> rfl
  all_goals rfl

/-- Nor does its opcode byte. -/
theorem opcode_instrOf (op lo hi : Byte) : (instrOf op lo hi).opcode = (instrOf op 0 0).opcode := by
  unfold instrOf
  obtain ⟨mn, mode, base⟩ := descriptor op
  cases mn
  case lda | ldx | ldy | sta | stx | sty | adc | sbc | cmp | cpx | cpy | inc | dec | and | ora | eor | bit | asl | lsr |
      rol | ror | jmp =>
    dsimp only
    cases mode <;> rfl
  all_goals rfl

/-- The two bytes read come back from the word that they make. -/
theorem wordBytes_hiLo (lo hi : Byte) : wordBytes (hiLo hi lo) = [lo, hi] := by simp [wordBytes]

/-- The operand bytes of what is decoded are the first of the bytes read; their number does not depend on them. -/
theorem memOf_take (mode : Mode) (lo hi : Byte) :
    (memOf mode lo hi).bytes = [lo, hi].take (memOf mode 0 0).bytes.length := by
  cases mode
  case absolute | absoluteX | absoluteY => exact wordBytes_hiLo lo hi
  all_goals rfl

theorem srcOf_take (mode : Mode) (lo hi : Byte) :
    (srcOf mode lo hi).bytes = [lo, hi].take (srcOf mode 0 0).bytes.length := by
  have hmem := memOf_take mode lo hi
  cases mode
  case immediate => rfl
  all_goals exact hmem

theorem rmwOf_take (mode : Mode) (lo hi : Byte) :
    (rmwOf mode lo hi).bytes = [lo, hi].take (rmwOf mode 0 0).bytes.length := by
  have hmem := memOf_take mode lo hi
  cases mode
  case implied => rfl
  all_goals exact hmem

theorem operandBytes_instrOf (op lo hi : Byte) :
    (instrOf op lo hi).operandBytes = [lo, hi].take (instrOf op 0 0).operandBytes.length := by
  unfold instrOf
  obtain ⟨mn, mode, base⟩ := descriptor op
  cases mn
  case lda | ldx | ldy | adc | sbc | cmp | cpx | cpy | and | ora | eor => exact srcOf_take mode lo hi
  case sta | stx | sty | bit | inc | dec => exact memOf_take mode lo hi
  case asl | lsr | rol | ror => exact rmwOf_take mode lo hi
  case jmp =>
    dsimp only
    cases mode <;> exact wordBytes_hiLo lo hi
  case jsr => exact wordBytes_hiLo lo hi
  all_goals rfl

/-- The table, entry by entry: what an opcode byte decodes to is well-formed, has that opcode byte, and has as many
operand bytes as the byte's mode takes (R302, R350). -/
theorem instrOf_wf : ∀ op : Byte, (instrOf op 0 0).wf = true := by decide +revert

theorem instrOf_opcode : ∀ op : Byte, (instrOf op 0 0).opcode = some op := by decide +revert

theorem instrOf_length : ∀ op : Byte, (instrOf op 0 0).operandBytes.length = operandCount op := by decide +revert

/-- What is decoded is well-formed, and its bytes are the ones read. -/
theorem encode_instrOf (op lo hi : Byte) :
    (instrOf op lo hi).wf = true ∧ (instrOf op lo hi).opcode = some op ∧
      encode (instrOf op lo hi) = op :: [lo, hi].take (operandCount op) := by
  have hop : (instrOf op lo hi).opcode = some op := by rw [opcode_instrOf, instrOf_opcode]
  refine ⟨by rw [wf_instrOf, instrOf_wf], hop, ?_⟩
  rw [encode, hop, operandBytes_instrOf, instrOf_length]

/-- At most two operand bytes are these bytes, padded and cut to their number. -/
theorem take_operandBytes {args : List Byte} (h : args.length ≤ 2) :
    [operandByte args 0, operandByte args 1].take args.length = args := by
  match args with
  | [] | [_] | [_, _] => rfl
  | _ :: _ :: _ :: _ =>
    simp only [List.length_cons] at h
    omega

/-- Settles O2: the decoder reads an opcode byte and its operand bytes (`decode_cases`), and what it makes of them
encodes to these bytes (`encode_instrOf`). -/
theorem encodeUndoesDecode : Obligations.EncodeUndoesDecode := by
  intro bytes i rest h
  obtain ⟨op, args, rfl, hlen, rfl⟩ := decode_cases h
  obtain ⟨hwf, -, henc⟩ := encode_instrOf op (operandByte args 0) (operandByte args 1)
  have hle : args.length ≤ 2 := hlen ▸ operandCount_le op
  rw [henc, ← hlen, take_operandBytes hle]
  exact ⟨hwf, rfl⟩

/-- What is decoded is an illegal no-op exactly when the table says so, and it keeps the opcode byte (R390). -/
theorem instrOf_eq_illegal_iff (op lo hi op' : Byte) :
    instrOf op lo hi = .illegal op' ↔ (descriptor op).op = .illegal ∧ op' = op := by
  unfold instrOf
  obtain ⟨mn, mode, base⟩ := descriptor op
  cases mn
  case illegal => simp [eq_comm]
  all_goals simp

/-- Settles O3: the opcode byte decides how many bytes are taken (`operandCount_le`, `decode_cons`), and the table says
which bytes are illegal (`instrOf_eq_illegal_iff`, `illegalByte_iff`). -/
theorem everyOpcodeByteDecodes : Obligations.EveryOpcodeByteDecodes := by
  intro op lo hi rest
  have hle := operandCount_le op
  have hlen : ([lo, hi].take (operandCount op)).length = operandCount op := by simp [hle]
  have hsplit : [lo, hi].take (operandCount op) ++ (lo :: hi :: rest).drop (operandCount op) = lo :: hi :: rest := by
    interval_cases operandCount op <;> rfl
  have hdec := decode_cons ((lo :: hi :: rest).drop (operandCount op)) hlen
  rw [hsplit] at hdec
  exact ⟨_, hdec, hle, by rw [instrOf_eq_illegal_iff, illegalByte_iff]; simp,
    fun op' h => ((instrOf_eq_illegal_iff op _ _ op').mp h).2⟩

/-- Settles O4: the nine words are evaluated. -/
theorem sampleWordsDecode : Obligations.SampleWordsDecode := by
  unfold Obligations.SampleWordsDecode
  decide

/-! ## The cycle count -/

/-- The base count of an instruction by its opcode byte: the parameter for an illegal one, else the table's (R340,
R390). -/
theorem baseCycles_eq {i : Instr} {op : Byte} (hwf : i.wf = true) (hop : i.opcode = some op) (q : Params) :
    i.baseCycles q = if illegalByte op = true then q.illegalCount op else (descriptor op).base := by
  have hmn : illegalByte op = true ↔ instrMnemonic i = .illegal := by
    rw [illegalByte_iff, (descriptor_of_opcode hwf hop).1]
  cases i
  case illegal b =>
    cases hop
    rw [if_pos (hmn.mpr rfl)]
    rfl
  all_goals
    rw [if_neg (fun h => by cases hmn.mp h)]
    simp only [Instr.baseCycles, hop]

/-- R341's list by mnemonics. -/
theorem opExtra_iff (i : Instr) :
    i.opExtra = true ↔ instrMnemonic i ∈ [Mnemonic.adc, .and, .cmp, .eor, .lda, .ldx, .ldy, .ora, .sbc] := by
  cases i <;> simp [Instr.opExtra, instrMnemonic]

/-- Settles O5: `charge` adds the base count (`baseCycles_eq`), a cycle when both hints are set (`opExtra_iff`) and the
branch's cycles. -/
theorem cycleCountCombinesTheHints : Obligations.CycleCountCombinesTheHints := by
  intro i op extra s hwf hop
  obtain ⟨hmn, -⟩ := descriptor_of_opcode hwf hop
  simp only [charge_cpu_cycles, baseCycles_eq hwf hop, hmn, Bool.and_eq_true, opExtra_iff]

end Sys2Proof.Machine
end

section
/-! The interrupts at the end of a tick and their entry (spec/60 R710, R715, R720, R750), and BRK, which shares the
entry (spec/44 R605). The three pushed bytes lie in three cells of page 1, whatever SP is. -/

namespace Sys2Proof.Machine

/-! ## The frame an entry leaves -/

/-- SP after two and after three pushes, as one difference. -/
theorem sub_two_eq (b : Byte) : b - 2 = b - 1 - 1 := by bv_omega
theorem sub_three_eq (b : Byte) : b - 3 = b - 1 - 1 - 1 := by bv_omega

/-- The RAM an entry leaves: the two bytes of `ret` and a status byte below SP. -/
def entryRam (s : State) (ret : Word) (status : Byte) : Cells 8 :=
  cellSet (cellSet (cellSet s.ram (0x100 + s.cpu.sp.toNat) (hiByte ret)) (0x100 + (s.cpu.sp - 1).toNat) (loByte ret))
    (0x100 + (s.cpu.sp - 2).toNat) status

/-- A byte of CPU RAM after an entry: the last cell written is the first that counts. -/
theorem byteAt_entryRam (s : State) (ret : Word) (status : Byte) (k : Nat) :
    byteAt .cpuRam (entryRam s ret status) k =
      if k = 0x100 + (s.cpu.sp - 2).toNat then status
      else if k = 0x100 + (s.cpu.sp - 1).toNat then loByte ret
      else if k = 0x100 + s.cpu.sp.toNat then hiByte ret else ramAt s k := by
  simp only [entryRam, byteAt_cellSet, ramAt]

/-- The status byte in the frame. -/
theorem entryRam_status (s : State) (ret : Word) (status : Byte) :
    byteAt .cpuRam (entryRam s ret status) (0x100 + (s.cpu.sp - 2).toNat) = status := by
  rw [byteAt_entryRam, if_pos rfl]

/-- The low byte of the return address in the frame. -/
theorem entryRam_lo (s : State) (ret : Word) (status : Byte) :
    byteAt .cpuRam (entryRam s ret status) (0x100 + (s.cpu.sp - 1).toNat) = loByte ret := by
  have hne : (s.cpu.sp - 1).toNat ≠ (s.cpu.sp - 2).toNat := by bv_omega
  rw [byteAt_entryRam, if_neg (by omega), if_pos rfl]

/-- The high byte of the return address in the frame. -/
theorem entryRam_hi (s : State) (ret : Word) (status : Byte) :
    byteAt .cpuRam (entryRam s ret status) (0x100 + s.cpu.sp.toNat) = hiByte ret := by
  have hne1 : s.cpu.sp.toNat ≠ (s.cpu.sp - 1).toNat := by bv_omega
  have hne2 : s.cpu.sp.toNat ≠ (s.cpu.sp - 2).toNat := by bv_omega
  rw [byteAt_entryRam, if_neg (by omega), if_neg (by omega), if_pos rfl]

/-- The entry of NMI and IRQ with its frame (R720). -/
theorem enterInterrupt_frame (s : State) {vector : Word} (h : vector = nmiVector ∨ vector = irqVector) :
    enterInterrupt vector s =
      { s with
        ram := entryRam s s.cpu.pc (pushedStatus false s.cpu.p)
        cpu :=
          { s.cpu with
            sp := s.cpu.sp - 3
            p := setFlag .i true s.cpu.p
            pc := vectorWord s vector
            cycles := 7 } } := by
  rw [enterInterrupt_eq s h, entryRam, sub_two_eq, sub_three_eq]

/-- Setting I keeps every other flag. -/
theorem flagsKeptBut_setFlag (f : Flag) (v : Bool) (p : Byte) : flagsKeptBut [f] p (setFlag f v p) := by
  intro g hg
  exact getFlag_setFlag_other v p (by simpa using hg)

/-- Settles O44: the entry as one update (`enterInterrupt_frame`) and its three bytes (`byteAt_entryRam`). -/
theorem interruptEntryFrame : Obligations.InterruptEntryFrame := by
  intro s vector h
  dsimp only
  rw [enterInterrupt_frame s h]
  refine ⟨rfl, getFlag_setFlag_same _ _ _, flagsKeptBut_setFlag _ _ _, rfl, fun k => ?_⟩
  refine (byteAt_entryRam s _ _ k).trans ?_
  simp [pushedStatus]

/-! ## BRK -/

theorem brk_form : form .brk [0x00] 7 := ⟨rfl, fun _ => rfl⟩

/-- BRK ends with the entry's frame, the pc plus 1 in it, and P pushed with bits 4 and 5 set (R605). -/
theorem exec_brk (s : State) :
    exec .brk s = .next (charge .brk 0
      { s with
        ram := entryRam s (s.cpu.pc + 1) (pushedStatus true s.cpu.p)
        cpu :=
          { (implied s).cpu with
            sp := s.cpu.sp - 3
            p := setFlag .i true s.cpu.p
            pc := vectorWord s irqVector } }) := by
  have hvector : vectorWord (implied s) irqVector = vectorWord s irqVector :=
    vectorWord_of_cart (by decide) (by decide) rfl
  simp only [exec, execBrk]
  rw [enterFrom_eq _ _ _ _ (by decide) (by decide), hvector, entryRam, sub_two_eq, sub_three_eq]
  rfl

/-- The byte BRK pushes is P with bits 4 and 5 set (R106, R605). -/
theorem pushedStatus_true (p : Byte) : pushedStatus true p = p ||| 0x30 := by
  revert p
  decide

/-- Settles O40: BRK is the shared entry (`exec_brk`), its three bytes those of any entry (`byteAt_entryRam`). -/
theorem brkEntersThroughIrqVector : Obligations.BrkEntersThroughIrqVector := by
  refine ⟨brk_form, fun s => ⟨_, exec_brk s, rfl, getFlag_setFlag_same _ _ _, flagsKeptBut_setFlag _ _ _, rfl, rfl,
    fun k => ?_⟩⟩
  rw [← pushedStatus_true]
  exact byteAt_entryRam s _ _ k

/-! ## RTI after an entry, RTS after JSR -/

/-- The byte pushed by an entry gives the live P back when bit 4 was clear and bit 5 set (R106, R604). -/
theorem livePulled_pushedStatus {p : Byte} (h : statusOk p = true) : livePulled (pushedStatus false p) = p := by
  simp only [statusOk, Bool.and_eq_true, Bool.not_eq_true'] at h
  obtain ⟨hu, hb⟩ := h
  refine status_ext fun g => ?_
  rw [getFlag_livePulled, getFlag_pushedStatus]
  cases g <;> simp [hu, hb]

/-- Settles O45: RTI pulls the three bytes of the frame (`exec_rti`, `entryRam_status`, `entryRam_lo`, `entryRam_hi`),
and the pulled status is the one pushed (`livePulled_pushedStatus`). -/
theorem rtiUndoesInterruptEntry : Obligations.RtiUndoesInterruptEntry := by
  intro s t vector hv hp h
  have h1 : s.cpu.sp - 3 + 1 = s.cpu.sp - 2 := by bv_omega
  have h2 : s.cpu.sp - 3 + 2 = s.cpu.sp - 1 := by bv_omega
  have h3 : s.cpu.sp - 3 + 3 = s.cpu.sp := by bv_omega
  rw [exec_rti, enterInterrupt_frame s hv] at h
  cases h
  simp only [ramAt, finish, charge_cpu_pc, charge_cpu_p, charge_cpu_sp, charge_cpu_a, charge_cpu_x, charge_cpu_y,
    latched, h1, h2, h3, entryRam_status, entryRam_lo, entryRam_hi, livePulled_pushedStatus hp, hiLo_hiByte_loByte,
    and_self]

/-- The state JSR leaves. -/
def afterJsr (w : Word) (s : State) : State :=
  charge (.jsr w) 0 ((pushWord (s.setEa w false) (s.cpu.pc - 1)).setPc w)

/-- SP after JSR, and the word above it: JSR's own last byte (R602). -/
theorem afterJsr_stack (w : Word) (s : State) :
    (afterJsr w s).cpu.sp = s.cpu.sp - 2 ∧
    hiLo (ramAt (afterJsr w s) (0x100 + s.cpu.sp.toNat)) (ramAt (afterJsr w s) (0x100 + (s.cpu.sp - 1).toNat)) =
      s.cpu.pc - 1 := by
  have hne : (s.cpu.sp - 1).toNat ≠ s.cpu.sp.toNat := by bv_omega
  have hram (k : Nat) : ramAt (afterJsr w s) k = ramAt (pushWord (s.setEa w false) (s.cpu.pc - 1)) k := rfl
  constructor
  · simp only [afterJsr, charge_cpu_sp, setPc_cpu_sp, pushWord_eq, setEa_cpu_sp, sub_two_eq]
  · rw [hram, hram, ramAt_pushWord, ramAt_pushWord, setEa_cpu_sp, if_pos rfl, if_neg (by omega), if_pos rfl,
      hiLo_hiByte_loByte]

/-- Settles O38: RTS pulls the word that JSR pushed (`exec_rts`, `afterJsr_stack`), and adds the 1 that JSR took off. -/
theorem rtsReturnsFromJsr : Obligations.RtsReturnsFromJsr := by
  intro s t u w ht hu
  obtain ⟨hsp, hword⟩ := afterJsr_stack w s
  have h1 : s.cpu.sp - 2 + 1 = s.cpu.sp - 1 := by bv_omega
  have h2 : s.cpu.sp - 2 + 2 = s.cpu.sp := by bv_omega
  have hpc : s.cpu.pc - 1 + 1 = s.cpu.pc := by bv_omega
  have hjsr : exec (.jsr w) s = .next (afterJsr w s) := exec_jsr w s
  rw [hjsr] at ht
  cases ht
  rw [exec_rts, hsp, h1, h2, hword, hpc] at hu
  cases hu
  refine ⟨rfl, rfl, ?_⟩
  simp [finish, latched, afterJsr, pushWord_eq]

/-! ## The checks at the end of a tick -/

/-- Interrupts can be serviced with DMA idle and the CPU between instructions. -/
theorem atBoundary_iff (s : State) : atBoundary s = true ↔ s.dma.active = false ∧ s.cpu.cycles = 0 := by
  simp [atBoundary]

/-- Right after an entry no interrupt is serviced: its 7 cycles are to be counted (R720, R740). -/
theorem irqCheck_of_cycles {s : State} (h : s.cpu.cycles ≠ 0) : irqCheck s = s := by
  simp [irqCheck, atBoundary, h]

/-- An entry counts no tick. -/
theorem enterInterrupt_masterTick (s : State) {vector : Word} (h : vector = nmiVector ∨ vector = irqVector) :
    (enterInterrupt vector s).masterTick = s.masterTick := by
  rw [enterInterrupt_frame s h]

/-- An NMI is taken under its three conditions (R710). -/
theorem nmiCheck_eq (s : State) :
    nmiCheck s =
      if s.nmiPending = true ∧ s.dma.active = false ∧ s.cpu.cycles = 0 then
        { enterInterrupt nmiVector s with nmiPending := false }
      else s := by
  simp only [nmiCheck, Bool.and_eq_true, atBoundary_iff]

/-- An IRQ is taken under its four conditions (R715). -/
theorem irqCheck_eq (s : State) :
    irqCheck s =
      if s.irqLine = true ∧ s.dma.active = false ∧ s.cpu.cycles = 0 ∧ getFlag .i s.cpu.p = false then
        enterInterrupt irqVector s
      else s := by
  simp only [irqCheck, Bool.and_eq_true, atBoundary_iff, Bool.not_eq_true', and_assoc]

/-- Settles O46: by the two checks' conditions (`nmiCheck_eq`, `irqCheck_eq`); after an NMI the IRQ check does nothing
(`irqCheck_of_cycles`). -/
theorem interruptServiceConditions : Obligations.InterruptServiceConditions := by
  intro s
  unfold endTick
  rw [nmiCheck_eq]
  by_cases hn : s.nmiPending = true ∧ s.dma.active = false ∧ s.cpu.cycles = 0
  · rw [if_pos hn, if_pos hn, irqCheck_of_cycles]
    · simp only [enterInterrupt_masterTick s (.inl rfl)]
    · simp [enterInterrupt]
  · rw [if_neg hn, if_neg hn, irqCheck_eq]
    split
    · simp only [enterInterrupt_masterTick s (.inr rfl)]
    · rfl

end Sys2Proof.Machine
end

section
/-! What every step keeps: the machine's invariant, the program ROM, the host's inputs, and the counts of ticks
(spec/10 section 4, spec/61 R801, spec/62 R901, spec/63 R1001, R1042). The invariant has two parts. The ranges of the
units and the memories are kept by every bus access and every clock (`step_keeps`); the CPU's part is not a matter of
single accesses but of whole instructions, each of which leaves the live status bits and a count of at most 8. -/

namespace Sys2Proof.Machine

/-! ## The units' part of the invariant -/

/-- The ranges of the PPU. -/
def ppuOk (p : Ppu) : Prop := rasterOk p = true ∧ spritesOk p = true ∧ ppuStatusOk p = true

theorem ppuOk_cpuRead (c : Cart) {p : Ppu} (r : Nat) (h : ppuOk p) : ppuOk (ppuCpuRead c p r).2 := by
  obtain ⟨hraster, hsprites, hstatus⟩ := h
  obtain ⟨hline, hdot, hslots, hcount, hkeep⟩ := ppuCpuRead_ok c p r
  exact ⟨by simpa only [rasterOk, hline, hdot] using hraster, by simpa only [spritesOk, hslots, hcount] using hsprites,
    hkeep hstatus⟩

theorem ppuOk_cpuWrite (c : Cart) {p : Ppu} (r : Nat) (d : Byte) (h : ppuOk p) : ppuOk (ppuCpuWrite c p r d).2 := by
  obtain ⟨hraster, hsprites, hstatus⟩ := h
  obtain ⟨hline, hdot, hslots, hcount, hkeep⟩ := ppuCpuWrite_ok c p r d
  exact ⟨by simpa only [rasterOk, hline, hdot] using hraster, by simpa only [spritesOk, hslots, hcount] using hsprites,
    by simpa only [ppuStatusOk, hkeep] using hstatus⟩

theorem ppuOk_dot (c : Cart) {p : Ppu} (h : ppuOk p) : ppuOk (ppuDot c p) := by
  obtain ⟨hraster, hsprites, hstatus⟩ := h
  exact ⟨ppuDot_rasterOk c hraster, ppuDot_spritesOk c hsprites, ppuDot_statusOk c hstatus⟩

/-- A serial write leaves at most four bits shifted in: the fifth is committed (R1042). -/
theorem mapper1Serial_srCount {m : Mapper1} (addr : Nat) (d : Byte) (h : m.srCount ≤ 4) :
    (mapper1Serial m addr d).srCount ≤ 4 := by
  unfold mapper1Serial
  split
  · exact Nat.zero_le 4
  · dsimp only
    split
    · unfold mapper1Commit
      dsimp only
      split <;> exact Nat.zero_le 4
    · dsimp only
      omega

/-- Everything a CPU write to the cartridge can do: nothing, one serial write, or one cell of PRG-RAM. -/
theorem cartCpuWrite_cases {c c' : Cart} {n : Nat} {d : Byte} (h : cartCpuWrite c n d = some c') :
    c' = c ∨ ∃ m, c = .serial m ∧
      (c' = .serial (mapper1Serial m n d) ∨ c' = .serial { m with prgRam := cellSet m.prgRam (n % 0x2000) d }) := by
  cases c with
  | empty _ => cases h
  | fixed m =>
    simp only [cartCpuWrite, Option.ite_none_right_eq_some] at h
    obtain ⟨-, ⟨⟩⟩ := h
    exact .inl rfl
  | serial m =>
    simp only [cartCpuWrite] at h
    split at h
    · cases h
      exact .inr ⟨m, rfl, .inl rfl⟩
    · split at h
      · cases h
        exact .inr ⟨m, rfl, .inr rfl⟩
      · cases h

/-- Everything a write of the PPU's bus to the cartridge can do: nothing, or a change of mapper 1's CHR contents. -/
theorem cartPpuWrite_cases {c c' : Cart} {a : Nat} {d : Byte} (h : cartPpuWrite c a d = some c') :
    c' = c ∨ ∃ m chr, c = .serial m ∧ c' = .serial { m with chr := chr } := by
  cases c with
  | empty _ => cases h
  | fixed m =>
    simp only [cartPpuWrite, Option.ite_none_right_eq_some] at h
    obtain ⟨-, ⟨⟩⟩ := h
    exact .inl rfl
  | serial m =>
    simp only [cartPpuWrite, Option.ite_none_right_eq_some] at h
    obtain ⟨-, ⟨⟩⟩ := h
    split
    · exact .inr ⟨m, _, rfl, rfl⟩
    · exact .inl rfl

theorem mapperOk_cpuWrite {c c' : Cart} {n : Nat} {d : Byte} (h : cartCpuWrite c n d = some c')
    (hc : mapperOk c = true) : mapperOk c' = true := by
  obtain rfl | ⟨m, rfl, rfl | rfl⟩ := cartCpuWrite_cases h
  · exact hc
  · exact decide_eq_true (mapper1Serial_srCount n d (of_decide_eq_true hc))
  · exact hc

/-- A write of the PPU's bus changes no register of the mapper. -/
theorem mapperOk_ppuWrite {c c' : Cart} {a : Nat} {d : Byte} (h : cartPpuWrite c a d = some c')
    (hc : mapperOk c = true) : mapperOk c' = true := by
  obtain rfl | ⟨m, chr, rfl, rfl⟩ := cartPpuWrite_cases h <;> exact hc

/-- The cartridge after a PPU register write: as it was, or after a write of the PPU's bus. -/
theorem ppuCpuWrite_cart (c : Cart) (p : Ppu) (r : Nat) (d : Byte) :
    (ppuCpuWrite c p r d).1 = c ∨ ∃ a, cartPpuWrite c a d = some (ppuCpuWrite c p r d).1 := by
  unfold ppuCpuWrite
  split
  case h_7 =>
    unfold writePpuData
    obtain ⟨c', hw, he⟩ | he | he | he := ppuBusWrite_cases c p (ppuDataAddr p) d <;> rw [he]
    · exact .inr ⟨_, hw⟩
    all_goals exact .inl rfl
  all_goals exact .inl rfl

/-- The invariant but for the CPU's part. -/
def unitsOk (s : State) : Prop :=
  paramsOk s.params = true ∧ ppuOk s.ppu ∧ apuOk s.params.apuFrameDiv s.apu = true ∧ mapperOk s.cart = true ∧
    Memory.wf s = true

theorem inv_iff (s : State) : s.Inv = true ↔ cpuOk s.cpu = true ∧ unitsOk s := by
  simp only [State.Inv, unitsOk, ppuOk, Bool.and_eq_true]
  tauto

theorem unitsOk_busRead {s : State} (addr : Word) (h : unitsOk s) : unitsOk (busRead s addr).2 := by
  have hmem : Memory.wf (busRead s addr).2 = true := busRead_wf addr h.2.2.2.2
  obtain ⟨hparams, hppu, hapu, hmapper, -⟩ := h
  obtain he | ⟨-, -, he⟩ | ⟨-, he⟩ | ⟨-, he⟩ | ⟨-, he⟩ := busRead_cases s addr <;> rw [he] at hmem ⊢
  · exact ⟨hparams, hppu, hapu, hmapper, hmem⟩
  · exact ⟨hparams, ppuOk_cpuRead _ _ hppu, hapu, hmapper, hmem⟩
  all_goals exact ⟨hparams, hppu, hapu, hmapper, hmem⟩

theorem unitsOk_busWrite {s : State} (addr : Word) (v : Byte) (h : unitsOk s) : unitsOk (busWrite s addr v) := by
  have hmem : Memory.wf (busWrite s addr v) = true := busWrite_wf addr v h.2.2.2.2
  obtain ⟨hparams, hppu, hapu, hmapper, -⟩ := h
  obtain he | ⟨c, -, hw, he⟩ | ⟨-, he⟩ | ⟨-, -, he⟩ | ⟨-, he⟩ | ⟨-, he⟩ | ⟨-, he⟩ := busWrite_cases s addr v <;>
    rw [he] at hmem ⊢
  · exact ⟨hparams, hppu, hapu, hmapper, hmem⟩
  · exact ⟨hparams, hppu, hapu, mapperOk_cpuWrite hw hmapper, hmem⟩
  · exact ⟨hparams, hppu, hapu, hmapper, hmem⟩
  · refine ⟨hparams, ppuOk_cpuWrite _ _ _ hppu, hapu, ?_, hmem⟩
    obtain hc | ⟨a, hw⟩ := ppuCpuWrite_cart s.cart s.ppu (addr.toNat % 8) v
    · exact (congrArg mapperOk hc).trans hmapper
    · exact mapperOk_ppuWrite hw hmapper
  · exact ⟨hparams, hppu, apuWrite_ok _ _ hapu, hmapper, hmem⟩
  all_goals exact ⟨hparams, hppu, hapu, hmapper, hmem⟩

/-- A dot keeps the canonical form of every memory. -/
theorem ppuTick_memory_wf {s : State} (h : Memory.wf s = true) : Memory.wf (ppuTick s) = true := by
  rw [memory_wf_iff] at h ⊢
  obtain ⟨hram, hppu, hframe, hcart⟩ := h
  obtain ⟨hoam, hpalette, hnt, -⟩ := ppuDot_frame s.cart s.ppu
  exact ⟨hram, by simpa only [ppuMemoryWf, ppuTick, hoam, hpalette, hnt] using hppu, ppuDot_frame_wf _ hframe, hcart⟩

theorem unitsOk_ppuTick {s : State} (h : unitsOk s) : unitsOk (ppuTick s) := by
  obtain ⟨hparams, hppu, hapu, hmapper, hmem⟩ := h
  exact ⟨hparams, ppuOk_dot _ hppu, hapu, hmapper, ppuTick_memory_wf hmem⟩

theorem unitsOk_oamWrite {s : State} (i d : Byte) (h : unitsOk s) : unitsOk { s with ppu := oamWrite s.ppu i d } := by
  obtain ⟨hparams, hppu, hapu, hmapper, hmem⟩ := h
  refine ⟨hparams, hppu, hapu, hmapper, ?_⟩
  rw [memory_wf_iff] at hmem ⊢
  obtain ⟨hram, hppuMem, hframe, hcart⟩ := hmem
  exact ⟨hram, oamWrite_wf i d hppuMem, hframe, hcart⟩

theorem unitsOk_afterCpuDomain {s : State} (h : unitsOk s) : unitsOk (afterCpuDomain s) := by
  obtain ⟨hparams, hppu, hapu, hmapper, hmem⟩ := h
  exact ⟨hparams, hppu, apuClock_ok hapu, hmapper, hmem⟩

theorem unitsOk_step {s t : State} (h : step s = .next t) (hs : unitsOk s) : unitsOk t :=
  step_keeps (P := unitsOk) (fun _ _ h => h) (fun _ addr h => unitsOk_busRead addr h)
    (fun _ addr v h => unitsOk_busWrite addr v h) (fun _ h => unitsOk_ppuTick h) (fun _ _ h => h)
    (fun _ i d h => unitsOk_oamWrite i d h) (fun _ h => unitsOk_afterCpuDomain h) (fun _ _ h => h) (fun _ _ h => h) h hs

/-! ## The live status bits -/

theorem statusOk_iff (p : Byte) : statusOk p = true ↔ getFlag .u p = true ∧ getFlag .b p = false := by
  simp [statusOk]

@[simp] theorem statusOk_setNZ (v p : Byte) : statusOk (setNZ v p) = statusOk p := by
  simp [statusOk, getFlag_setNZ]

@[simp] theorem statusOk_addFlags (a m p : Byte) : statusOk (addFlags a m p) = statusOk p := by
  simp [statusOk, getFlag_addFlags]

@[simp] theorem statusOk_compareFlags (r m p : Byte) : statusOk (compareFlags r m p) = statusOk p := by
  simp [statusOk, getFlag_compareFlags]

@[simp] theorem statusOk_bitFlags (a m p : Byte) : statusOk (bitFlags a m p) = statusOk p := by
  simp [statusOk, getFlag_bitFlags]

@[simp] theorem statusOk_shiftFlags (out : Bool) (r p : Byte) : statusOk (shiftFlags out r p) = statusOk p := by
  simp [statusOk, getFlag_shiftFlags]

/-- Every flag but U and B can be written. -/
theorem statusOk_setFlag {f : Flag} (v : Bool) (p : Byte) (hu : f ≠ .u) (hb : f ≠ .b) :
    statusOk (setFlag f v p) = statusOk p := by
  simp [statusOk, getFlag_setFlag, hu.symm, hb.symm]

@[simp] theorem statusOk_livePulled (v : Byte) : statusOk (livePulled v) = true := by
  simp [statusOk, getFlag_livePulled]

/-! ## P after the shared operations -/

@[simp] theorem address_cpu_p (m : Mem) (s : State) : (address m s).cpu.p = s.cpu.p := by simp [address_eq]

@[simp] theorem readMemory_cpu_p (m : Mem) (s : State) : (readMemory m s).cpu.p = s.cpu.p := by simp [readMemory_eq]

@[simp] theorem readOperand_cpu_p (o : Src) (s : State) : (readOperand o s).cpu.p = s.cpu.p := by
  rw [readOperand_cpu_latched, latched]

@[simp] theorem implied_cpu_p (s : State) : (implied s).cpu.p = s.cpu.p := rfl

@[simp] theorem shiftOperand_cpu_p (o : Rmw) (s : State) : (shiftOperand o s).cpu.p = s.cpu.p := by
  cases o <;> simp [shiftOperand]

@[simp] theorem push_cpu_p (s : State) (v : Byte) : (push s v).cpu.p = s.cpu.p := by simp [push_eq]

@[simp] theorem pull_cpu_p (s : State) : (pull s).2.cpu.p = s.cpu.p := by simp [pull_eq]

@[simp] theorem pushWord_cpu_p (s : State) (w : Word) : (pushWord s w).cpu.p = s.cpu.p := by simp [pushWord_eq]

@[simp] theorem pullWord_cpu_p (s : State) : (pullWord s).2.cpu.p = s.cpu.p := by simp [pullWord_eq]

@[simp] theorem jumpTarget_cpu_p (j : JmpTarget) (s : State) : (jumpTarget j s).cpu.p = s.cpu.p := by
  rw [jumpTarget_cpu_latched, latched]

@[simp] theorem fetchInstr_cpu_p (s : State) : (fetchInstr s).after.cpu.p = s.cpu.p := by
  unfold fetchInstr
  dsimp only
  split <;> simp [fetch]

/-! ## The count of an instruction -/

/-- No count of the table is above 7 (R350). -/
theorem descriptor_base_le : ∀ op : Byte, (descriptor op).base ≤ 7 := by decide +revert

theorem baseCycles_le {i : Instr} (hi : ∀ op, i ≠ .illegal op) (q : Params) : i.baseCycles q ≤ 7 := by
  unfold Instr.baseCycles
  split
  · exact absurd rfl (hi _)
  · exact descriptor_base_le _
  · exact Nat.zero_le 7

/-- The base count with the hint's cycle is at most 8: an illegal byte has no hint (R340, R341, R390). -/
theorem baseCycles_add_hint_le {q : Params} (hq : paramsOk q = true) (i : Instr) (hint : Bool) :
    i.baseCycles q + (if hint && i.opExtra then 1 else 0) ≤ 8 := by
  by_cases hi : ∃ op, i = .illegal op
  · obtain ⟨op, rfl⟩ := hi
    have hcount : (Instr.illegal op).baseCycles q ≤ 8 := illegalCount_le_of_paramsOk hq op
    simpa [Instr.opExtra] using hcount
  · have hbase : i.baseCycles q ≤ 7 := baseCycles_le (fun op h => hi ⟨op, h⟩) q
    split <;> omega

/-- A branch takes at most two cycles of its own (R610). -/
theorem branchExtra_le (taken : Bool) (next target : Word) : branchExtra taken next target ≤ 2 := by
  unfold branchExtra
  split
  · split <;> omega
  · omega

/-- What an instruction run in `s` answers: its charge, on a state that keeps the live status bits. Only an instruction
whose base count is 2 and that has no hint, as a branch, has cycles of its own, at most two. -/
def charged (i : Instr) (s : State) (r : Result) : Prop :=
  ∃ u extra, r = .next (charge i extra u) ∧ (statusOk s.cpu.p = true → statusOk u.cpu.p = true) ∧
    (extra = 0 ∨ extra ≤ 2 ∧ i.opExtra = false ∧ ∀ q, i.baseCycles q = 2)

theorem charged_of {i : Instr} {s u : State} (h : statusOk s.cpu.p = true → statusOk u.cpu.p = true) :
    charged i s (.next (charge i 0 u)) :=
  ⟨u, 0, rfl, h, .inl rfl⟩

theorem charged_branch {i : Instr} {bytes : List Byte} (hform : form i bytes 2) (hop : i.opExtra = false) (taken : Bool)
    (off : Byte) (s : State) : charged i s (.next (branch i taken off s)) := by
  obtain ⟨-, hbase⟩ := hform
  rw [branch_eq]
  exact ⟨_, _, rfl, id, .inr ⟨branchExtra_le _ _ _, hop, hbase⟩⟩

theorem exec_charged (i : Instr) (s : State) : charged i s (exec i s) := by
  cases i
  case bcc off | bcs off | beq off | bmi off | bne off | bpl off | bvc off | bvs off =>
    exact charged_branch ⟨rfl, fun _ => rfl⟩ rfl _ off s
  case brk =>
    rw [exec_brk]
    exact charged_of (by simp [statusOk_setFlag])
  case rti =>
    rw [exec_rti]
    exact charged_of fun _ => statusOk_livePulled _
  all_goals exact charged_of (by simp [addCore, shiftWith, storeResult, statusOk_setFlag])

theorem Reach.params {s t : State} (h : Reach s t) : t.params = s.params :=
  h.keeps (P := fun u => u.params = s.params) (fun _ _ h => h) (fun _ _ h => (busRead_params ..).trans h)
    (fun _ _ _ h => (busWrite_params ..).trans h) rfl

theorem cpuOk_iff (c : Cpu) : cpuOk c = true ↔ statusOk c.p = true ∧ c.cycles ≤ 8 := by simp [cpuOk]

/-- So every instruction keeps the CPU's part of the invariant. -/
theorem cpuOk_exec {i : Instr} {s t : State} (hq : paramsOk s.params = true) (hp : statusOk s.cpu.p = true)
    (h : exec i s = .next t) : cpuOk t.cpu = true := by
  obtain ⟨u, extra, he, hstatus, hextra⟩ := exec_charged i s
  obtain ⟨t', ht', hreach⟩ := exec_reach i s
  rw [h] at he ht'
  cases ht'
  cases he
  rw [← hreach.params, charge_params] at hq
  rw [cpuOk_iff, charge_cpu_p, charge_cpu_cycles]
  refine ⟨hstatus hp, ?_⟩
  obtain rfl | ⟨hle, hop, hbase⟩ := hextra
  · exact baseCycles_add_hint_le hq i _
  · rw [hbase, hop, Bool.and_false]
    simp only [Bool.false_eq_true, if_false]
    omega

/-! ## A step keeps the CPU's part -/

theorem cpuOk_cpuClock {s t : State} (hq : paramsOk s.params = true) (hs : cpuOk s.cpu = true)
    (h : cpuClock s = .next t) : cpuOk t.cpu = true := by
  have hcount (u : State) (hu : cpuOk u.cpu = true) : cpuOk (countDown u).cpu = true := by
    rw [cpuOk_iff] at hu ⊢
    exact ⟨hu.1, by simp only [countDown, dropLatches_cpu_cycles, setCycles_cpu_cycles]; omega⟩
  unfold cpuClock at h
  split at h
  · have hfetch : (fetchInstr s).after.params = s.params := (Reach.fetchInstr .refl).params
    obtain ⟨u, hu, -⟩ := exec_reach (fetchedInstr (fetchInstr s)) (fetchInstr s).after
    simp only [runInstr, hu, thenDo] at h
    cases h
    refine hcount u (cpuOk_exec (hfetch ▸ hq) ?_ hu)
    rw [fetchInstr_cpu_p]
    exact ((cpuOk_iff _).mp hs).1
  · cases h
    exact hcount s hs

theorem cpuOk_enterInterrupt {s : State} {vector : Word} (h : vector = nmiVector ∨ vector = irqVector)
    (hs : cpuOk s.cpu = true) : cpuOk (enterInterrupt vector s).cpu = true := by
  rw [cpuOk_iff] at hs ⊢
  rw [enterInterrupt_frame s h]
  exact ⟨(statusOk_setFlag _ _ (by decide) (by decide)).trans hs.1, (by decide : 7 ≤ 8)⟩

theorem cpuOk_endTick {s : State} (hs : cpuOk s.cpu = true) : cpuOk (endTick s).cpu = true := by
  rw [interruptServiceConditions s]
  split
  · exact cpuOk_enterInterrupt (.inl rfl) hs
  · split
    · exact cpuOk_enterInterrupt (.inr rfl) hs
    · exact hs

theorem cpuOk_step {s t : State} (hq : paramsOk s.params = true) (hs : cpuOk s.cpu = true) (h : step s = .next t) :
    cpuOk t.cpu = true := by
  obtain ⟨-, he⟩ | ⟨-, -, he⟩ | ⟨-, -, u, hclock, -, he⟩ := step_cases s
  all_goals
    rw [he] at h
    cases h
  · exact cpuOk_endTick (s := ppuTick s) hs
  · refine cpuOk_endTick (s := afterCpuDomain (dmaStep (ppuTick s))) ?_
    obtain ⟨hcpu, -⟩ := dmaStep_frame (ppuTick s)
    exact (congrArg cpuOk hcpu).trans hs
  · have hu : cpuOk u.cpu = true := cpuOk_cpuClock (s := ppuTick s) hq hs hclock
    exact cpuOk_endTick (s := afterCpuDomain u) hu

/-- Settles O7: a step keeps the CPU's part (`cpuOk_step`) and the units' part (`unitsOk_step`). -/
theorem stepKeepsMachineInvariant : Obligations.StepKeepsMachineInvariant := by
  intro s t hs h
  rw [inv_iff] at hs ⊢
  obtain ⟨hcpu, hunits⟩ := hs
  exact ⟨cpuOk_step hunits.1 hcpu h, unitsOk_step h hunits⟩

/-- Settles O8: power-on leaves every unit at its reset value, which is in range, and every memory empty; the count of
the CPU is the parameter RESET_CYCLES, which is in range with the parameters. -/
theorem resetMeetsMachineInvariant : Obligations.ResetMeetsMachineInvariant := by
  have hpowerOn (q : Params) (hq : paramsOk q = true) : (State.powerOn q).Inv = true := by
    have hcycles : q.resetCycles ≤ 8 := by
      simp only [paramsOk, Bool.and_eq_true, decide_eq_true_eq] at hq
      exact hq.1
    have hapu : apuOk q.apuFrameDiv Apu.reset = true := by cases q.apuFrameDiv <;> decide
    have hppu : ppuOk Ppu.reset := by unfold ppuOk; decide
    have hcpu : cpuOk (Cpu.reset q) = true := (cpuOk_iff _).mpr ⟨(by decide : statusOk 0x24 = true), hcycles⟩
    exact (inv_iff _).mpr ⟨hcpu, hq, hppu, hapu, rfl, reset_memory_wf⟩
  exact ⟨hpowerOn Params.default (by decide), hpowerOn⟩

/-! ## The program ROM -/

theorem cartPrg_cpuWrite {c c' : Cart} {n : Nat} {d : Byte} (h : cartCpuWrite c n d = some c') :
    cartPrg c' = cartPrg c := by
  obtain rfl | ⟨m, rfl, rfl | rfl⟩ := cartCpuWrite_cases h
  · rfl
  · obtain ⟨_, _, _, _, _, _, he⟩ := mapper1Serial_eq m n d
    rw [he]
    rfl
  · rfl

theorem cartPrg_ppuWrite {c c' : Cart} {a : Nat} {d : Byte} (h : cartPpuWrite c a d = some c') :
    cartPrg c' = cartPrg c := by
  obtain rfl | ⟨m, chr, rfl, rfl⟩ := cartPpuWrite_cases h <;> rfl

theorem cartPrg_busWrite (s : State) (addr : Word) (v : Byte) : cartPrg (busWrite s addr v).cart = cartPrg s.cart := by
  obtain he | ⟨c, -, hw, he⟩ | ⟨-, he⟩ | ⟨-, -, he⟩ | ⟨-, he⟩ | ⟨-, he⟩ | ⟨-, he⟩ := busWrite_cases s addr v <;> rw [he]
  · exact cartPrg_cpuWrite hw
  · obtain hc | ⟨a, hw⟩ := ppuCpuWrite_cart s.cart s.ppu (addr.toNat % 8) v
    · exact congrArg cartPrg hc
    · exact cartPrg_ppuWrite hw

/-- Settles O9: the only writes of a step that reach the cartridge are bus writes (`step_keeps`), and none of them
changes the PRG contents (`cartPrg_busWrite`). -/
theorem stepNeverWritesProgramRom : Obligations.StepNeverWritesProgramRom := by
  intro s t h
  refine step_keeps (P := fun u => cartPrg u.cart = cartPrg s.cart) (fun _ _ h => h) (fun u addr h => ?_)
    (fun u addr v h => (cartPrg_busWrite u addr v).trans h) (fun _ h => h) (fun _ _ h => h) (fun _ _ _ h => h)
    (fun _ h => h) (fun _ _ h => h) (fun _ _ h => h) h rfl
  rwa [busRead_cart]

end Sys2Proof.Machine
end

section
/-! What a step counts and where it gets to (spec/60 R701, R710; spec/61 R873; spec/63 R1001, R1002, R1024): the ticks,
the host's inputs, the raster, the NMI latch, the suspended CPU, and the instruction that a step runs. -/

namespace Sys2Proof.Machine

/-! ## The inputs of the host -/

/-- The ports' registers change, the host's button states do not (R1030). -/
theorem portsRead0_host (q : Ports) : (portsRead0 q).2.host0 = q.host0 ∧ (portsRead0 q).2.host1 = q.host1 := by
  unfold portsRead0
  split <;> exact ⟨rfl, rfl⟩

theorem portsRead1_host (q : Ports) : (portsRead1 q).2.host0 = q.host0 ∧ (portsRead1 q).2.host1 = q.host1 := by
  unfold portsRead1
  split <;> exact ⟨rfl, rfl⟩

theorem portsWrite_host (d : Byte) (q : Ports) :
    (portsWrite d q).host0 = q.host0 ∧ (portsWrite d q).host1 = q.host1 := by
  unfold portsWrite
  split <;> exact ⟨rfl, rfl⟩

theorem busRead_host (s : State) (addr : Word) :
    (busRead s addr).2.ports.host0 = s.ports.host0 ∧ (busRead s addr).2.ports.host1 = s.ports.host1 := by
  obtain he | ⟨-, -, he⟩ | ⟨-, he⟩ | ⟨-, he⟩ | ⟨-, he⟩ := busRead_cases s addr <;> rw [he]
  · exact ⟨rfl, rfl⟩
  · exact ⟨rfl, rfl⟩
  · exact ⟨rfl, rfl⟩
  · exact portsRead0_host _
  · exact portsRead1_host _

theorem busWrite_host (s : State) (addr : Word) (v : Byte) :
    (busWrite s addr v).ports.host0 = s.ports.host0 ∧ (busWrite s addr v).ports.host1 = s.ports.host1 := by
  obtain he | ⟨c, -, -, he⟩ | ⟨-, he⟩ | ⟨-, -, he⟩ | ⟨-, he⟩ | ⟨-, he⟩ | ⟨-, he⟩ := busWrite_cases s addr v <;> rw [he]
  case inr.inr.inr.inr.inr.inr => exact portsWrite_host v _
  all_goals exact ⟨rfl, rfl⟩

/-- A step keeps what the host owns, and the parameters. -/
theorem step_inputs {s t : State} (h : step s = .next t) :
    t.ports.host0 = s.ports.host0 ∧ t.ports.host1 = s.ports.host1 ∧ t.irqLine = s.irqLine ∧ t.params = s.params := by
  refine step_keeps
    (P := fun u => u.ports.host0 = s.ports.host0 ∧ u.ports.host1 = s.ports.host1 ∧ u.irqLine = s.irqLine ∧
      u.params = s.params)
    (fun _ _ h => h) (fun u addr h => ?_) (fun u addr v h => ?_) (fun _ h => h) (fun _ _ h => h) (fun _ _ _ h => h)
    (fun _ h => h) (fun _ _ h => h) (fun _ _ h => h) h ⟨rfl, rfl, rfl, rfl⟩
  · obtain ⟨h0, h1⟩ := busRead_host u addr
    rwa [h0, h1, busRead_irqLine, busRead_params]
  · obtain ⟨h0, h1⟩ := busWrite_host u addr v
    rwa [h0, h1, busWrite_irqLine, busWrite_params]

/-! ## The counts -/

/-- An instruction counts no tick and no CPU cycle itself. -/
theorem Reach.counts {s t : State} (h : Reach s t) : t.masterTick = s.masterTick ∧ t.cpuCycle = s.cpuCycle :=
  h.keeps (P := fun u => u.masterTick = s.masterTick ∧ u.cpuCycle = s.cpuCycle) (fun _ _ h => h)
    (fun u addr h => by rwa [busRead_masterTick, busRead_cpuCycle])
    (fun u addr v h => by rwa [busWrite_masterTick, busWrite_cpuCycle]) ⟨rfl, rfl⟩

/-- Settles O10: the three forms of a step (`step_cases`) and what its last part counts (`endTick_frame`);
the inputs are kept (`step_inputs`). -/
theorem stepCountsTicksAndKeepsInputs : Obligations.StepCountsTicksAndKeepsInputs := by
  intro s t h
  have hinputs := step_inputs h
  have hend (u : State) : (endTick u).masterTick = u.masterTick + 1 ∧ (endTick u).cpuCycle = u.cpuCycle := by
    obtain ⟨-, -, -, -, -, -, -, hcycle, htick⟩ := endTick_frame u
    exact ⟨htick, hcycle⟩
  obtain ⟨hmod, he⟩ | ⟨hmod, -, he⟩ | ⟨hmod, -, u, -, hreach, he⟩ := step_cases s
  all_goals
    rw [he] at h
    cases h
    rw [(hend _).1, (hend _).2]
  · exact ⟨rfl, by rw [if_neg hmod]; rfl, hinputs⟩
  · obtain ⟨-, -, -, -, -, -, htick, hcycle⟩ := dmaStep_frame (ppuTick s)
    exact ⟨congrArg (· + 1) htick, by rw [if_pos hmod]; exact congrArg (· + 1) hcycle, hinputs⟩
  · obtain ⟨htick, hcycle⟩ := hreach.counts
    exact ⟨congrArg (· + 1) htick, by rw [if_pos hmod]; exact congrArg (· + 1) hcycle, hinputs⟩

/-! ## The raster -/

/-- The raster position of two states is the same. -/
def sameRaster (s t : State) : Prop := t.ppu.scanline = s.ppu.scanline ∧ t.ppu.dot = s.ppu.dot

theorem busRead_raster (s : State) (addr : Word) : sameRaster s (busRead s addr).2 := by
  obtain he | ⟨-, -, he⟩ | ⟨-, he⟩ | ⟨-, he⟩ | ⟨-, he⟩ := busRead_cases s addr <;> rw [he]
  case inr.inl =>
    obtain ⟨hline, hdot, -⟩ := ppuCpuRead_ok s.cart s.ppu (addr.toNat % 8)
    exact ⟨hline, hdot⟩
  all_goals exact ⟨rfl, rfl⟩

theorem busWrite_raster (s : State) (addr : Word) (v : Byte) : sameRaster s (busWrite s addr v) := by
  obtain he | ⟨c, -, -, he⟩ | ⟨-, he⟩ | ⟨-, -, he⟩ | ⟨-, he⟩ | ⟨-, he⟩ | ⟨-, he⟩ := busWrite_cases s addr v <;> rw [he]
  case inr.inr.inr.inl =>
    obtain ⟨hline, hdot, -⟩ := ppuCpuWrite_ok s.cart s.ppu (addr.toNat % 8) v
    exact ⟨hline, hdot⟩
  all_goals exact ⟨rfl, rfl⟩

theorem sameRaster.trans {s t u : State} (h : sameRaster s t) (h' : sameRaster t u) : sameRaster s u :=
  ⟨h'.1.trans h.1, h'.2.trans h.2⟩

theorem Reach.raster {s t : State} (h : Reach s t) : sameRaster s t :=
  h.keeps (P := sameRaster s) (fun _ _ h => h) (fun u addr h => h.trans (busRead_raster u addr))
    (fun u addr v h => h.trans (busWrite_raster u addr v)) ⟨rfl, rfl⟩

theorem dmaStep_raster (s : State) : sameRaster s (dmaStep s) := by
  unfold dmaStep
  split
  · split <;> exact ⟨rfl, rfl⟩
  · split
    · exact busRead_raster s (dmaSource s.dma)
    · exact ⟨rfl, rfl⟩

/-- A step moves the raster as its dot does, whatever is executed. -/
theorem step_raster {s t : State} (h : step s = .next t) : sameRaster (ppuTick s) t := by
  have hend (u : State) : sameRaster u (endTick u) := by
    obtain ⟨hppu, -⟩ := endTick_frame u
    exact ⟨congrArg Ppu.scanline hppu, congrArg Ppu.dot hppu⟩
  obtain ⟨-, he⟩ | ⟨-, -, he⟩ | ⟨-, -, u, -, hreach, he⟩ := step_cases s
  all_goals
    rw [he] at h
    cases h
  · exact hend _
  · exact (dmaStep_raster (ppuTick s)).trans (hend (afterCpuDomain _))
  · exact hreach.raster.trans (hend (afterCpuDomain u))

/-- A dot moves the raster one place on, modulo the dots of a frame (R873, R875). -/
theorem rasterIndex_ppuDot (c : Cart) {p : Ppu} (h : rasterOk p = true) :
    rasterIndex (ppuDot c p) = (rasterIndex p + 1) % 89342 := by
  obtain ⟨hdot, hline⟩ := ppuDot_raster c p
  simp only [rasterOk, Bool.and_eq_true, decide_eq_true_eq] at h
  rw [rasterIndex, rasterIndex, hdot, hline]
  split
  · split <;> omega
  · omega

theorem rasterIndex_step {s t : State} (hs : rasterOk s.ppu = true) (h : step s = .next t) :
    rasterIndex t.ppu = (rasterIndex s.ppu + 1) % 89342 ∧ rasterOk t.ppu = true := by
  obtain ⟨hline, hdot⟩ := step_raster h
  have hok : rasterOk (ppuTick s).ppu = true := ppuDot_rasterOk s.cart hs
  rw [← rasterIndex_ppuDot s.cart hs]
  exact ⟨by rw [rasterIndex, rasterIndex, hline, hdot]; rfl, by simpa only [rasterOk, hline, hdot] using hok⟩

/-- A run goes on from the state after its first step. -/
theorem run_succ {s u : State} (h : step s = .next u) (n : Nat) :
    Host.Core.run Sys2Proof.core (n + 1) s = Host.Core.run Sys2Proof.core n u := by
  have hstep : Sys2Proof.core.step s = .next u := h
  simp only [Host.Core.run, hstep]

/-- Settles O51: by induction over the steps, each of which moves the raster one place on (`rasterIndex_step`). -/
theorem rasterAdvancesOneDotPerStep : Obligations.RasterAdvancesOneDotPerStep := by
  intro n
  induction n with
  | zero =>
    intro s t hs h
    cases h
    simp only [rasterOk, Bool.and_eq_true, decide_eq_true_eq] at hs
    simp only [rasterIndex]
    omega
  | succ n ih =>
    intro s t hs h
    obtain ⟨u, hu⟩ := step_next s
    obtain ⟨hindex, hok⟩ := rasterIndex_step hs hu
    rw [ih u t hok ((run_succ hu n).symm.trans h), hindex]
    push_cast
    omega

/-! ## The NMI latch -/

/-- The latch before the checks that end a step: set before, or raised by the dot. -/
theorem step_endTick {s t : State} (h : step s = .next t) :
    ∃ u, t = endTick u ∧ u.nmiPending = (s.nmiPending || raisesNmi s.ppu) := by
  have hkeep {u v : State} (h : Reach u v) : v.nmiPending = u.nmiPending :=
    h.keeps (P := fun w => w.nmiPending = u.nmiPending) (fun _ _ h => h) (fun _ _ h => (busRead_nmiPending ..).trans h)
      (fun _ _ _ h => (busWrite_nmiPending ..).trans h) rfl
  obtain ⟨-, he⟩ | ⟨-, -, he⟩ | ⟨-, -, u, -, hreach, he⟩ := step_cases s
  all_goals
    rw [he] at h
    cases h
  · exact ⟨_, rfl, rfl⟩
  · obtain ⟨-, -, -, hnmi, -⟩ := dmaStep_frame (ppuTick s)
    exact ⟨_, rfl, hnmi⟩
  · exact ⟨_, rfl, hkeep hreach⟩

/-- What the checks do with the latch: they never set it, and clear it only by an entry, which sets I. -/
theorem endTick_nmiPending (u : State) :
    ((endTick u).nmiPending = true → u.nmiPending = true) ∧
    (u.nmiPending = true →
      (endTick u).nmiPending = true ∨ ((endTick u).cpu.cycles = 7 ∧ getFlag .i (endTick u).cpu.p = true)) := by
  rw [interruptServiceConditions u]
  split
  · rw [enterInterrupt_frame u (.inl rfl)]
    exact ⟨(nomatch ·), fun _ => .inr ⟨rfl, getFlag_setFlag_same _ _ _⟩⟩
  · split
    · rw [enterInterrupt_frame u (.inr rfl)]
      exact ⟨id, .inl⟩
    · exact ⟨id, .inl⟩

/-- Settles O47: the dot alone raises the latch (`step_endTick`), an entry alone clears it (`endTick_nmiPending`). -/
theorem nmiLatchSetOnlyAtVblank : Obligations.NmiLatchSetOnlyAtVblank := by
  intro s t h
  obtain ⟨u, rfl, hu⟩ := step_endTick h
  obtain ⟨hset, hkeep⟩ := endTick_nmiPending u
  have hraised : u.nmiPending = true ↔
      s.nmiPending = true ∨ (s.ppu.scanline = 241 ∧ s.ppu.dot = 1 ∧ s.ppu.ctrl.getLsbD 7 = true) := by
    rw [hu, Bool.or_eq_true]
    simp only [raisesNmi, vblankDot, Bool.and_eq_true, decide_eq_true_eq, and_assoc]
  exact ⟨fun ht => hraised.mp (hset ht), fun hs => hkeep (hraised.mpr hs)⟩

/-! ## The suspended CPU -/

/-- Settles O48: with DMA active the step runs no instruction (`step_cases`), a DMA step leaves the CPU and its RAM
(`dmaStep_frame`), and with DMA still active no interrupt is taken (`endTick_dma`). -/
theorem dmaSuspendsCpu : Obligations.DmaSuspendsCpu := by
  intro s t hs h ht
  have hend {u : State} (hu : (endTick u).dma.active = true) :
      endTick u = { u with masterTick := u.masterTick + 1 } := by
    obtain ⟨-, -, hdma, -⟩ := endTick_frame u
    exact endTick_dma (by rwa [hdma] at hu)
  obtain ⟨-, he⟩ | ⟨-, -, he⟩ | ⟨-, hidle, -⟩ := step_cases s
  · rw [he] at h
    cases h
    rw [hend ht]
    exact ⟨rfl, rfl, fun hn => by simp [ppuTick, hn]⟩
  · rw [he] at h
    cases h
    rw [hend ht]
    obtain ⟨hcpu, hram, -, hnmi, -⟩ := dmaStep_frame (ppuTick s)
    exact ⟨hcpu, hram, fun hn => hnmi.trans (by simp [ppuTick, hn])⟩
  · rw [hs] at hidle
    cases hidle

/-! ## The instruction of a step -/

/-- An address whose read has no side effect and sees CPU RAM and the cartridge alone. -/
def plainAddr (a : Word) : Prop := a.toNat ≤ 0x1FFF ∨ 0x4018 ≤ a.toNat

theorem busRead_plain {s t : State} {a : Word} (h : plainAddr a) (hram : t.ram = s.ram) (hcart : t.cart = s.cart) :
    busRead t a = (busValue s a, t) := by
  obtain h | h := h
  · rw [busValue, busRead_ram _ h, busRead_ram _ h, ramAt_of_ram hram]
  · exact Prod.ext (busRead_high_of_cart h hcart) (busRead_high t h)

theorem busValue_plain {s t : State} {a : Word} (h : plainAddr a) (hram : t.ram = s.ram) (hcart : t.cart = s.cart) :
    busValue t a = busValue s a := by
  conv_lhs => rw [busValue, busRead_plain h hram hcart]

/-- The fetch of an instruction whose bytes lie at such addresses. -/
theorem fetchInstr_plain (s : State) (h0 : plainAddr s.cpu.pc) (h1 : plainAddr (s.cpu.pc + 1))
    (h2 : plainAddr (s.cpu.pc + 2)) :
    fetchInstr s =
      ⟨busValue s s.cpu.pc,
        if 0 < operandCount (busValue s s.cpu.pc) then busValue s (s.cpu.pc + 1) else 0,
        if 1 < operandCount (busValue s s.cpu.pc) then busValue s (s.cpu.pc + 2) else 0,
        { s with cpu :=
          { s.cpu with
            pc := s.cpu.pc + BitVec.ofNat 16 (1 + operandCount (busValue s s.cpu.pc))
            opcode := busValue s s.cpu.pc } }⟩ := by
  have hfetch {u : State} {a : Word} (hpc : u.cpu.pc = a) (ha : plainAddr a) (hram : u.ram = s.ram)
      (hcart : u.cart = s.cart) : fetch u = (busValue s a, u.setPc (a + 1)) :=
    fetch_plain hpc (busRead_plain ha hram hcart)
  have hpc2 : s.cpu.pc + 1 + 1 = s.cpu.pc + 2 := by bv_omega
  have hpc3 : s.cpu.pc + 2 + 1 = s.cpu.pc + 3 := by bv_omega
  let u := (s.setPc (s.cpu.pc + 1)).setOpcode (busValue s s.cpu.pc)
  have hlo : fetch u = (busValue s (s.cpu.pc + 1), u.setPc (s.cpu.pc + 1 + 1)) := hfetch rfl h1 rfl rfl
  have hhi : fetch (u.setPc (s.cpu.pc + 1 + 1)) = (busValue s (s.cpu.pc + 1 + 1), u.setPc (s.cpu.pc + 1 + 1 + 1)) :=
    hfetch rfl (hpc2 ▸ h2) rfl rfl
  have hle := operandCount_le (busValue s s.cpu.pc)
  unfold fetchInstr
  rw [hfetch rfl h0 rfl rfl]
  dsimp only
  split
  · next hcount =>
    rw [hcount]
    rfl
  · next hcount =>
    rw [hcount, hlo, hpc2]
    rfl
  · next hcount0 hcount1 =>
    have hne0 : operandCount (busValue s s.cpu.pc) ≠ 0 := hcount0
    have hne1 : operandCount (busValue s s.cpu.pc) ≠ 1 := hcount1
    have hcount : operandCount (busValue s s.cpu.pc) = 2 := by omega
    rw [hcount, hlo, hhi, hpc2, hpc3]
    rfl

/-- The bytes of the instruction that a fetch reads. -/
theorem fetched_of_decode {b0 b1 b2 : Byte} {i : Instr} {rest : List Byte} (h : decode [b0, b1, b2] = .ok (i, rest)) :
    instrOf b0 (if 0 < operandCount b0 then b1 else 0) (if 1 < operandCount b0 then b2 else 0) = i ∧
      (encode i).length = 1 + operandCount b0 := by
  obtain ⟨op, args, hbytes, hlen, hi⟩ := decode_cases h
  obtain ⟨rfl, hargs⟩ := List.cons.inj hbytes
  have hle := operandCount_le b0
  obtain ⟨-, -, henc⟩ := encode_instrOf b0 (operandByte args 0) (operandByte args 1)
  constructor
  · rw [hi, ← hlen]
    match args, hargs with
    | [], _ => rfl
    | [_], rfl => rfl
    | [_, _], rfl => rfl
    | _ :: _ :: _ :: _, hargs => simp at hargs
  · rw [hi, henc]
    simp [hle]
    omega

/-- Settles O6: the fetch reads the three bytes without side effect (`fetchInstr_plain`) and makes of them the
instruction that the decoder makes (`fetched_of_decode`); the rest of the step is the CPU clock's end and the tick's. -/
theorem stepRunsDecodedInstruction : Obligations.StepRunsDecodedInstruction := by
  intro s t i rest htick hdma hcycles hplain hdecode hexec
  obtain ⟨hinstr, hlen⟩ := fetched_of_decode hdecode
  have h0 : plainAddr s.cpu.pc := by simpa [plainAddr] using hplain 0
  have h1 : plainAddr (s.cpu.pc + 1) := hplain 1
  have h2 : plainAddr (s.cpu.pc + 2) := hplain 2
  have hvalue {a : Word} (ha : plainAddr a) : busValue (ppuTick s) a = busValue s a := busValue_plain ha rfl rfl
  have hfetch := fetchInstr_plain (ppuTick s) h0 h1 h2
  have hpc : (ppuTick s).cpu.pc = s.cpu.pc := rfl
  rw [hpc, hvalue h0, hvalue h1, hvalue h2, ← hlen] at hfetch
  have hrun : runInstr (ppuTick s) = .next t := by
    rw [runInstr, hfetch]
    dsimp only [fetchedInstr]
    rw [hinstr]
    exact hexec
  have htick' : (ppuTick s).masterTick % 3 = 0 := htick
  have hdma' : (ppuTick s).dma.active = false := hdma
  have hcycles' : (ppuTick s).cpu.cycles = 0 := hcycles
  simp [step, masterStep, cpuDomainStep, cpuClock, thenDo, htick', hdma', hcycles', hrun]

end Sys2Proof.Machine
end

section
/-! The CPU bus outside its devices (spec/20 R201, R202, R211, spec/63 R1041), the addressing modes and the operand
fetch as numbers (spec/30 R321 to R332), and the system reset (spec/70 R1100). -/

namespace Sys2Proof.Machine

/-! ## Accesses that nothing answers -/

/-- An unclaimed read outside the devices gives 0x00 (R201). -/
theorem busRead_unclaimed {s : State} {a : Word} (hc : claimsRead s a = false)
    (h : 0x4000 ≤ a.toNat ∧ a.toNat ≤ 0x4014 ∨ 0x4018 ≤ a.toNat) : busRead s a = (0x00, s) := by
  have hnone : cartCpuRead s.cart a.toNat = none := by simpa [claimsRead] using hc
  have hram : ¬ a.toNat ≤ 0x1FFF := by omega
  have hppu : ¬ a.toNat ≤ 0x3FFF := by omega
  have hports : a.toNat ≠ 0x4015 ∧ a.toNat ≠ 0x4016 ∧ a.toNat ≠ 0x4017 := by omega
  simp [busRead, hnone, hram, hppu, hports]

/-- A write above the devices goes to the cartridge or nowhere (R202). -/
theorem busWrite_high {s : State} {a : Word} (v : Byte) (h : 0x4018 ≤ a.toNat) :
    busWrite s a v = { s with cart := (cartCpuWrite s.cart a.toNat v).getD s.cart } := by
  obtain hlow : ¬ a.toNat ≤ 0x1FFF ∧ ¬ a.toNat ≤ 0x3FFF ∧ ¬ a.toNat ≤ 0x4013 := by omega
  have hdevices : a.toNat ≠ 0x4014 ∧ a.toNat ≠ 0x4015 ∧ a.toNat ≠ 0x4016 ∧ a.toNat ≠ 0x4017 := by omega
  cases hc : cartCpuWrite s.cart a.toNat v <;> simp [busWrite, hc, hlow, hdevices]

/-- Settles O14: the read falls through every device (`busRead_unclaimed`); the write reaches the cartridge alone
(`busWrite_high`), which does not claim it, or drops it as mapper 0 does. -/
theorem unclaimedAccessesDoNothing : Obligations.UnclaimedAccessesDoNothing := by
  refine fun s a v => ⟨busRead_unclaimed, fun hhigh hdropped => ?_⟩
  have hcart : (cartCpuWrite s.cart a.toNat v).getD s.cart = s.cart := by
    obtain hc | ⟨m, hm⟩ := hdropped
    · have hnone : cartCpuWrite s.cart a.toNat v = none := by simpa [claimsWrite] using hc
      rw [hnone, Option.getD_none]
    · rw [hm, cartCpuWrite]
      split <;> rfl
  rw [busWrite_high v hhigh, hcart]

/-- Only the reads of PPUSTATUS and PPUDATA change the PPU (R211, R811). -/
theorem ppuCpuRead_frame (c : Cart) (p : Ppu) {r : Nat} (h2 : r ≠ 2) (h7 : r ≠ 7) : (ppuCpuRead c p r).2 = p := by
  unfold ppuCpuRead
  split
  · exact absurd rfl h2
  · rfl
  · exact absurd rfl h7
  · rfl

/-- Settles O15: of what a read can do (`busRead_cases`) only the PPU's case is left, and there neither register with a
side effect is read (`ppuCpuRead_frame`). -/
theorem otherReadsHaveNoSideEffect : Obligations.OtherReadsHaveNoSideEffect := by
  intro s a hppu h15 h16 h17
  obtain h | ⟨hlo, hhi, h⟩ | ⟨h, -⟩ | ⟨h, -⟩ | ⟨h, -⟩ := busRead_cases s a
  · exact h
  · rw [h, ppuCpuRead_frame _ _ (fun h2 => hppu ⟨hlo, hhi, .inl h2⟩) (fun h7 => hppu ⟨hlo, hhi, .inr h7⟩)]
  · exact absurd h h15
  · exact absurd h h16
  · exact absurd h h17

/-! ## Addressing modes -/

theorem zext16_eq_ofNat (a : Byte) : zext16 a = BitVec.ofNat 16 a.toNat := by
  rw [← zext16_toNat, BitVec.ofNat_toNat, BitVec.setWidth_eq]

/-- A sum in page 0 wraps in page 0 (R324, R325). -/
theorem zext16_add (a b : Byte) : zext16 (a + b) = BitVec.ofNat 16 ((a.toNat + b.toNat) % 256) := by
  rw [zext16_eq_ofNat, BitVec.toNat_add]

/-- An index is added mod 2^16 (R326, R327). -/
theorem add_zext16 (w : Word) (b : Byte) : w + zext16 b = BitVec.ofNat 16 (w.toNat + b.toNat) := by
  apply BitVec.eq_of_toNat_eq
  rw [BitVec.toNat_add, zext16_toNat, BitVec.toNat_ofNat]

/-- The hint says that the index carries out of the low byte (R326, R327, R331). -/
theorem pageCross_add (w : Word) (b : Byte) :
    pageCross w (w + zext16 b) = decide (255 < w.toNat % 256 + b.toNat) := by
  have hw := w.isLt
  have hb := b.isLt
  rw [pageCross, bne, Bool.eq_iff_iff, Bool.not_eq_true', beq_eq_false_iff_ne, decide_eq_true_eq, ne_eq, hiByte_eq_iff,
    add_zext16, BitVec.toNat_ofNat]
  omega

/-- Two bytes as a number, the low one first in memory. -/
theorem hiLo_eq_ofNat (hi lo : Byte) : hiLo hi lo = BitVec.ofNat 16 (hi.toNat * 256 + lo.toNat) := by
  rw [← hiLo_toNat, BitVec.ofNat_toNat, BitVec.setWidth_eq]

/-- The low byte of two bytes as a number. -/
theorem hiLo_mod (hi lo : Byte) : (hi.toNat * 256 + lo.toNat) % 256 = lo.toNat := by
  have := lo.isLt
  omega

/-- A byte of page 0 by its number. -/
theorem ramAt_zeroPage (s : State) (a : Byte) {n : Nat} (h : a.toNat = n % 256) :
    ramAt s a.toNat = busValue s (BitVec.ofNat 16 (n % 256)) := by
  rw [← h, ← zext16_eq_ofNat, busValue, busRead_zeroPage]

/-- Settles O16: each mode sets EA and its hint alone (`address_eq`), to these numbers; the pointer's bytes are page-0
bytes (`ramAt_zeroPage`). -/
theorem addressingModesComputeEffectiveAddress : Obligations.AddressingModesComputeEffectiveAddress := by
  intro s a w
  have hx : (a + s.cpu.x).toNat = (a.toNat + s.cpu.x.toNat) % 256 := BitVec.toNat_add _ _
  have hx1 : (a + s.cpu.x + 1).toNat = (a.toNat + s.cpu.x.toNat + 1) % 256 := by
    rw [BitVec.toNat_add, hx]
    simp
  have ha : a.toNat = a.toNat % 256 := by have := a.isLt; omega
  have ha1 : (a + 1).toNat = (a.toNat + 1) % 256 := BitVec.toNat_add _ _
  refine ⟨?_, ?_, ?_, ?_, ?_, ?_, ?_, ?_⟩ <;> simp only [address_eq, eaOf, eaCross]
  · rw [zext16_eq_ofNat]
  · rw [zext16_add]
  · rw [zext16_add]
  · rw [pageCross_add, add_zext16]
  · rw [pageCross_add, add_zext16]
  · rw [ramAt_zeroPage s _ hx1, ramAt_zeroPage s _ hx, hiLo_eq_ofNat]
  · rw [pageCross_add, add_zext16, hiLo_toNat, ramAt_zeroPage s _ ha1, ramAt_zeroPage s _ ha, hiLo_mod]

/-! ## The operand fetch -/

/-- The operand fetch from memory changes the devices as its one read does. -/
theorem readMemory_devices (m : Mem) (s : State) :
    { readMemory m s with cpu := s.cpu } = (busRead s (eaOf m s)).2 := by
  have hcpu := busRead_cpu s (eaOf m s)
  rw [readMemory_eq, ← hcpu]

/-- Settles O17: the immediate byte is latched, and a memory operand is one read at the mode's address
(`readMemory_eq`, `readMemory_devices`). -/
theorem operandIsReadOnce : Obligations.OperandIsReadOnce := by
  intro s b m
  have hea : (address m s).cpu.ea = eaOf m s := by rw [address_eq]; rfl
  have hcross : (address m s).cpu.modeExtra = eaCross m s := by rw [address_eq]; rfl
  dsimp only
  rw [hea, hcross, readOperand_mem]
  refine ⟨rfl, rfl, ?_, readMemory_devices m s, ?_, ?_, rfl⟩ <;> rw [readMemory_eq]

/-! ## The system reset -/

/-- Settles O11: the reset is the reset of each unit, which is written out, then the two reads of the vector, which see
the cartridge alone (`read16_high`, `vectorWord_of_cart`). -/
theorem systemResetValues : Obligations.SystemResetValues := by
  intro s
  dsimp only
  have hread : read16 (resetUnits s) resetVector = (vectorWord (resetUnits s) resetVector, resetUnits s) :=
    read16_high _ (by decide) (by decide)
  have hvector : vectorWord (resetUnits s) resetVector = vectorWord { s with cart := cartReset s.cart } resetVector :=
    vectorWord_of_cart (by decide) (by decide) rfl
  rw [systemReset, hread, hvector]
  unfold resetUnits
  cases s.cart <;> rfl

end Sys2Proof.Machine
end

section
/-! Signed overflow and the identities of the arithmetic (spec/42 R500, R512), the shifts and the rotates (spec/43 R555
to R558), the flag instructions and the no-ops (spec/45 R651 to R658, spec/30 R390). -/

namespace Sys2Proof.Machine

/-! ## Overflow -/

/-- The signed value of a byte by its number. -/
theorem toInt_eq_ite (b : Byte) : b.toInt = if 128 ≤ b.toNat then (b.toNat : Int) - 256 else b.toNat := by
  rw [BitVec.toInt_eq_toNat_cond]
  split <;> split <;> omega

/-- V of `AddCore` says that the exact signed sum does not fit a byte (R500, R501). -/
theorem addOverflow_iff (a m : Byte) (c : Bool) :
    addOverflow a m c = true ↔ ¬ (-128 ≤ a.toInt + m.toInt + c.toNat ∧ a.toInt + m.toInt + c.toNat ≤ 127) := by
  have ha := a.isLt
  have hm := m.isLt
  have hc : c.toNat ≤ 1 := Bool.toNat_le c
  have hr : (addResult a m c).toNat = (a.toNat + m.toNat + c.toNat) % 256 := by
    rw [addResult, addSum, BitVec.toNat_ofNat]
  have hsigns : addOverflow a m c = true ↔
      (128 ≤ a.toNat ↔ 128 ≤ m.toNat) ∧ ¬ (128 ≤ (addResult a m c).toNat ↔ 128 ≤ a.toNat) := by
    simp only [addOverflow_eq_msb, BitVec.msb_eq_decide, Bool.and_eq_true, beq_iff_eq, bne_iff_ne, ne_eq,
      decide_eq_decide]
  rw [hsigns, hr, toInt_eq_ite, toInt_eq_ite]
  split <;> split <;> omega

/-- The signed value of the inverted operand (R502). -/
theorem toInt_invert (m : Byte) : (m ^^^ 0xFF).toInt = -m.toInt - 1 := by
  have hm := m.isLt
  rw [xor_0xFF_eq_not, toInt_eq_ite, toInt_eq_ite, BitVec.toNat_not]
  split <;> split <;> omega

/-- Settles O26: ADC and SBC end with `AddCore` (`exec_adc`, `exec_sbc`), whose V is signed overflow of the sum
(`addOverflow_iff`); for SBC the sum with the inverted operand is the difference with borrow (`toInt_invert`). -/
theorem overflowIsSignedOverflow : Obligations.OverflowIsSignedOverflow := by
  intro o s t
  have hv (m : Byte) : getFlag .v (addCpu m s.cpu).p = addOverflow s.cpu.a m (getFlag .c s.cpu.p) :=
    getFlag_addFlags .v _ _ _
  dsimp only
  constructor
  · intro h
    rw [exec_adc] at h
    cases h
    rw [← addOverflow_iff, ← hv]
    rfl
  · intro h
    rw [exec_sbc] at h
    cases h
    have hsub : s.cpu.a.toInt - (readOperand o s).cpu.m.toInt - (1 - (getFlag .c s.cpu.p).toNat) =
        s.cpu.a.toInt + ((readOperand o s).cpu.m ^^^ 0xFF).toInt + (getFlag .c s.cpu.p).toNat := by
      rw [toInt_invert]
      omega
    rw [hsub, ← addOverflow_iff, ← hv]
    rfl

/-! ## The identities of R512 -/

/-- SBC after ADC of one byte, with the carries `c` and `c'`: A comes back when the second is the complement of the
first. -/
theorem addResult_invert_addResult (a m : Byte) (c c' : Bool) :
    addResult (addResult a m c) (m ^^^ 0xFF) c' =
      if c' = !c then a else BitVec.ofNat 8 (a.toNat + 2 * c.toNat + 255) := by
  have ha := a.isLt
  have hm := m.isLt
  have hr : (addResult a m c).toNat = (a.toNat + m.toNat + c.toNat) % 256 := by
    rw [addResult, addSum, BitVec.toNat_ofNat]
  have hnot : (m ^^^ 0xFF).toNat = 255 - m.toNat := by
    rw [xor_0xFF_eq_not, BitVec.toNat_not]
  apply BitVec.eq_of_toNat_eq
  rw [addResult, addSum, BitVec.toNat_ofNat, hr, hnot]
  cases c <;> cases c' <;> simp <;> omega

/-- The operand that an instruction reads depends on the CPU only through X and Y. -/
theorem readOperand_m_of_cpu (o : Src) (s : State) {c : Cpu} (hx : c.x = s.cpu.x) (hy : c.y = s.cpu.y) :
    (readOperand o { s with cpu := c }).cpu.m = (readOperand o s).cpu.m := by
  cases o with
  | imm b => rfl
  | mem m =>
    have hea : eaOf m { s with cpu := c } = eaOf m s := by
      cases m <;> simp only [eaOf, hx, hy] <;> rfl
    rw [readOperand_mem, readOperand_mem, readMemory_eq, readMemory_eq, hea, busRead_of_cpu]

/-- SBC's result with the carry set is the difference that CMP forms (R503). -/
theorem addResult_invert_true (a m : Byte) : addResult a (m ^^^ 0xFF) true = a - m := by
  have ha := a.isLt
  have hm := m.isLt
  apply BitVec.eq_of_toNat_eq
  rw [addResult_invert, subDiff, BitVec.toNat_ofInt, BitVec.toNat_sub, Bool.toNat_true]
  omega

/-- Its carry is the one of CMP. -/
theorem addCarry_invert_true (a m : Byte) : addCarry a (m ^^^ 0xFF) true = decide (m.toNat ≤ a.toNat) := by
  rw [addCarry_invert, subDiff, Bool.toNat_true, decide_eq_decide]
  omega

/-- So SBC with the carry set computes the N, Z and C of CMP. -/
theorem addFlags_invert_true {f : Flag} (hf : f ∈ [Flag.n, .z, .c]) (a m q : Byte) {p : Byte}
    (hp : getFlag .c p = true) : getFlag f (addFlags a (m ^^^ 0xFF) p) = getFlag f (compareFlags a m q) := by
  have hz : (a - m == 0) = (a == m) := by
    rw [Bool.eq_iff_iff, beq_iff_eq, beq_iff_eq, sub_eq_zero]
  rw [getFlag_addFlags, getFlag_compareFlags, hp, addResult_invert_true, addCarry_invert_true, hz]
  simp only [List.mem_cons, List.not_mem_nil, or_false] at hf
  obtain rfl | rfl | rfl := hf <;> rfl

/-- A flag instruction ends with its one flag written (R650). -/
theorem writeFlag_eq (i : Instr) (f : Flag) (v : Bool) (s : State) :
    writeFlag i f v s = finish i (implied s) { s.cpu with p := setFlag f v s.cpu.p } := rfl

/-- Settles O30: the first two laws are `addResult_invert_addResult`; SEC changes no operand (`readOperand_m_of_cpu`)
and sets the carry with which SBC computes CMP's flags (`addFlags_invert_true`). -/
theorem arithmeticIdentities : Obligations.ArithmeticIdentities := by
  constructor
  · intro o s
    refine ⟨_, exec_adc o s, fun o' u ha hm => ⟨_, exec_sbc o' u, ?_⟩⟩
    have hadc : u.cpu.a = addResult s.cpu.a (readOperand o s).cpu.m (getFlag .c s.cpu.p) := ha
    rw [hm]
    change addResult u.cpu.a _ (getFlag .c u.cpu.p) = _
    rw [hadc, addResult_invert_addResult]
  · intro o s t u v ht hu hv
    have hsec : exec .sec s = .next (finish .sec (implied s) { s.cpu with p := setFlag .c true s.cpu.p }) := rfl
    rw [exec_cmp] at ht
    rw [hsec] at hu
    cases ht
    cases hu
    rw [exec_sbc] at hv
    cases hv
    have hm : (readOperand o (finish .sec (implied s) { s.cpu with p := setFlag .c true s.cpu.p })).cpu.m =
        (readOperand o s).cpu.m := readOperand_m_of_cpu o s rfl rfl
    have hflag {f : Flag} (hf : f ∈ [Flag.n, .z, .c]) :=
      (addFlags_invert_true hf s.cpu.a (readOperand o s).cpu.m s.cpu.p
        (getFlag_setFlag_same .c true s.cpu.p)).symm
    rw [hm]
    exact ⟨hflag (by simp), hflag (by simp), hflag (by simp), rfl,
      flagsKeptBut_compareFlags _ _ _ .v (by simp)⟩

/-! ## Shifts and rotates -/

/-- The byte a shift or a rotate makes of `m`, to the left or to the right, with `fill` moved in. -/
def shiftedByte (left fill : Bool) (m : Byte) : Byte := if left then rolResult fill m else rorResult fill m

/-- The bit it moves out. -/
def shiftedOut (left : Bool) (m : Byte) : Bool := m.getLsbD (if left then 7 else 0)

/-- The bits of the byte (R555 to R558). -/
theorem getLsbD_shiftedByte (left fill : Bool) (m : Byte) {k : Nat} (hk : k < 8) :
    (shiftedByte left fill m).getLsbD k =
      if left then (if k = 0 then fill else m.getLsbD (k - 1)) else (if k = 7 then fill else m.getLsbD (k + 1)) := by
  cases left <;> cases fill <;> interval_cases k <;> simp [shiftedByte, rolResult, rorResult]

/-- ASL and LSR move a 0 in. -/
theorem shiftLeft_eq (m : Byte) : m <<< 1 = shiftedByte true false m := by simp [shiftedByte, rolResult]
theorem shiftRight_eq (m : Byte) : m >>> 1 = shiftedByte false false m := by simp [shiftedByte, rorResult]

/-- A shift keeps the flags that it does not compute. -/
theorem flagsKeptBut_shiftFlags (out : Bool) (r p : Byte) : flagsKeptBut [.n, .z, .c] p (shiftFlags out r p) := by
  intro f hf
  simp only [List.mem_cons, List.not_mem_nil, or_false, not_or] at hf
  obtain ⟨hn, hz, hc⟩ := hf
  simp only [getFlag_shiftFlags, hn, hz, hc, if_false]

/-- P after the shift of `m`. -/
def shiftedFlags (left fill : Bool) (m p : Byte) : Byte := shiftFlags (shiftedOut left m) (shiftedByte left fill m) p

/-- What a shift of the accumulator does. -/
theorem shiftAcc_claims {i : Instr} {bytes : List Byte} {left fill : Bool} {s : State} (hform : form i bytes 2)
    (hexec : exec i s = .next (finish i (implied s)
      { s.cpu with a := shiftedByte left fill s.cpu.a, p := shiftedFlags left fill s.cpu.a s.cpu.p })) :
    ∃ t, exec i s = .next t ∧ leaves s s { s.cpu with a := t.cpu.a, p := t.cpu.p } t ∧
      (∀ k, k < 8 → t.cpu.a.getLsbD k =
        if left then (if k = 0 then fill else s.cpu.a.getLsbD (k - 1))
        else (if k = 7 then fill else s.cpu.a.getLsbD (k + 1))) ∧
      getFlag .c t.cpu.p = s.cpu.a.getLsbD (if left then 7 else 0) ∧ nzFrom t.cpu.a t.cpu.p ∧
      flagsKeptBut [.n, .z, .c] s.cpu.p t.cpu.p ∧ t.cpu.cycles = 2 :=
  ⟨_, hexec, leaves_finish_implied i s _, fun _ hk => getLsbD_shiftedByte left fill _ hk, getFlag_shiftFlags .c _ _ _,
    nzFrom_setNZ _ _, flagsKeptBut_shiftFlags _ _ _, finish_implied_cycles hform s _⟩

/-- Settles O33: the four accumulator forms differ only in the direction and the bit moved in (`shiftAcc_claims`). -/
theorem shiftsMoveAccumulator : Obligations.ShiftsMoveAccumulator := by
  have hasl : form (.asl .acc) [0x0A] 2 := ⟨rfl, fun _ => rfl⟩
  have hlsr : form (.lsr .acc) [0x4A] 2 := ⟨rfl, fun _ => rfl⟩
  have hrol : form (.rol .acc) [0x2A] 2 := ⟨rfl, fun _ => rfl⟩
  have hror : form (.ror .acc) [0x6A] 2 := ⟨rfl, fun _ => rfl⟩
  refine ⟨hasl, hlsr, hrol, hror, fun s i left fill h => ?_⟩
  simp only [List.mem_cons, List.not_mem_nil, or_false, Prod.mk.injEq] at h
  obtain ⟨rfl, rfl, rfl⟩ | ⟨rfl, rfl, rfl⟩ | ⟨rfl, rfl, rfl⟩ | ⟨rfl, rfl, rfl⟩ := h
  · refine shiftAcc_claims hasl ?_
    simp only [exec, execAsl, shiftLeft_eq]
    rfl
  · refine shiftAcc_claims hlsr ?_
    simp only [exec, execLsr, shiftRight_eq]
    rfl
  · exact shiftAcc_claims hrol rfl
  · exact shiftAcc_claims hror rfl

/-- What a shift of memory does. -/
theorem shiftMem_claims {i : Instr} {m : Mem} {left fill : Bool} {s : State} (hop : i.opExtra = false)
    (hexec : exec i s = .next (modify i (shiftedByte left fill (readMemory m s).cpu.m)
      (shiftedFlags left fill (readMemory m s).cpu.m s.cpu.p) (readMemory m s))) :
    let u := readMemory m s
    ∃ t r, exec i s = .next t ∧ wrote u (address m s).cpu.ea r t ∧ t.cpu = latched { s.cpu with p := t.cpu.p } t.cpu ∧
      (∀ k, k < 8 → r.getLsbD k =
        if left then (if k = 0 then fill else u.cpu.m.getLsbD (k - 1))
        else (if k = 7 then fill else u.cpu.m.getLsbD (k + 1))) ∧
      getFlag .c t.cpu.p = u.cpu.m.getLsbD (if left then 7 else 0) ∧ nzFrom r t.cpu.p ∧
      flagsKeptBut [.n, .z, .c] s.cpu.p t.cpu.p ∧ t.cpu.cycles = i.baseCycles s.params :=
  ⟨_, _, hexec, wrote_modify i _ _ m s, modify_cpu_latched i _ _ m s, fun _ hk => getLsbD_shiftedByte left fill _ hk,
    getFlag_shiftFlags .c _ _ _, nzFrom_setNZ _ _, flagsKeptBut_shiftFlags _ _ _, modify_cycles hop _ _ m s⟩

/-- A memory form writes the moved byte at EA and then sets P (R550). -/
theorem shiftWith_mem (i : Instr) (left fill : Bool) (m : Mem) (s : State) :
    charge i 0 (shiftWith (.mem m) (shiftedOut left (readMemory m s).cpu.m)
      (shiftedByte left fill (readMemory m s).cpu.m) (readMemory m s)) =
    modify i (shiftedByte left fill (readMemory m s).cpu.m) (shiftedFlags left fill (readMemory m s).cpu.m s.cpu.p)
      (readMemory m s) := by
  rw [shiftWith, readMemory_cpu_p]
  rfl

/-- Settles O34: the four memory forms differ only in the direction and the bit moved in (`shiftWith_mem`,
`shiftMem_claims`). -/
theorem shiftsModifyMemory : Obligations.ShiftsModifyMemory := by
  refine ⟨?_, ?_, ?_, ?_, fun m s i left fill h => ?_⟩
  iterate 4
    · intro b w
      refine ⟨?_, ?_, ?_, ?_⟩ <;> exact ⟨rfl, fun _ => rfl⟩
  simp only [List.mem_cons, List.not_mem_nil, or_false, Prod.mk.injEq] at h
  obtain ⟨rfl, rfl, rfl⟩ | ⟨rfl, rfl, rfl⟩ | ⟨rfl, rfl, rfl⟩ | ⟨rfl, rfl, rfl⟩ := h
  · refine shiftMem_claims rfl ?_
    rw [← shiftWith_mem]
    simp only [exec, execAsl, shiftLeft_eq]
    rfl
  · refine shiftMem_claims rfl ?_
    rw [← shiftWith_mem]
    simp only [exec, execLsr, shiftRight_eq]
    rfl
  · refine shiftMem_claims rfl ?_
    rw [← shiftWith_mem, ← readMemory_cpu_p m s]
    rfl
  · refine shiftMem_claims rfl ?_
    rw [← shiftWith_mem, ← readMemory_cpu_p m s]
    rfl

/-! ## The flag instructions and the no-ops -/

/-- What a flag instruction does. -/
theorem writeFlag_claims {i : Instr} {bytes : List Byte} {f : Flag} {v : Bool} {s : State} (hform : form i bytes 2)
    (hexec : exec i s = .next (writeFlag i f v s)) :
    ∃ t, exec i s = .next t ∧ leaves s s { s.cpu with p := t.cpu.p } t ∧ getFlag f t.cpu.p = v ∧
      flagsKeptBut [f] s.cpu.p t.cpu.p ∧ t.cpu.cycles = 2 := by
  rw [writeFlag_eq] at hexec
  exact ⟨_, hexec, leaves_finish_implied i s _, getFlag_setFlag_same f v _, flagsKeptBut_setFlag f v _,
    finish_implied_cycles hform s _⟩

/-- Settles O42: the seven differ only in the flag and its value (`writeFlag_claims`). -/
theorem flagInstructionsWriteOneFlag : Obligations.FlagInstructionsWriteOneFlag := by
  have hclc : form .clc [0x18] 2 := ⟨rfl, fun _ => rfl⟩
  have hsec : form .sec [0x38] 2 := ⟨rfl, fun _ => rfl⟩
  have hcli : form .cli [0x58] 2 := ⟨rfl, fun _ => rfl⟩
  have hsei : form .sei [0x78] 2 := ⟨rfl, fun _ => rfl⟩
  have hcld : form .cld [0xD8] 2 := ⟨rfl, fun _ => rfl⟩
  have hsed : form .sed [0xF8] 2 := ⟨rfl, fun _ => rfl⟩
  have hclv : form .clv [0xB8] 2 := ⟨rfl, fun _ => rfl⟩
  refine ⟨hclc, hsec, hcli, hsei, hcld, hsed, hclv, fun s i f v h => ?_⟩
  simp only [List.mem_cons, List.not_mem_nil, or_false, Prod.mk.injEq] at h
  obtain ⟨rfl, rfl, rfl⟩ | ⟨rfl, rfl, rfl⟩ | ⟨rfl, rfl, rfl⟩ | ⟨rfl, rfl, rfl⟩ | ⟨rfl, rfl, rfl⟩ | ⟨rfl, rfl, rfl⟩ |
    ⟨rfl, rfl, rfl⟩ := h
  · exact writeFlag_claims hclc rfl
  · exact writeFlag_claims hsec rfl
  · exact writeFlag_claims hcli rfl
  · exact writeFlag_claims hsei rfl
  · exact writeFlag_claims hcld rfl
  · exact writeFlag_claims hsed rfl
  · exact writeFlag_claims hclv rfl

/-- NOP and the illegal no-op end with the registers as they were (R658, R390). -/
theorem exec_nop (s : State) : exec .nop s = .next (finish .nop (implied s) s.cpu) := rfl
theorem exec_illegal (op : Byte) (s : State) :
    exec (.illegal op) s = .next (finish (.illegal op) (implied s) s.cpu) := rfl

/-- Settles O43: both work in implied mode and leave the registers (`exec_nop`, `exec_illegal`); the illegal no-op's
base count is the parameter. -/
theorem noOpsChangeNothing : Obligations.NoOpsChangeNothing := by
  have hnop : form .nop [0xEA] 2 := ⟨rfl, fun _ => rfl⟩
  exact ⟨hnop, fun s =>
    ⟨⟨_, exec_nop s, leaves_finish_implied .nop s _, finish_implied_cycles hnop s _⟩,
      fun op => ⟨_, exec_illegal op s, leaves_finish_implied (.illegal op) s _, rfl⟩⟩⟩

end Sys2Proof.Machine
end

section
/-! OAM-DMA (spec/63 R1020 to R1023). A transfer is 256 pairs of a read cycle and a write cycle; the state before a pair
is described by how many bytes have been copied (`transferring`). -/

namespace Sys2Proof.Machine

/-! ## Runs of DMA steps -/

/-- One DMA step with its CPU cycle. -/
def dmaCycle (s : State) : State := { dmaStep s with cpuCycle := (dmaStep s).cpuCycle + 1 }

theorem dmaRun_succ (n : Nat) (s : State) : dmaRun (n + 1) s = dmaRun n (dmaCycle s) := rfl

theorem dmaRun_add (m n : Nat) (s : State) : dmaRun (m + n) s = dmaRun n (dmaRun m s) := by
  induction m generalizing s with
  | zero => rw [Nat.zero_add]; rfl
  | succ m ih => rw [Nat.succ_add, dmaRun_succ, dmaRun_succ, ih]

/-- No DMA step changes the CPU, CPU RAM or the cartridge. -/
theorem dmaRun_frame (n : Nat) (s : State) :
    (dmaRun n s).cpu = s.cpu ∧ (dmaRun n s).ram = s.ram ∧ (dmaRun n s).cart = s.cart := by
  induction n generalizing s with
  | zero => exact ⟨rfl, rfl, rfl⟩
  | succ n ih =>
    obtain ⟨hcpu, hram, hcart, -⟩ := dmaStep_frame s
    obtain ⟨hcpu', hram', hcart'⟩ := ih (dmaCycle s)
    exact ⟨hcpu'.trans hcpu, hram'.trans hram, hcart'.trans hcart⟩

/-! ## One byte -/

/-- Before the read cycle of byte `k` of a transfer. -/
def transferring (k : Nat) (s : State) : Prop :=
  s.dma.active = true ∧ s.dma.dummy = false ∧ s.dma.addr.toNat = k ∧ s.cpuCycle % 2 = 0

/-- The byte that the read cycle reads. -/
def dmaByte (s : State) : Byte := busValue s (dmaSource s.dma)

/-- The read cycle: one bus read into the coordinator's latch (R1021). -/
theorem dmaCycle_read {k : Nat} {s : State} (h : transferring k s) :
    dmaCycle s =
      { (busRead s (dmaSource s.dma)).2 with
        dma := { s.dma with data := dmaByte s }, cpuCycle := s.cpuCycle + 1 } := by
  obtain ⟨-, hdummy, -, heven⟩ := h
  simp [dmaCycle, dmaStep, hdummy, heven, dmaByte, busValue]

/-- The coordinator after the write cycle of a byte: done after the last one (R1022). -/
def dmaNext (d : Dma) : Dma :=
  if d.addr = 0xFF then { d with active := false, dummy := true, addr := 0 } else { d with addr := d.addr + 1 }

/-- The two cycles of a byte: a bus read, and a write of OAM. -/
theorem dmaRun_two {k : Nat} {s : State} (h : transferring k s) :
    dmaRun 2 s =
      { (busRead s (dmaSource s.dma)).2 with
        ppu := oamWrite (busRead s (dmaSource s.dma)).2.ppu s.dma.addr (dmaByte s)
        dma := dmaNext { s.dma with data := dmaByte s }
        cpuCycle := s.cpuCycle + 2 } := by
  have hread := dmaCycle_read h
  obtain ⟨-, hdummy, -, heven⟩ := h
  have hodd : ¬ (s.cpuCycle + 1) % 2 = 0 := by omega
  change dmaCycle (dmaCycle s) = _
  rw [hread]
  simp [dmaCycle, dmaStep, hdummy, hodd, dmaNext]

/-- After a byte that is not the last, the transfer is before the next one. -/
theorem transferring_succ {k : Nat} {s : State} (h : transferring k s) (hk : k < 255) :
    transferring (k + 1) (dmaRun 2 s) := by
  have htwo := dmaRun_two h
  obtain ⟨hactive, hdummy, haddr, heven⟩ := h
  have hne : s.dma.addr ≠ 0xFF := by
    rintro he
    rw [he] at haddr
    exact absurd haddr (by simp; omega)
  have hnext : (s.dma.addr + 1).toNat = k + 1 := by
    rw [BitVec.toNat_add, haddr]
    exact Nat.mod_eq_of_lt (by simp; omega)
  rw [htwo, transferring, dmaNext, if_neg hne]
  exact ⟨hactive, hdummy, hnext, by simp only; omega⟩

/-- After the last byte the transfer is over. -/
theorem not_active_of_last {s : State} (h : transferring 255 s) : (dmaRun 2 s).dma.active = false := by
  have haddr : s.dma.addr = 0xFF := BitVec.eq_of_toNat_eq h.2.2.1
  rw [dmaRun_two h, dmaNext, if_pos haddr]

/-! ## A whole transfer -/

theorem transferring_dmaRun {s : State} (h : transferring 0 s) {k : Nat} (hk : k ≤ 255) :
    transferring k (dmaRun (2 * k) s) := by
  induction k with
  | zero => exact h
  | succ k ih =>
    rw [Nat.mul_succ, dmaRun_add]
    exact transferring_succ (ih (by omega)) (by omega)

/-- The 512 steps from the first read cycle: DMA is active in each, and idle after the last. -/
theorem dma_active_512 {s : State} (h : transferring 0 s) :
    (∀ j, j < 512 → (dmaRun j s).dma.active = true) ∧ (dmaRun 512 s).dma.active = false := by
  constructor
  · intro j hj
    have hpair := transferring_dmaRun h (show j / 2 ≤ 255 by omega)
    obtain hj2 | hj2 : j = 2 * (j / 2) ∨ j = 2 * (j / 2) + 1 := by omega
    · rw [hj2]
      exact hpair.1
    · rw [hj2, dmaRun_add]
      change (dmaCycle _).dma.active = true
      rw [dmaCycle_read hpair]
      exact hpair.1
  · rw [show 512 = 2 * 255 + 2 from rfl, dmaRun_add]
    exact not_active_of_last (transferring_dmaRun h (by omega))

/-- A transfer that waits in an odd cycle: one step more (R1021, R1023). -/
theorem dma_active_513 {s : State} (hactive : s.dma.active = true) (hdummy : s.dma.dummy = true)
    (haddr : s.dma.addr = 0) (hodd : s.cpuCycle % 2 = 1) :
    (∀ j, j < 513 → (dmaRun j s).dma.active = true) ∧ (dmaRun 513 s).dma.active = false := by
  have hstart : transferring 0 (dmaCycle s) := by
    have heven : (s.cpuCycle + 1) % 2 = 0 := by omega
    simp [transferring, dmaCycle, dmaStep, hactive, hdummy, haddr, hodd, heven]
  obtain ⟨hduring, hafter⟩ := dma_active_512 hstart
  constructor
  · rintro (_ | j) hj
    · exact hactive
    · rw [dmaRun_succ]
      exact hduring j (by omega)
  · rw [show 513 = 512 + 1 from rfl, dmaRun_succ]
    exact hafter

/-- In an even cycle it waits for one step more. -/
theorem dma_active_514 {s : State} (hactive : s.dma.active = true) (hdummy : s.dma.dummy = true)
    (haddr : s.dma.addr = 0) (heven : s.cpuCycle % 2 = 0) :
    (∀ j, j < 514 → (dmaRun j s).dma.active = true) ∧ (dmaRun 514 s).dma.active = false := by
  have hwait : dmaCycle s = { s with cpuCycle := s.cpuCycle + 1 } := by simp [dmaCycle, dmaStep, hdummy, heven]
  have hodd : (s.cpuCycle + 1) % 2 = 1 := by omega
  obtain ⟨hduring, hafter⟩ :=
    dma_active_513 (s := dmaCycle s) (by rwa [hwait]) (by rwa [hwait]) (by rwa [hwait]) (by rwa [hwait])
  constructor
  · rintro (_ | j) hj
    · exact hactive
    · rw [dmaRun_succ]
      exact hduring j (by omega)
  · rw [show 514 = 513 + 1 from rfl, dmaRun_succ]
    exact hafter

/-- No cartridge claims 0x4014, so a write of it triggers DMA (R1020). -/
theorem busWrite_dmaTrigger (s : State) (page : Byte) :
    busWrite s 0x4014 page = { s with dma := dmaStart page s.dma } := by
  unfold busWrite
  dsimp only
  rw [cartCpuWrite_low s.cart page (by decide)]
  rfl

/-- Settles O50: the trigger's next cycle is odd after an even one and even after an odd one (`dma_active_513`,
`dma_active_514`). -/
theorem dmaTakes513Or514Cycles : Obligations.DmaTakes513Or514Cycles := by
  intro s page hidle
  have hstart : dmaStart page s.dma = { s.dma with active := true, dummy := true, page := page, addr := 0 } := by
    simp [dmaStart, hidle]
  dsimp only
  rw [busWrite_dmaTrigger, hstart]
  split
  · next heven =>
    have hodd : (s.cpuCycle + 1) % 2 = 1 := by omega
    exact dma_active_513 rfl rfl rfl hodd
  · next hodd =>
    have heven : (s.cpuCycle + 1) % 2 = 0 := by omega
    exact dma_active_514 rfl rfl rfl heven

/-! ## What is copied -/

/-- The page's reads have no side effect (R211). -/
theorem plainAddr_dmaSource {d : Dma} (h : d.page.toNat < 0x20 ∨ 0x40 < d.page.toNat) : plainAddr (dmaSource d) := by
  have haddr := d.addr.isLt
  rw [plainAddr, dmaSource, hiLo_toNat]
  omega

/-- What OAM holds after its cell `i` is written. -/
theorem oamAt_oamWrite (p : Ppu) (i d : Byte) (k : Nat) :
    oamAt (oamWrite p i d) k = if k = i.toNat then d else oamAt p k :=
  byteAt_cellSet .oam p.oam i.toNat k d

/-- The state `t` in which the bytes below `k` of the page that `s` names have been copied. -/
def copied (s : State) (k : Nat) (t : State) : Prop :=
  t.dma.page = s.dma.page ∧
    ∀ i, i < k → oamAt t.ppu i = busValue s (BitVec.ofNat 16 (s.dma.page.toNat * 256 + i))

/-- The two cycles of byte `k` copy it. -/
theorem copied_succ {s t : State} {k : Nat} (hpage : s.dma.page.toNat < 0x20 ∨ 0x40 < s.dma.page.toNat)
    (ht : transferring k t) (hram : t.ram = s.ram) (hcart : t.cart = s.cart) (h : copied s k t) :
    copied s (k + 1) (dmaRun 2 t) := by
  obtain ⟨htpage, hoam⟩ := h
  have hplain : plainAddr (dmaSource t.dma) := plainAddr_dmaSource (by rwa [htpage])
  have hsource : dmaSource t.dma = BitVec.ofNat 16 (s.dma.page.toNat * 256 + k) := by
    rw [dmaSource, hiLo_eq_ofNat, htpage, ht.2.2.1]
  have hbyte : dmaByte t = busValue s (BitVec.ofNat 16 (s.dma.page.toNat * 256 + k)) := by
    rw [← hsource, dmaByte, busValue_plain hplain hram hcart]
  have hread : (busRead t (dmaSource t.dma)).2 = t := by rw [busRead_plain hplain hram hcart]
  rw [dmaRun_two ht, hread]
  constructor
  · simp only [dmaNext]
    split <;> exact htpage
  · intro i hi
    dsimp only
    rw [oamAt_oamWrite, ht.2.2.1, hbyte]
    split
    · next hik => rw [hik]
    · exact hoam i (by omega)

theorem copied_dmaRun {s : State} (hpage : s.dma.page.toNat < 0x20 ∨ 0x40 < s.dma.page.toNat) (h : transferring 0 s)
    {k : Nat} (hk : k ≤ 256) : copied s k (dmaRun (2 * k) s) := by
  induction k with
  | zero => exact ⟨rfl, fun i hi => absurd hi (by omega)⟩
  | succ k ih =>
    obtain ⟨-, hram, hcart⟩ := dmaRun_frame (2 * k) s
    rw [Nat.mul_succ, dmaRun_add]
    exact copied_succ hpage (transferring_dmaRun h (by omega)) hram hcart (ih (by omega))

/-- Settles O49: the 256 pairs of cycles copy the page byte by byte (`copied_dmaRun`) and end the transfer
(`dma_active_512`); the CPU and its RAM are kept by any DMA step (`dmaRun_frame`). -/
theorem dmaCopiesPageInOrder : Obligations.DmaCopiesPageInOrder := by
  intro s hactive hdummy haddr heven hpage
  have hstart : transferring 0 s := ⟨hactive, hdummy, by rw [haddr]; rfl, heven⟩
  obtain ⟨-, hafter⟩ := dma_active_512 hstart
  obtain ⟨-, hoam⟩ := copied_dmaRun hpage hstart (le_refl 256)
  obtain ⟨hcpu, hram, -⟩ := dmaRun_frame 512 s
  exact ⟨hafter, hoam, hcpu, hram⟩

end Sys2Proof.Machine
end

section
/-! The PPU's registers and its VRAM address (spec/61 R814 to R822). The 15 bits of v and t are four fields, `vram`: the
writes of PPUSCROLL and the Y increment act on the fields one by one. -/

namespace Sys2Proof.Machine

/-! ## PPUSTATUS -/

/-- Settles O52: every mirror is register 2 (`busRead_ppu`), whose read clears bit 7 with the mask 0x7F. -/
theorem ppuStatusReadClearsVblankAndToggle : Obligations.PpuStatusReadClearsVblankAndToggle := by
  intro s a hlo hhi hreg
  refine ⟨(readPpuStatus s.ppu).2, ?_, rfl, fun k hk => ?_⟩
  · rw [busRead_ppu s hlo hhi, hreg]
    rfl
  · rw [readPpuStatus, BitVec.getLsbD_and, Bool.and_comm]
    congr 1
    revert k
    decide

/-! ## The fields of the VRAM address (R820) -/

/-- The 15 bits: fine Y, the two nametable bits, coarse Y, coarse X. -/
def vram (fine : BitVec 3) (nt : BitVec 2) (cy cx : BitVec 5) : BitVec 15 := fine ++ (nt ++ (cy ++ cx))

theorem toNat_append_eq_add {m n : Nat} (x : BitVec m) (y : BitVec n) : (x ++ y).toNat = x.toNat * 2 ^ n + y.toNat := by
  rw [BitVec.toNat_append, ← Nat.shiftLeft_add_eq_or_of_lt y.isLt, Nat.shiftLeft_eq]

theorem vram_toNat (fine : BitVec 3) (nt : BitVec 2) (cy cx : BitVec 5) :
    (vram fine nt cy cx).toNat = fine.toNat * 4096 + nt.toNat * 1024 + cy.toNat * 32 + cx.toNat := by
  simp only [vram, toNat_append_eq_add]
  omega

section
variable (fine fine' : BitVec 3) (nt nt' : BitVec 2) (cy cy' cx cx' : BitVec 5)

theorem vram_and : vram fine nt cy cx &&& vram fine' nt' cy' cx' =
    vram (fine &&& fine') (nt &&& nt') (cy &&& cy') (cx &&& cx') := by
  exact BitVec.and_append.trans (congrArg _ (BitVec.and_append.trans (congrArg _ BitVec.and_append)))

theorem vram_or : vram fine nt cy cx ||| vram fine' nt' cy' cx' =
    vram (fine ||| fine') (nt ||| nt') (cy ||| cy') (cx ||| cx') := by
  exact BitVec.or_append.trans (congrArg _ (BitVec.or_append.trans (congrArg _ BitVec.or_append)))

theorem vram_xor : vram fine nt cy cx ^^^ vram fine' nt' cy' cx' =
    vram (fine ^^^ fine') (nt ^^^ nt') (cy ^^^ cy') (cx ^^^ cx') := by
  exact BitVec.xor_append.trans (congrArg _ (BitVec.xor_append.trans (congrArg _ BitVec.xor_append)))

/-! The masks that the rules write select fields. -/

theorem vram_and_7FE0 : vram fine nt cy cx &&& 0x7FE0 = vram fine nt cy 0#5 := by
  change _ &&& vram (.allOnes 3) (.allOnes 2) (.allOnes 5) 0#5 = _
  simp only [vram_and, BitVec.and_allOnes, BitVec.and_zero]

theorem vram_and_0C1F : vram fine nt cy cx &&& 0x0C1F = vram 0#3 nt 0#5 cx := by
  change _ &&& vram 0#3 (.allOnes 2) 0#5 (.allOnes 5) = _
  simp only [vram_and, BitVec.and_allOnes, BitVec.and_zero]

theorem vram_and_7000 : vram fine nt cy cx &&& 0x7000 = vram fine 0#2 0#5 0#5 := by
  change _ &&& vram (.allOnes 3) 0#2 0#5 0#5 = _
  simp only [vram_and, BitVec.and_allOnes, BitVec.and_zero]

theorem vram_and_03E0 : vram fine nt cy cx &&& 0x03E0 = vram 0#3 0#2 cy 0#5 := by
  change _ &&& vram 0#3 0#2 (.allOnes 5) 0#5 = _
  simp only [vram_and, BitVec.and_allOnes, BitVec.and_zero]

theorem vram_and_0FFF : vram fine nt cy cx &&& 0x0FFF = vram 0#3 nt cy cx := by
  change _ &&& vram 0#3 (.allOnes 2) (.allOnes 5) (.allOnes 5) = _
  simp only [vram_and, BitVec.and_allOnes, BitVec.and_zero]

end

/-- Every address is the vector of its fields. -/
theorem exists_vram (v : BitVec 15) :
    ∃ fine nt cy cx, v = vram fine nt cy cx ∧ fine.toNat = v.toNat / 4096 ∧ nt.toNat = v.toNat / 1024 % 4 ∧
      cy.toNat = v.toNat / 32 % 32 ∧ cx.toNat = v.toNat % 32 := by
  have hv := v.isLt
  refine ⟨.ofNat 3 (v.toNat / 4096), .ofNat 2 (v.toNat / 1024), .ofNat 5 (v.toNat / 32), .ofNat 5 v.toNat, ?_, ?_⟩
  · apply BitVec.eq_of_toNat_eq
    rw [vram_toNat]
    simp only [BitVec.toNat_ofNat]
    omega
  · simp only [BitVec.toNat_ofNat]
    exact ⟨by omega, trivial, trivial, trivial⟩

/-! ## PPUSCROLL and PPUADDR (R817, R818) -/

/-- The first PPUSCROLL byte gives coarse X, the second fine Y and coarse Y. -/
theorem scroll_byte_fields : ∀ d : Byte,
    (d >>> 3).setWidth 15 = vram 0#3 0#2 0#5 (.ofNat 5 (d.toNat / 8)) ∧
    (d &&& 0x07).setWidth 3 = BitVec.ofNat 3 d.toNat ∧
    (d &&& 0x07).setWidth 15 <<< 12 = vram (.ofNat 3 d.toNat) 0#2 0#5 0#5 ∧
    (d &&& 0xF8).setWidth 15 <<< 2 = vram 0#3 0#2 (.ofNat 5 (d.toNat / 8)) 0#5 := by decide

/-- t after the two PPUSCROLL writes. -/
theorem scroll_writes {p : Ppu} (hw : p.w = false) (d1 d2 : Byte) :
    (writePpuScroll (writePpuScroll p d1) d2).t.toNat =
      d2.toNat % 8 * 4096 + p.t.toNat / 1024 % 4 * 1024 + d2.toNat / 8 * 32 + d1.toNat / 8 := by
  have h1 := d1.isLt
  have h2 := d2.isLt
  obtain ⟨fine, nt, cy, cx, ht, -, hnt, -, -⟩ := exists_vram p.t
  obtain ⟨hcx, -, -, -⟩ := scroll_byte_fields d1
  obtain ⟨-, -, hfine, hcy⟩ := scroll_byte_fields d2
  simp only [writePpuScroll, hw, Bool.false_eq_true, if_false, if_true]
  rw [hcx, hfine, hcy, ← hnt, ht]
  simp only [show ((0x7FE0 : Nat) : BitVec 15) = 0x7FE0 from rfl, show ((0x0C1F : Nat) : BitVec 15) = 0x0C1F from rfl,
    vram_and_7FE0, vram_and_0C1F, vram_or, BitVec.zero_or, BitVec.or_zero, vram_toNat, BitVec.toNat_ofNat]
  omega

/-- t after the two PPUADDR writes. -/
theorem addr_writes {p : Ppu} (hw : p.w = false) (d1 d2 : Byte) :
    (writePpuAddr (writePpuAddr p d1) d2).t = (d1.setWidth 6).setWidth 7 ++ d2 := by
  simp only [writePpuAddr, hw, Bool.false_eq_true, if_false, if_true]
  apply BitVec.eq_of_getLsbD_eq
  intro i hi
  refine Eq.trans ?_ BitVec.getLsbD_append.symm
  interval_cases i <;> simp

/-- Settles O53: from a clear toggle the writes come as a first and a second; the fields of t are those of
`scroll_writes` and `addr_writes`. -/
theorem scrollAndAddressWritePairs : Obligations.ScrollAndAddressWritePairs := by
  intro c p d1 d2 hw
  obtain ⟨-, hfineX, -, -⟩ := scroll_byte_fields d1
  refine ⟨⟨?_, scroll_writes hw d1 d2⟩, ?_, ?_⟩
  · simp only [ppuCpuWrite, writePpuScroll, hw, hfineX, Bool.false_eq_true, if_false, if_true]
  · simp [ppuCpuWrite, writePpuAddr, hw]
  · change (writePpuAddr (writePpuAddr p d1) d2).t.toNat = _
    rw [addr_writes hw, toNat_append_eq_add]
    simp
    omega

/-! ## The Y increment (R822) -/

theorem vram_eq_iff {fine : BitVec 3} {nt : BitVec 2} {cy cx : BitVec 5} {v : BitVec 15} :
    vram fine nt cy cx = v ↔ fine.toNat * 4096 + nt.toNat * 1024 + cy.toNat * 32 + cx.toNat = v.toNat := by
  rw [← BitVec.toNat_inj, vram_toNat]

/-- The exclusive or with 0x0800 toggles the vertical nametable bit. -/
theorem toggle_vertical_toNat : ∀ nt : BitVec 2, (nt ^^^ 2).toNat = (1 - nt.toNat / 2) * 2 + nt.toNat % 2 := by decide

theorem vram_xor_0800 (fine : BitVec 3) (nt : BitVec 2) (cy cx : BitVec 5) :
    vram fine nt cy cx ^^^ 0x0800 = vram fine (nt ^^^ 2) cy cx := by
  change _ ^^^ vram 0#3 2 0#5 0#5 = _
  simp only [vram_xor, BitVec.xor_zero]

/-- The Y increment as numbers. -/
theorem coarseYNext_toNat (fine : BitVec 3) (nt : BitVec 2) (cy cx : BitVec 5) :
    (coarseYNext (vram fine nt cy cx)).toNat =
      if fine.toNat < 7 then (fine.toNat + 1) * 4096 + nt.toNat * 1024 + cy.toNat * 32 + cx.toNat
      else if cy.toNat = 29 then (1 - nt.toNat / 2) * 2048 + nt.toNat % 2 * 1024 + cx.toNat
      else if cy.toNat = 31 then nt.toNat * 1024 + cx.toNat
      else nt.toNat * 1024 + (cy.toNat + 1) * 32 + cx.toNat := by
  have hfine := fine.isLt
  have hnt := nt.isLt
  have hcy := cy.isLt
  have hcx := cx.isLt
  have hfine7 : vram fine 0#2 0#5 0#5 ≠ 0x7000 ↔ fine.toNat < 7 := by rw [ne_eq, vram_eq_iff]; simp; omega
  have hcy29 : vram 0#3 0#2 cy 0#5 = 0x03A0 ↔ cy.toNat = 29 := by rw [vram_eq_iff]; simp; omega
  have hcy31 : vram 0#3 0#2 cy 0#5 = 0x03E0 ↔ cy.toNat = 31 := by rw [vram_eq_iff]; simp; omega
  simp only [coarseYNext, vram_and_7000, vram_and_03E0, vram_and_0C1F, vram_and_0FFF, vram_xor_0800, hfine7, hcy29,
    hcy31]
  split
  · rw [BitVec.toNat_add, vram_toNat]
    simp
    omega
  split
  · rw [vram_toNat, toggle_vertical_toNat]
    simp
    omega
  split
  · rw [vram_toNat]
    simp
  · rw [BitVec.toNat_add, vram_toNat]
    simp
    omega

/-- Settles O57: with rendering off nothing is done; else the four cases of `coarseYNext_toNat`. -/
theorem yIncrementCountsRows : Obligations.YIncrementCountsRows := by
  intro p
  obtain ⟨fine, nt, cy, cx, hv, hfine, hnt, hcy, hcx⟩ := exists_vram p.v
  refine ⟨?_, ?_⟩
  · obtain ⟨v, hq⟩ := incY_eq p
    rw [hq]
  · by_cases hoff : p.mask.getLsbD 3 = false ∧ p.mask.getLsbD 4 = false
    · rw [if_pos hoff, incY, rendering, hoff.1, hoff.2]
      rfl
    · have hon : rendering p = true := by simpa [rendering, or_iff_not_imp_left] using hoff
      rw [if_neg hoff, incY, hon, applyIf, if_pos rfl]
      have hnext := coarseYNext_toNat fine nt cy cx
      rw [← hv, hfine, hnt, hcy, hcx] at hnext
      dsimp only
      rw [hnext]
      split_ifs <;> omega

end Sys2Proof.Machine
end

section
/-! PPUDATA and sprite evaluation (spec/61 R819, R830 to R832, R850). -/

namespace Sys2Proof.Machine

/-! ## The PPU's bus above the pattern tables -/

/-- No cartridge answers a PPU address above the pattern tables. -/
theorem cartPpuRead_high (c : Cart) {a : Nat} (h : 0x2000 ≤ a) : cartPpuRead c a = none := by
  have hlow : ¬ a ≤ 0x1FFF := by omega
  cases c <;> simp [cartPpuRead, hlow]

theorem cartPpuWrite_high (c : Cart) {a : Nat} (d : Byte) (h : 0x2000 ≤ a) : cartPpuWrite c a d = none := by
  have hlow : ¬ a ≤ 0x1FFF := by omega
  cases c <;> simp [cartPpuWrite, hlow]

theorem ppuBusRead_nametable (c : Cart) (p : Ppu) {a : Nat} (hlo : 0x2000 ≤ a) (hhi : a ≤ 0x3EFF) :
    ppuBusRead c p a = byteAt .nametable p.nt (ntCell (cartMirroring c) a) := by
  have hlow : ¬ a ≤ 0x1FFF := by omega
  simp [ppuBusRead, cartPpuRead_high c hlo, hlow, hhi]

theorem ppuBusWrite_nametable (c : Cart) (p : Ppu) {a : Nat} (d : Byte) (hlo : 0x2000 ≤ a) (hhi : a ≤ 0x3EFF) :
    ppuBusWrite c p a d = (c, { p with nt := cellSet p.nt (ntCell (cartMirroring c) a) d }) := by
  have hlow : ¬ a ≤ 0x1FFF := by omega
  simp [ppuBusWrite, cartPpuWrite_high c d hlo, hlow, hhi]

theorem ppuBusWrite_palette (c : Cart) (p : Ppu) {a : Nat} (d : Byte) (h : 0x3F00 ≤ a) :
    ppuBusWrite c p a d = (c, palWrite p a d) := by
  have hlow : ¬ a ≤ 0x1FFF := by omega
  have hnt : ¬ a ≤ 0x3EFF := by omega
  simp [ppuBusWrite, cartPpuWrite_high c d (show 0x2000 ≤ a by omega), hlow, hnt]

/-! ## PPUDATA (R819) -/

/-- v steps by 32 or by 1, as a number. -/
theorem ppuDataStep_eq (p : Ppu) : ppuDataStep p = .ofNat 15 (p.v.toNat + if p.ctrl.getLsbD 2 then 32 else 1) := by
  rw [ppuDataStep]
  split <;> exact BitVec.eq_of_toNat_eq (by simp)

theorem ppuCpuRead_data (c : Cart) (p : Ppu) : ppuCpuRead c p 7 = readPpuData c p := rfl

theorem ppuCpuWrite_data (c : Cart) (p : Ppu) (d : Byte) : ppuCpuWrite c p 7 d = writePpuData c p d := rfl

theorem readPpuData_palette (c : Cart) (p : Ppu) (h : 0x3F00 ≤ ppuDataAddr p) :
    readPpuData c p = ((palRead p (ppuDataAddr p)).setWidth 8,
      { p with readBuffer := (palRead p (ppuDataAddr p)).setWidth 8, v := ppuDataStep p }) := by
  rw [readPpuData, if_pos h]

theorem readPpuData_buffered (c : Cart) (p : Ppu) (h : ppuDataAddr p < 0x3F00) :
    readPpuData c p = (p.readBuffer, { p with readBuffer := ppuBusRead c p (ppuDataAddr p), v := ppuDataStep p }) := by
  rw [readPpuData, if_neg (by omega)]

theorem writePpuData_nametable (c : Cart) (p : Ppu) (d : Byte) (hlo : 0x2000 ≤ ppuDataAddr p)
    (hhi : ppuDataAddr p ≤ 0x3EFF) :
    writePpuData c p d =
      (c, { p with nt := cellSet p.nt (ntCell (cartMirroring c) (ppuDataAddr p)) d, v := ppuDataStep p }) := by
  rw [writePpuData, ppuBusWrite_nametable c p d hlo hhi]

theorem writePpuData_palette (c : Cart) (p : Ppu) (d : Byte) (h : 0x3F00 ≤ ppuDataAddr p) :
    writePpuData c p d = (c, { palWrite p (ppuDataAddr p) d with v := ppuDataStep p }) := by
  rw [writePpuData, ppuBusWrite_palette c p d h]

/-- Settles O54: the write sets the nametable cell that the first read takes into the buffer
(`byteAt_cellSet_same`). -/
theorem ppuDataReadsOneBehind : Obligations.PpuDataReadsOneBehind := by
  intro c p d (hlo : 0x2000 ≤ ppuDataAddr p) (hhi : ppuDataAddr p ≤ 0x3EFF)
  have hbuffered : ppuDataAddr p < 0x3F00 := by omega
  have hread := readPpuData_buffered c { p with nt := cellSet p.nt (ntCell (cartMirroring c) (ppuDataAddr p)) d }
    hbuffered
  have hcell : ppuBusRead c { p with nt := cellSet p.nt (ntCell (cartMirroring c) (ppuDataAddr p)) d }
      (ppuDataAddr p) = d := by
    rw [ppuBusRead_nametable _ _ hlo hhi, byteAt_cellSet_same]
  dsimp only
  rw [ppuCpuWrite_data, writePpuData_nametable c p d hlo hhi]
  dsimp only
  rw [ppuCpuRead_data, ppuCpuRead_data, hread]
  refine ⟨rfl, ppuDataStep_eq p, rfl, rfl, hcell, rfl, fun h => ?_⟩
  rw [readPpuData_buffered _ _ h]
  exact hcell

/-! ## The palette (R832) -/

/-- Two palette addresses select one cell exactly when they agree mod 32 or are mirrors. -/
theorem paletteCell_eq_iff (a b : Nat) :
    paletteCell b = paletteCell a ↔ a % 32 = b % 32 ∨ (a % 4 = 0 ∧ a % 16 = b % 16) := by
  unfold paletteCell
  dsimp only
  split <;> split <;> omega

theorem palRead_palWrite (p : Ppu) (a b : Nat) (d : Byte) :
    palRead (palWrite p a d) b =
      if a % 32 = b % 32 ∨ (a % 4 = 0 ∧ a % 16 = b % 16) then d.setWidth 6 else palRead p b := by
  split
  · next h => rw [palRead, paletteAt, palWrite, (paletteCell_eq_iff a b).2 h, cellGet_cellSet_same]
  · next h =>
    rw [palRead, paletteAt, palWrite, cellGet_cellSet_other _ _ (mt (paletteCell_eq_iff a b).1 h)]
    rfl

/-- The low six bits of a byte. -/
theorem setWidth_six (d : Byte) : (d.setWidth 6).setWidth 8 = d &&& 0x3F := by
  revert d
  decide

/-- Settles O55: the cells by `palRead_palWrite`; PPUDATA at a palette address is that write or that read. -/
theorem paletteWritesMirror : Obligations.PaletteWritesMirror := by
  refine ⟨fun p a b d _ _ _ _ => palRead_palWrite p a b d, fun cart p v d ha hb => ?_⟩
  have hread := readPpuData_palette cart { palWrite p (ppuDataAddr p) d with v := v } hb
  have hcell : ((palRead (palWrite p (ppuDataAddr p) d) (v.toNat % 0x4000)).setWidth 8 : Byte) =
      if p.v.toNat % 0x4000 % 32 = v.toNat % 0x4000 % 32 ∨
          (p.v.toNat % 0x4000 % 4 = 0 ∧ p.v.toNat % 0x4000 % 16 = v.toNat % 0x4000 % 16)
        then d &&& 0x3F else (palRead p (v.toNat % 0x4000)).setWidth 8 := by
    rw [palRead_palWrite, apply_ite (BitVec.setWidth 8), setWidth_six]
    rfl
  dsimp only
  rw [ppuCpuWrite_data, writePpuData_palette cart p d ha]
  dsimp only
  rw [ppuCpuRead_data, hread]
  refine ⟨?_, hcell, ?_⟩
  · rw [ppuDataStep_eq]
    rfl
  · rw [ppuDataStep_eq]
    rfl

/-! ## Sprite evaluation (R850) -/

/-- What the scan of the entries `ns` adds: the copies of the entries in range that still have room, and the overflow
when one has none. -/
theorem scanSprites_eq (p : Ppu) {ns : List Nat} {room : Nat} {acc : SpriteScan} (h : acc.found.length + room = 8) :
    scanSprites p ns acc =
      { found := acc.found ++ ((ns.filter (spriteInRange p)).take room).map (spriteCopy p)
        zero := acc.zero || decide (0 ∈ (ns.filter (spriteInRange p)).take room)
        overflow := acc.overflow || decide (room < (ns.filter (spriteInRange p)).length) } := by
  induction ns generalizing room acc with
  | nil => simp [scanSprites]
  | cons n ns ih =>
    by_cases hn : spriteInRange p n = true
    · rw [scanSprites, if_pos hn, List.filter_cons_of_pos hn]
      cases room with
      | zero =>
        rw [if_neg (by omega)]
        simp
      | succ room =>
        rw [if_pos (by omega), ih (room := room) (by simp; omega)]
        simp [eq_comm, Bool.or_assoc]
        rfl
    · rw [scanSprites, if_neg hn, List.filter_cons_of_neg hn]
      exact ih h

/-- Entry 0 comes first, so it has room whenever it is in range. -/
theorem zero_mem_take_hits (p : Ppu) :
    0 ∈ ((List.range 64).filter (spriteInRange p)).take 8 ↔ 0 ∈ (List.range 64).filter (spriteInRange p) := by
  refine ⟨List.mem_of_mem_take, fun h => ?_⟩
  have h0 : spriteInRange p 0 = true := (List.mem_filter.1 h).2
  rw [show List.range 64 = 0 :: (List.range 63).map Nat.succ from List.range_succ_eq_map, List.filter_cons_of_pos h0]
  exact List.mem_cons_self

theorem getLsbD_overflowBit {k : Nat} (hk : k < 8) : (0x20 : Byte).getLsbD k = decide (k = 5) := by
  revert k
  decide

/-- Settles O56: the scan starts with room for eight (`scanSprites_eq`). -/
theorem spriteEvaluationTakesFirstEight : Obligations.SpriteEvaluationTakesFirstEight := by
  intro p
  have hscan := scanSprites_eq p (ns := List.range 64) (room := 8) (acc := ⟨[], false, false⟩) rfl
  have hzero := zero_mem_take_hits p
  dsimp only [evaluateSprites]
  rw [hscan]
  generalize (List.range 64).filter (spriteInRange p) = hits at hzero ⊢
  simp only [List.nil_append, Bool.false_or, List.length_map, List.length_take]
  refine ⟨Nat.min_comm _ _, ?_, ?_, ?_, ?_, trivial⟩
  · rw [List.take_left' (by simp)]
  · simp
  · simp only [hzero]
  · intro k hk
    split
    · next hover => rw [BitVec.getLsbD_or, hover, Bool.and_true, getLsbD_overflowBit hk]
    · next hover => rw [Bool.eq_false_of_not_eq_true hover, Bool.and_false, Bool.or_false]

end Sys2Proof.Machine
end

section
/-! The controller port and mapper 1's serial register (spec/63 R1030, R1042): two shift registers, each described by
what one access does to it. -/

namespace Sys2Proof.Machine

/-! ## Controller port 0 (R1030) -/

/-- With the strobe clear, read `k` answers bit 7 of the register shifted `k` times. -/
theorem portReads_eq (n : Nat) {q : Ports} (h : q.strobe = false) :
    portReads n q = (List.range n).map (fun k => portBit (q.shift0 <<< k)) := by
  induction n generalizing q with
  | zero => rfl
  | succ n ih =>
    have hread : portsRead0 q = (portBit q.shift0, { q with shift0 := q.shift0 <<< 1 }) := by simp [portsRead0, h]
    have hrest := ih (q := { q with shift0 := q.shift0 <<< 1 }) h
    rw [portReads, hread, hrest, List.range_succ_eq_map, List.map_cons, List.map_map]
    simp [Function.comp_def, ← BitVec.shiftLeft_add, Nat.add_comm]

/-- Bit 7 after `k` shifts is bit `7 - k`, and 0 after eight. -/
theorem portBit_shiftLeft (b : Byte) (k : Nat) :
    portBit (b <<< k) = if k < 8 ∧ b.getLsbD (7 - k) = true then 0x01 else 0x00 := by
  have hk : ¬ 7 < k ↔ k < 8 := by omega
  simp only [portBit, BitVec.getLsbD_shiftLeft, Bool.and_eq_true, Bool.not_eq_true', decide_eq_true_eq,
    decide_eq_false_iff_not, hk]
  simp

/-- Settles O59: the strobe of 1 loads the register from the host's buttons, the strobe of 0 lets reads shift it. -/
theorem controllerShiftsOutButtons : Obligations.ControllerShiftsOutButtons := by
  intro q d1 d0 n h1 h0
  have hstrobe : portsWrite d0 (portsWrite d1 q) =
      { q with strobe := false, shift0 := q.host0, shift1 := q.host1 } := by
    rw [portsWrite, portsWrite, if_neg (ne_true_of_eq_false h0), if_pos h1]
  rw [hstrobe, portReads_eq n rfl]
  simp only [portBit_shiftLeft]

/-! ## Mapper 1's serial register (R1042) -/

/-- The shift register after a write with bit 7 clear: the byte's bit 0 comes in at the top. -/
def serialShift (sr : BitVec 5) (d : Byte) : BitVec 5 := (sr >>> 1) ||| ((d &&& 1).setWidth 5 <<< 4)

theorem getLsbD_serialShift (sr : BitVec 5) (d : Byte) {k : Nat} (hk : k < 5) :
    (serialShift sr d).getLsbD k = if k = 4 then d.getLsbD 0 else sr.getLsbD (k + 1) := by
  interval_cases k <;> simp [serialShift]

section
variable {m : Mapper1} (a : Nat) {d : Byte}

theorem mapper1Serial_shift (hd : d.getLsbD 7 = false) (hm : m.srCount < 4) :
    mapper1Serial m a d = { m with sr := serialShift m.sr d, srCount := m.srCount + 1 } := by
  have hcount : ¬ m.srCount + 1 = 5 := by omega
  rw [mapper1Serial, if_neg (ne_true_of_eq_false hd)]
  exact if_neg hcount

theorem mapper1Serial_fifth (hd : d.getLsbD 7 = false) (hm : m.srCount = 4) :
    mapper1Serial m a d = mapper1Commit m a (serialShift m.sr d) := by
  rw [mapper1Serial, if_neg (ne_true_of_eq_false hd), hm]
  rfl

end

/-- The register that a commit writes. -/
theorem mapper1Commit_eq (m : Mapper1) (a : Nat) (v : BitVec 5) :
    mapper1Commit m a v =
      if a / 0x2000 % 4 = 0 then { m with sr := 0, srCount := 0, control := v }
      else if a / 0x2000 % 4 = 1 then { m with sr := 0, srCount := 0, chr0 := v }
      else if a / 0x2000 % 4 = 2 then { m with sr := 0, srCount := 0, chr1 := v }
      else { m with sr := 0, srCount := 0, prgBank := v } := by
  rw [mapper1Commit]
  split
  · next h => rw [if_pos h]
  · next h => rw [if_neg (by omega), if_pos h]
  · next h => rw [if_neg (by omega), if_neg (by omega), if_pos h]
  · next h0 h1 h2 => rw [if_neg h0, if_neg h1, if_neg h2]

/-- Settles O60: four shifts, then the commit of the fifth (`mapper1Serial_shift`, `mapper1Serial_fifth`). -/
theorem fiveSerialWritesCommit : Obligations.FiveSerialWritesCommit := by
  intro m d a hcount _ hd
  have hfour : mapper1Serial (mapper1Serial (mapper1Serial (mapper1Serial m a (d 0)) a (d 1)) a (d 2)) a (d 3) =
      { m with
        sr := serialShift (serialShift (serialShift (serialShift m.sr (d 0)) (d 1)) (d 2)) (d 3)
        srCount := 4 } := by
    rw [mapper1Serial_shift a (hd 0) (by omega), mapper1Serial_shift a (hd 1) (by simp [hcount]),
      mapper1Serial_shift a (hd 2) (by simp [hcount]), mapper1Serial_shift a (hd 3) (by simp [hcount]), hcount]
  dsimp only
  rw [hfour]
  refine ⟨rfl, _, ?_, (mapper1Serial_fifth a (hd 4) rfl).trans (mapper1Commit_eq _ _ _)⟩
  rintro ⟨k, hk⟩
  interval_cases k <;>
    · simp only [getLsbD_serialShift, Nat.reduceLT, Nat.reduceAdd, Nat.reduceEqDiff, if_true, if_false]
      rfl

end Sys2Proof.Machine
end
